-- ==== Sys2Proof/Word.lean ====
section
/-! DEFINITION. The word types of the PDC (spec/00_scope.md R10): a byte is 8 bits, a nibble is 4 bits, and bit 0 is the
least significant bit. -/

namespace Sys2Proof

/-- A byte, 8 bits (R10). -/
abbrev Byte := BitVec 8

/-- A nibble, 4 bits (R10); a colour operand and a stored pixel are nibbles (R53, R72). -/
abbrev Nibble := BitVec 4

/-- A request word, 96 bits (R70). -/
abbrev RequestWord := BitVec 96

/-- A micro-op word, 32 bits (R86). -/
abbrev UopWord := BitVec 32

end Sys2Proof
end

