-- ==== Sys2Proof/Syntax.lean ====
section
/-! DEFINITION. The instructions of the PDC as syntax: the 14 requests (spec/30_encoding.md R76) and the 11 micro-ops (R87),
one constructor per row of spec/opcode_table.json, and the named codes their operands use. -/

namespace Sys2Proof

/-- The three output lines (R25, R87): codes 0 RST, 1 DC, 2 CS; 3 is reserved. -/
inductive Line
  | rst | dc | cs
  deriving DecidableEq, Repr

/-- The 14 command slots of R84, in slot order. -/
inductive CmdSlot
  | psr | pwr | pfs | btst | pll | tse | cdi | vsr | tres | cal | dtm | pof | drf | dslp
  deriving DecidableEq, Repr

/-- The 12 payload slots of R85, in slot order. -/
inductive PayloadSlot
  | psrData | pwrData | pfsData | btstData | pllData | tseData | cdiData | vsrData | tresData | calData
  | vcomData | dslpData
  deriving DecidableEq, Repr

/-- The three panel states of R81; code 3 is reserved and has no constructor. -/
inductive PanelState
  | uninitialized | active | sleeping
  deriving DecidableEq, Repr

/-- The seven colours of R80, in code order. Codes 7..15 are reserved: a colour operand is a `Nibble`, since R72 lets a
request encode them. -/
inductive Color
  | black | white | green | blue | red | yellow | orange
  deriving DecidableEq, Repr

/-- The instructions. Coordinates, lengths and the rotation operand are exact integers (R11, R71); `WellFormed` says which
of them an encoding can carry. -/
inductive Instr
  /-- R177 -/
  | writePixel (x y : Int) (color : Nibble)
  /-- R200 -/
  | writeFastHLine (x y w : Int) (color : Nibble)
  /-- R201 -/
  | writeFastVLine (x y h : Int) (color : Nibble)
  /-- R202 -/
  | writeFillRect (x y w h : Int) (color : Nibble)
  /-- R203 -/
  | drawBitmap (x y : Int) (data : List Byte) (w h : Int) (color : Nibble)
  /-- R170 -/
  | width
  /-- R171 -/
  | height
  /-- R172 -/
  | setRotation (r : Int)
  /-- R173 -/
  | getRotation
  /-- R178 -/
  | clearDisplay
  /-- R140 -/
  | display
  /-- R141 -/
  | clean
  /-- R145 -/
  | getPanelState
  /-- R144 -/
  | setPanelState (active : Bool)
  /-- R124 -/
  | uPin (line : Line) (level : Bool)
  /-- R125 -/
  | uWait (ms : Nat)
  /-- R126 -/
  | uCmd (slot : CmdSlot)
  /-- R127 -/
  | uData (slot : PayloadSlot)
  /-- R128 -/
  | uDataFb
  /-- R129 -/
  | uDataBg
  /-- R130 -/
  | uPollReadyTo (ms : Nat)
  /-- R131 -/
  | uPollReady
  /-- R132 -/
  | uPollNotReady
  /-- R133 -/
  | uSetState (state : PanelState)
  /-- R134 -/
  | uEnd (rcode : BitVec 4) (result : BitVec 8)
  deriving DecidableEq, Repr

/-- The micro-ops (R87); every other instruction is a request (R76). -/
def Instr.isUop : Instr → Bool
  | .uPin _ _ | .uWait _ | .uCmd _ | .uData _ | .uDataFb | .uDataBg | .uPollReadyTo _ | .uPollReady
  | .uPollNotReady | .uSetState _ | .uEnd _ _ => true
  | .writePixel .. | .writeFastHLine .. | .writeFastVLine .. | .writeFillRect .. | .drawBitmap .. | .width | .height
  | .setRotation _ | .getRotation | .clearDisplay | .display | .clean | .getPanelState | .setPanelState _ => false

/-- The requests that write pixels: WRITE_PIXEL and the primitives (R182). -/
def Instr.isDraw : Instr → Bool
  | .writePixel .. | .writeFastHLine .. | .writeFastVLine .. | .writeFillRect .. | .drawBitmap .. => true
  | .width | .height | .setRotation _ | .getRotation | .clearDisplay | .display | .clean | .getPanelState
  | .setPanelState _ | .uPin _ _ | .uWait _ | .uCmd _ | .uData _ | .uDataFb | .uDataBg | .uPollReadyTo _ | .uPollReady
  | .uPollNotReady | .uSetState _ | .uEnd _ _ => false

/-- The pseudo-requests of R89; `Machine/Operands.lean` expands them. -/
inductive Pseudo
  | init | wake | sleep
  | fillScreen (color : Nibble)
  deriving DecidableEq, Repr

end Sys2Proof
end

