-- ==== Sys2Proof/Config.lean ====
section
/-! DEFINITION. What is fixed for this hardware (spec/00_scope.md R7: the value column) and what the spec leaves open: the OPEN
parameters and the environment's draws are constants WITHOUT a body, so no proof can see a value of theirs. -/

namespace Sys2Proof.Config

/-- `COLS` (R7). -/
def cols : Nat := 600

/-- `ROWS` (R7). -/
def rows : Nat := 448

/-- `N`, the framebuffer length in bytes (R7, R22). -/
def fbBytes : Nat := cols * rows / 2

/-- `BG_BYTE` (R7). -/
def bgByte : Byte := 0x11#8

/-- `CMD_PH1`, the slot of the first refresh phase (R7, R142). -/
def cmdPh1 : CmdSlot := .pof

/-- `INIT_TIMEOUT_MS` (R7). -/
def initTimeoutMs : Nat := 10000

/-- `RESET_HOLD_MS` (R7). -/
def resetHoldMs : Nat := 1

/-- `INIT_SETTLE_MS` (R7). -/
def initSettleMs : Nat := 100

/-- `REFRESH_SETTLE_MS` (R7). -/
def refreshSettleMs : Nat := 200

/-- `DSLP_SETTLE_MS` (R7). -/
def dslpSettleMs : Nat := 100

/-- `REFRESH_TIMEOUT_MS` (R7, R150): this hardware takes `none`, an unbounded refresh poll. The shared poll operation takes
it as an argument, so that R150 is modelled for a number too (log 15). -/
def refreshTimeoutMs : Option Nat := none

/-- Micro-ROM entry points (R60, R121). -/
def entryInit : BitVec 8 := 0x00#8
def entryDisplay : BitVec 8 := 0x20#8
def entryClean : BitVec 8 := 0x30#8
def entryDslp : BitVec 8 := 0x40#8

/-- What `SPI_MODE` fixes (R7, R102): clock polarity, clock phase, and whether a byte's most significant bit goes first. -/
structure SpiMode where
  cpol : Bool
  cpha : Bool
  msbFirst : Bool
  deriving DecidableEq, Repr, Inhabited

/-- `CmdTable` (R84): OPEN, a free value (log 6). -/
opaque cmdTable : CmdSlot → Byte

/-- `PayloadTable` (R85): OPEN, a free value; a payload may be empty (log 6). -/
opaque payloadTable : PayloadSlot → List Byte

/-- `SPI_MODE` (R102): OPEN, a free value (log 6). -/
opaque spiMode : SpiMode

/-- `FB_RESET` (R7, R35, U4): each byte after construction is an independent draw, a free value (log 1). -/
opaque fbReset : Nat → Byte

/-- `UPC` after construction (R35, U21): any value, a free value (log 2). -/
opaque upcReset : BitVec 8

/-- `T0` after construction (R35, U21): any value, a free value (log 2). -/
opaque t0Reset : Nat

/-- The panel's answer at the n-th unscripted BUSY sample (R105, U7): a free value (log 5). -/
opaque busySample : Nat → Bool

/-- How many further clock readings in a row show no progress after the n-th unscripted advance (R233): a free value (log 3). -/
opaque clockStall : Nat → Nat

/-- By how much more than 1 ms the n-th unscripted advance moves the clock (R233, U8, U9): a free value (log 3). -/
opaque clockGap : Nat → Nat

end Sys2Proof.Config
end

