-- ==== Sys2Proof/WellFormed.lean ====
section
/-! DEFINITION. Which instruction terms an encoding can carry: the signed 16-bit operands of a request (spec/30_encoding.md R71)
the 24-bit millisecond arguments of a micro-op and the result codes of `U_END` that are not reserved (R87). A reserved colour is no ill-formed term (R72); a reserved line, slot or
panel state has no term. -/

namespace Sys2Proof

/-- `-32768 ≤ v ≤ 32767`, what a 16-bit operand field carries (R71). -/
def fits16 (v : Int) : Bool := decide (-32768 ≤ v) && decide (v ≤ 32767)

/-- `v < 2^24`, what the argument field of a micro-op carries (R86). -/
def fits24 (v : Nat) : Bool := decide (v < 2 ^ 24)

/-- A result code that is not reserved: 0, 1 or 2 (R29, R220); the codes 3..15 are never written (spec/93 U18). -/
def legalRcode (rc : BitVec 4) : Bool := decide (rc.toNat ≤ 2)

namespace Instr

/-- The instruction has an encoding. -/
def wf : Instr → Bool
  | .writePixel x y _ => fits16 x && fits16 y
  | .writeFastHLine x y w _ => fits16 x && fits16 y && fits16 w
  | .writeFastVLine x y h _ => fits16 x && fits16 y && fits16 h
  | .writeFillRect x y w h _ => fits16 x && fits16 y && fits16 w && fits16 h
  | .drawBitmap x y _ w h _ => fits16 x && fits16 y && fits16 w && fits16 h
  | .width => true
  | .height => true
  | .setRotation r => fits16 r
  | .getRotation => true
  | .clearDisplay => true
  | .display => true
  | .clean => true
  | .getPanelState => true
  | .setPanelState _ => true
  | .uPin _ _ => true
  | .uWait ms => fits24 ms
  | .uCmd _ => true
  | .uData _ => true
  | .uDataFb => true
  | .uDataBg => true
  | .uPollReadyTo ms => fits24 ms
  | .uPollReady => true
  | .uPollNotReady => true
  | .uSetState _ => true
  | .uEnd rc _ => legalRcode rc

end Instr

end Sys2Proof
end

