-- ==== Sys2Proof/Decode.lean ====
section
/-! DEFINITION. The decoder of request words and micro-op words (spec/30_encoding.md R70 to R79, R86, R87), total and rejecting by
name, and after it the encoder, written from the same tables. -/

namespace Sys2Proof

/-! ## Codes -/

/-- R25, R87. -/
def Line.code : Line → BitVec 2
  | .rst => 0#2 | .dc => 1#2 | .cs => 2#2

/-- R87: line code 3 is reserved. -/
def Line.ofCode (v : BitVec 2) : Option Line :=
  match v.toNat with
  | 0 => some .rst | 1 => some .dc | 2 => some .cs | _ => none

/-- R84. -/
def CmdSlot.code : CmdSlot → Byte
  | .psr => 0#8 | .pwr => 1#8 | .pfs => 2#8 | .btst => 3#8 | .pll => 4#8 | .tse => 5#8 | .cdi => 6#8
  | .vsr => 7#8 | .tres => 8#8 | .cal => 9#8 | .dtm => 10#8 | .pof => 11#8 | .drf => 12#8 | .dslp => 13#8

/-- R84, R87: command slots above 13 are reserved. -/
def CmdSlot.ofCode (v : Byte) : Option CmdSlot :=
  match v.toNat with
  | 0 => some .psr | 1 => some .pwr | 2 => some .pfs | 3 => some .btst | 4 => some .pll | 5 => some .tse
  | 6 => some .cdi | 7 => some .vsr | 8 => some .tres | 9 => some .cal | 10 => some .dtm | 11 => some .pof
  | 12 => some .drf | 13 => some .dslp | _ => none

/-- R85. -/
def PayloadSlot.code : PayloadSlot → Byte
  | .psrData => 0#8 | .pwrData => 1#8 | .pfsData => 2#8 | .btstData => 3#8 | .pllData => 4#8
  | .tseData => 5#8 | .cdiData => 6#8 | .vsrData => 7#8 | .tresData => 8#8 | .calData => 9#8
  | .vcomData => 10#8 | .dslpData => 11#8

/-- R85, R87: payload slots above 11 are reserved. -/
def PayloadSlot.ofCode (v : Byte) : Option PayloadSlot :=
  match v.toNat with
  | 0 => some .psrData | 1 => some .pwrData | 2 => some .pfsData | 3 => some .btstData | 4 => some .pllData
  | 5 => some .tseData | 6 => some .cdiData | 7 => some .vsrData | 8 => some .tresData | 9 => some .calData
  | 10 => some .vcomData | 11 => some .dslpData | _ => none

/-- R81. -/
def PanelState.code : PanelState → BitVec 2
  | .uninitialized => 0#2 | .active => 1#2 | .sleeping => 2#2

/-- R81, R133: panel-state code 3 is reserved. -/
def PanelState.ofCode (v : BitVec 2) : Option PanelState :=
  match v.toNat with
  | 0 => some .uninitialized | 1 => some .active | 2 => some .sleeping | _ => none

/-- R80. -/
def Color.code : Color → Nibble
  | .black => 0#4 | .white => 1#4 | .green => 2#4 | .blue => 3#4 | .red => 4#4 | .yellow => 5#4 | .orange => 6#4

/-! ## Request words -/

/-- What the host puts on the request port: one word and its attachment (R70). -/
structure RawRequest where
  word : RequestWord
  data : List Byte
  deriving DecidableEq, Repr

/-- The fields of a request word (R70), `op` at the top. -/
structure Fields where
  op : Byte
  color : Nibble
  flags : BitVec 4
  a : BitVec 16
  b : BitVec 16
  c : BitVec 16
  d : BitVec 16
  e : BitVec 16
  deriving DecidableEq, Repr

/-- R70: the field positions. -/
def Fields.ofWord (w : RequestWord) : Fields where
  op := w.extractLsb' 88 8
  color := w.extractLsb' 84 4
  flags := w.extractLsb' 80 4
  a := w.extractLsb' 64 16
  b := w.extractLsb' 48 16
  c := w.extractLsb' 32 16
  d := w.extractLsb' 16 16
  e := w.extractLsb' 0 16

/-- The request opcodes of R76. -/
inductive ReqOp
  | writePixel | writeFastHLine | writeFastVLine | writeFillRect | drawBitmap
  | width | height | setRotation | getRotation | clearDisplay
  | display | clean | getPanelState | setPanelState
  deriving DecidableEq, Repr

/-- R76, column `OP`. -/
def ReqOp.code : ReqOp → Byte
  | .writePixel => 0x01#8 | .writeFastHLine => 0x02#8 | .writeFastVLine => 0x03#8 | .writeFillRect => 0x04#8
  | .drawBitmap => 0x05#8 | .width => 0x10#8 | .height => 0x11#8 | .setRotation => 0x12#8
  | .getRotation => 0x13#8 | .clearDisplay => 0x20#8 | .display => 0x30#8 | .clean => 0x31#8
  | .getPanelState => 0x32#8 | .setPanelState => 0x33#8

/-- R76, R77: every other opcode is reserved. -/
def ReqOp.ofCode (v : Byte) : Option ReqOp :=
  match v.toNat with
  | 0x01 => some .writePixel | 0x02 => some .writeFastHLine | 0x03 => some .writeFastVLine
  | 0x04 => some .writeFillRect | 0x05 => some .drawBitmap | 0x10 => some .width | 0x11 => some .height
  | 0x12 => some .setRotation | 0x13 => some .getRotation | 0x20 => some .clearDisplay
  | 0x30 => some .display | 0x31 => some .clean | 0x32 => some .getPanelState | 0x33 => some .setPanelState
  | _ => none

/-- R76, column "uses". -/
structure Uses where
  a : Bool := false
  b : Bool := false
  c : Bool := false
  d : Bool := false
  color : Bool := false
  active : Bool := false
  data : Bool := false
  deriving DecidableEq, Repr

/-- R76, column "uses", row by row. -/
def ReqOp.uses : ReqOp → Uses
  | .writePixel => { a := true, b := true, color := true }
  | .writeFastHLine => { a := true, b := true, c := true, color := true }
  | .writeFastVLine => { a := true, b := true, c := true, color := true }
  | .writeFillRect => { a := true, b := true, c := true, d := true, color := true }
  | .drawBitmap => { a := true, b := true, c := true, d := true, color := true, data := true }
  | .width => {}
  | .height => {}
  | .setRotation => { a := true }
  | .getRotation => {}
  | .clearDisplay => {}
  | .display => {}
  | .clean => {}
  | .getPanelState => {}
  | .setPanelState => { active := true }

/-- R78: every unused part of the word and the attachment is zero. `flags` bits 3..1 and field E are unused by every opcode. -/
def unusedZero (u : Uses) (f : Fields) (data : List Byte) : Bool :=
  (u.a || f.a == 0#16) && (u.b || f.b == 0#16) && (u.c || f.c == 0#16) && (u.d || f.d == 0#16)
    && (u.color || f.color == 0#4) && (u.active || f.flags.extractLsb' 0 1 == 0#1)
    && f.flags.extractLsb' 1 3 == 0#3 && f.e == 0#16 && (u.data || data.isEmpty)

/-- The request an accepted word names (R71 to R76): operands sign-extended to exact integers. -/
def ReqOp.build (o : ReqOp) (f : Fields) (data : List Byte) : Instr :=
  match o with
  | .writePixel => .writePixel f.a.toInt f.b.toInt f.color
  | .writeFastHLine => .writeFastHLine f.a.toInt f.b.toInt f.c.toInt f.color
  | .writeFastVLine => .writeFastVLine f.a.toInt f.b.toInt f.c.toInt f.color
  | .writeFillRect => .writeFillRect f.a.toInt f.b.toInt f.c.toInt f.d.toInt f.color
  | .drawBitmap => .drawBitmap f.a.toInt f.b.toInt data f.c.toInt f.d.toInt f.color
  | .width => .width
  | .height => .height
  | .setRotation => .setRotation f.a.toInt
  | .getRotation => .getRotation
  | .clearDisplay => .clearDisplay
  | .display => .display
  | .clean => .clean
  | .getPanelState => .getPanelState
  | .setPanelState => .setPanelState (f.flags.getLsbD 0)

/-- Why a word names no instruction. -/
inductive DecodeError
  /-- R77: the opcode of a request word is reserved. -/
  | reservedOpcode
  /-- R78: an unused part of a request is not zero. -/
  | unusedNotZero
  /-- R87: the opcode of a micro-op word is reserved. -/
  | reservedUop
  /-- R87: an argument of a listed micro-op is reserved. -/
  | reservedArgument
  deriving DecidableEq, Repr

/-- Decoding a request, in the order of R79: opcode, then unused parts, then the operands. -/
def decodeRequest (r : RawRequest) : Except DecodeError Instr :=
  match ReqOp.ofCode (Fields.ofWord r.word).op with
  | none => .error .reservedOpcode
  | some o =>
    if unusedZero o.uses (Fields.ofWord r.word) r.data then .ok (o.build (Fields.ofWord r.word) r.data)
    else .error .unusedNotZero

/-! ## Micro-op words -/

/-- The micro-opcodes of R87. -/
inductive UopOp
  | uPin | uWait | uCmd | uData | uDataFb | uDataBg | uPollReadyTo | uPollReady | uPollNotReady | uSetState | uEnd
  deriving DecidableEq, Repr

/-- R87, column `UOP`. -/
def UopOp.code : UopOp → Byte
  | .uPin => 0x01#8 | .uWait => 0x02#8 | .uCmd => 0x03#8 | .uData => 0x04#8 | .uDataFb => 0x05#8
  | .uDataBg => 0x06#8 | .uPollReadyTo => 0x07#8 | .uPollReady => 0x08#8 | .uPollNotReady => 0x09#8
  | .uSetState => 0x0A#8 | .uEnd => 0x0B#8

/-- R87: every other `UOP` value is illegal. -/
def UopOp.ofCode (v : Byte) : Option UopOp :=
  match v.toNat with
  | 0x01 => some .uPin | 0x02 => some .uWait | 0x03 => some .uCmd | 0x04 => some .uData
  | 0x05 => some .uDataFb | 0x06 => some .uDataBg | 0x07 => some .uPollReadyTo | 0x08 => some .uPollReady
  | 0x09 => some .uPollNotReady | 0x0A => some .uSetState | 0x0B => some .uEnd | _ => none

/-- The argument field of a micro-op (R87, column `ARG`). A reserved result code is a
reserved argument of `U_END` (R29, R220; log 10). -/
def UopOp.build (o : UopOp) (arg : BitVec 24) : Option Instr :=
  match o with
  | .uPin =>
    if arg.extractLsb' 10 14 = 0#14 ∧ arg.extractLsb' 1 7 = 0#7 then
      (Line.ofCode (arg.extractLsb' 8 2)).map fun l => .uPin l (arg.getLsbD 0)
    else none
  | .uWait => some (.uWait arg.toNat)
  | .uCmd =>
    if arg.extractLsb' 8 16 = 0#16 then (CmdSlot.ofCode (arg.extractLsb' 0 8)).map .uCmd else none
  | .uData =>
    if arg.extractLsb' 8 16 = 0#16 then (PayloadSlot.ofCode (arg.extractLsb' 0 8)).map .uData else none
  | .uDataFb => if arg = 0#24 then some .uDataFb else none
  | .uDataBg => if arg = 0#24 then some .uDataBg else none
  | .uPollReadyTo => some (.uPollReadyTo arg.toNat)
  | .uPollReady => if arg = 0#24 then some .uPollReady else none
  | .uPollNotReady => if arg = 0#24 then some .uPollNotReady else none
  | .uSetState =>
    if arg.extractLsb' 2 22 = 0#22 then (PanelState.ofCode (arg.extractLsb' 0 2)).map .uSetState else none
  | .uEnd =>
    if arg.extractLsb' 16 8 = 0#8 ∧ arg.extractLsb' 4 4 = 0#4 ∧ legalRcode (arg.extractLsb' 0 4) = true then
      some (.uEnd (arg.extractLsb' 0 4) (arg.extractLsb' 8 8))
    else none

/-- Decoding a micro-op word (R86, R87). -/
def decodeUop (u : UopWord) : Except DecodeError Instr :=
  match UopOp.ofCode (u.extractLsb' 24 8) with
  | none => .error .reservedUop
  | some o =>
    match o.build (u.extractLsb' 0 24) with
    | none => .error .reservedArgument
    | some i => .ok i

/-! ## Both formats -/

/-- What an instruction is encoded as: a request on the port, or a micro-op word of the micro-ROM (R70, R86). -/
inductive Encoded
  | request (r : RawRequest)
  | uop (u : UopWord)
  deriving DecidableEq, Repr

/-- The decoder. Which format a word has is told by where it is fetched from, never by its bits (R91). -/
def decode : Encoded → Except DecodeError Instr
  | .request r => decodeRequest r
  | .uop u => decodeUop u

/-! ## The encoder -/

/-- R70: the word of its fields. -/
def Fields.toWord (f : Fields) : RequestWord :=
  f.op ++ f.color ++ f.flags ++ f.a ++ f.b ++ f.c ++ f.d ++ f.e

/-- A request word's fields with every part zero but the opcode. -/
def ReqOp.blank (o : ReqOp) : Fields :=
  { op := o.code, color := 0#4, flags := 0#4, a := 0#16, b := 0#16, c := 0#16, d := 0#16, e := 0#16 }

/-- A micro-op word of its opcode and argument (R86). -/
def UopOp.word (o : UopOp) (arg : BitVec 24) : UopWord := o.code ++ arg

/-- A signed 16-bit operand field (R71). -/
def operand (v : Int) : BitVec 16 := BitVec.ofInt 16 v

/-- The encoder: the word (and attachment) of an instruction. -/
def encode : Instr → Encoded
  | .writePixel x y c =>
    .request ⟨({ ReqOp.blank .writePixel with a := operand x, b := operand y, color := c }).toWord, []⟩
  | .writeFastHLine x y w c =>
    .request ⟨({ ReqOp.blank .writeFastHLine with
      a := operand x, b := operand y, c := operand w, color := c }).toWord, []⟩
  | .writeFastVLine x y h c =>
    .request ⟨({ ReqOp.blank .writeFastVLine with
      a := operand x, b := operand y, c := operand h, color := c }).toWord, []⟩
  | .writeFillRect x y w h c =>
    .request ⟨({ ReqOp.blank .writeFillRect with
      a := operand x, b := operand y, c := operand w, d := operand h, color := c }).toWord, []⟩
  | .drawBitmap x y data w h c =>
    .request ⟨({ ReqOp.blank .drawBitmap with
      a := operand x, b := operand y, c := operand w, d := operand h, color := c }).toWord, data⟩
  | .width => .request ⟨(ReqOp.blank .width).toWord, []⟩
  | .height => .request ⟨(ReqOp.blank .height).toWord, []⟩
  | .setRotation r => .request ⟨({ ReqOp.blank .setRotation with a := operand r }).toWord, []⟩
  | .getRotation => .request ⟨(ReqOp.blank .getRotation).toWord, []⟩
  | .clearDisplay => .request ⟨(ReqOp.blank .clearDisplay).toWord, []⟩
  | .display => .request ⟨(ReqOp.blank .display).toWord, []⟩
  | .clean => .request ⟨(ReqOp.blank .clean).toWord, []⟩
  | .getPanelState => .request ⟨(ReqOp.blank .getPanelState).toWord, []⟩
  | .setPanelState active =>
    .request ⟨({ ReqOp.blank .setPanelState with flags := 0#3 ++ BitVec.ofBool active }).toWord, []⟩
  | .uPin l v => .uop (UopOp.word .uPin (0#14 ++ l.code ++ 0#7 ++ BitVec.ofBool v))
  | .uWait ms => .uop (UopOp.word .uWait (BitVec.ofNat 24 ms))
  | .uCmd k => .uop (UopOp.word .uCmd (0#16 ++ k.code))
  | .uData p => .uop (UopOp.word .uData (0#16 ++ p.code))
  | .uDataFb => .uop (UopOp.word .uDataFb 0#24)
  | .uDataBg => .uop (UopOp.word .uDataBg 0#24)
  | .uPollReadyTo ms => .uop (UopOp.word .uPollReadyTo (BitVec.ofNat 24 ms))
  | .uPollReady => .uop (UopOp.word .uPollReady 0#24)
  | .uPollNotReady => .uop (UopOp.word .uPollNotReady 0#24)
  | .uSetState p => .uop (UopOp.word .uSetState (0#22 ++ p.code))
  | .uEnd rc res => .uop (UopOp.word .uEnd (0#8 ++ res ++ 0#4 ++ rc))

/-! ## The opcode table's numbering -/

/-- The instruction the decoder reads from the table's word `w` of `nbits` bits: 32 bits are a micro-op word, 96 a request
word with an empty attachment. -/
def decodeTableWord (nbits w : Nat) : Option Instr :=
  if nbits ≤ 32 then (decodeUop (BitVec.ofNat 32 w)).toOption
  else (decodeRequest ⟨BitVec.ofNat 96 w, []⟩).toOption

end Sys2Proof
end

