-- ==== Sys2Proof/Machine/Memory.lean ====
section
/-! DEFINITION. Memories as lists of cells in one canonical form: addresses strictly rising, no cell equal to what an unlisted
address reads as. Two memories have this form: the framebuffer (spec/20_memory.md R50) and the micro-ROM (spec/41 R123). -/

namespace Sys2Proof.Machine

/-- A memory of `w`-bit cells; `Mem 8` is `List Host.Cell`. -/
abbrev Mem (w : Nat) := List (Nat × BitVec w)

/-- The cell at address `i`; `dflt` is what an unlisted address reads as. -/
def Mem.read {w : Nat} (dflt : BitVec w) : Mem w → Nat → BitVec w
  | [], _ => dflt
  | (a, v) :: m, i => if i = a then v else Mem.read dflt m i

/-- `m` with `v` at address `i`, in canonical form again. -/
def Mem.write {w : Nat} (dflt : BitVec w) : Mem w → Nat → BitVec w → Mem w
  | [], i, v => if v = dflt then [] else [(i, v)]
  | (a, u) :: m, i, v =>
    if i < a then (if v = dflt then (a, u) :: m else (i, v) :: (a, u) :: m)
    else if i = a then (if v = dflt then m else (i, v) :: m)
    else (a, u) :: Mem.write dflt m i v

/-- The canonical form for addresses `lo ≤ i < hi`. -/
def Mem.wfFrom {w : Nat} (dflt : BitVec w) (lo hi : Nat) : Mem w → Bool
  | [] => true
  | (a, v) :: m => decide (lo ≤ a) && decide (a < hi) && !(v == dflt) && Mem.wfFrom dflt (a + 1) hi m

/-- The canonical memory that holds `f i` at every address `i` from `start`, `n` addresses. -/
def Mem.ofFn {w : Nat} (dflt : BitVec w) (f : Nat → BitVec w) : Nat → Nat → Mem w
  | _, 0 => []
  | i, n + 1 => if f i = dflt then Mem.ofFn dflt f (i + 1) n else (i, f i) :: Mem.ofFn dflt f (i + 1) n

/-! ## The framebuffer -/

/-- What an unlisted framebuffer address reads as: the background byte, which is what CLEAR_DISPLAY writes everywhere (R55,
R178). What the bytes hold after construction is listed (log 1). -/
def unlistedByte : Byte := Config.bgByte

/-- `FB[i]`, also `MemRead(i, 1)` (R12). -/
def fbRead (m : List Host.Cell) (i : Nat) : Byte := Mem.read unlistedByte m i

/-- `FB[i] <- v`, also `MemWrite(i, 1, v)` (R12). -/
def fbWrite (m : List Host.Cell) (i : Nat) (v : Byte) : List Host.Cell := Mem.write unlistedByte m i v

/-- The framebuffer memory is in canonical form and lists only addresses of the framebuffer, `0..N-1` (R50). -/
def Memory.wf (m : List Host.Cell) : Bool := Mem.wfFrom unlistedByte 0 Config.fbBytes m

/-- The framebuffer after construction: each byte an independent draw (R35, U4; log 1). -/
def fbConstructed : List Host.Cell := Mem.ofFn unlistedByte Config.fbReset 0 Config.fbBytes

/-- `FillAll(b)` (R55): every byte `b`. In canonical form that is no cell at all for the byte an unlisted address reads as. -/
def fbFill (b : Byte) : List Host.Cell :=
  if b = unlistedByte then [] else Mem.ofFn unlistedByte (fun _ => b) 0 Config.fbBytes

/-- The `n` bytes from index `i` on, in ascending index order. -/
def fbBytesFrom (m : List Host.Cell) : Nat → Nat → List Byte
  | _, 0 => []
  | i, n + 1 => fbRead m i :: fbBytesFrom m (i + 1) n

/-- `StreamFB()` (R56): the `N` bytes in ascending index order. -/
def fbStream (m : List Host.Cell) : List Byte := fbBytesFrom m 0 Config.fbBytes

end Sys2Proof.Machine
end

