-- ==== Sys2Proof/Machine/Rom.lean ====
section
/-! DEFINITION. The micro-ROM (spec/41_controller_protocol.md R123): the fixed programs INIT, DISPLAY, CLEAN and DSLP as
micro-ops, and the words they are stored as. The delays, the timeout and `CMD_PH1` come from `Config`, as R123 says. -/

namespace Sys2Proof.Machine

/-- R123, INIT, entry 0x00. -/
def romInit : List Instr :=
  [.uPin .rst false, .uWait Config.resetHoldMs, .uPin .rst true, .uWait Config.resetHoldMs,
   .uPollReadyTo Config.initTimeoutMs]
  ++ [.uCmd .psr, .uData .psrData, .uCmd .pwr, .uData .pwrData, .uCmd .pfs, .uData .pfsData,
   .uCmd .btst, .uData .btstData, .uCmd .pll, .uData .pllData]
  ++ [.uCmd .tse, .uData .tseData, .uCmd .cdi, .uData .cdiData, .uCmd .vsr, .uData .vsrData,
   .uCmd .tres, .uData .tresData, .uCmd .cal, .uData .calData]
  ++ [.uWait Config.initSettleMs, .uCmd .cdi, .uData .vcomData, .uSetState .active, .uEnd 0#4 1#8]

/-- R123, the program of a refresh; DISPLAY and CLEAN differ in the micro-op that sends the image. -/
def romRefresh (image : Instr) : List Instr :=
  [.uCmd .tres, .uData .tresData, .uCmd .dtm, image, .uCmd Config.cmdPh1, .uPollReady, .uCmd .drf,
   .uPollReady, .uCmd .pof, .uPollNotReady, .uWait Config.refreshSettleMs, .uEnd 0#4 0#8]

/-- R123, DSLP, entry 0x40. -/
def romDslp : List Instr :=
  [.uCmd .dslp, .uData .dslpData, .uWait Config.dslpSettleMs, .uPin .rst false, .uPin .dc false,
   .uPin .cs false, .uSetState .sleeping, .uEnd 0#4 0#8]

/-- The word a micro-op is stored as (R86). -/
def uopWord (i : Instr) : UopWord :=
  match encode i with
  | .uop u => u
  | .request _ => 0#32

/-- A program placed from address `at_` on. -/
def place : Nat → List Instr → Mem 32
  | _, [] => []
  | a, i :: is => (a, uopWord i) :: place (a + 1) is

/-- The micro-ROM as cells; every address not listed holds 0x00000000 (R123). -/
def microRom : Mem 32 :=
  place Config.entryInit.toNat romInit ++ place Config.entryDisplay.toNat (romRefresh .uDataFb)
    ++ place Config.entryClean.toNat (romRefresh .uDataBg) ++ place Config.entryDslp.toNat romDslp

/-- `ROM[a]` (R122, R123). -/
def romRead (m : Mem 32) (a : BitVec 8) : UopWord := Mem.read 0#32 m a.toNat

/-- The cells `m` with `u` at address `a`: how a micro-op word is placed for a fetch. No step does this (R63). -/
def romWrite (m : Mem 32) (a : BitVec 8) (u : UopWord) : Mem 32 := Mem.write 0#32 m a.toNat u

end Sys2Proof.Machine
end

