-- ==== Sys2Proof/Machine/State.lean ====
section
/-! DEFINITION. The state of the PDC (spec/10_state.md R20) with the environment's inputs and the observation (spec/00_scope.md
R9, R13) as plain data, the reasons a step can stop, and the state after construction (R35, R250). -/

namespace Sys2Proof.Machine

/-- The request latch `REQ` (R28): the decoded request accepted last. -/
structure ReqLatch where
  opcode : Byte
  opA : Int
  opB : Int
  opC : Int
  opD : Int
  opCOLOR : Nibble
  opACTIVE : Bool
  opDATA : List Byte
  deriving DecidableEq, Repr

/-- What an event says (R12). -/
inductive EventKind
  /-- `LINE(l, v)` -/
  | line (l : Line) (level : Bool)
  /-- `WRITE(s)` -/
  | write (s : List Byte)
  /-- `BUSY(b)` -/
  | busy (b : Bool)
  /-- `DELAY(ms)` -/
  | delay (ms : Nat)
  deriving DecidableEq, Repr

/-- An event with the clock reading at which it happened (R13). -/
structure Event where
  time : Nat
  kind : EventKind
  deriving DecidableEq, Repr

/-- A completed request with its result (R13(b)). -/
structure Completion where
  request : Option ReqLatch
  rcode : BitVec 4
  result : Nat
  deriving DecidableEq, Repr

/-- The clock agent (R9(d), R233) as an input: `now` is the last reading, `script` the increments of the next readings where a
scenario gives them; after the script come free draws, which `stall` and `drawn` count (log 3). -/
structure Clock where
  now : Nat
  script : List Nat
  stall : Nat
  drawn : Nat
  deriving DecidableEq, Repr

/-- The BUSY input (R26) as an input: `script` holds the next samples where a scenario gives them; after the script come free
draws, which `drawn` counts (log 5). -/
structure BusyInput where
  script : List Bool
  drawn : Nat
  deriving DecidableEq, Repr

/-- Reasons a step stops with a fault of the MODEL. The spec's own faults F1 to F5 are no such stops: their entry is described
(R227), so a meaning that raises one answers a next state with `FAULT` set. -/
inductive Fault
  /-- Raised by no meaning and by no step: the type needs a name for a stop, and this hardware has none. Safe. -/
  | unraised
  deriving DecidableEq, Repr

/-- Reasons a step is refused. -/
inductive Refusal
  /-- Raised only by an arm of `exec` whose instruction has no meaning yet; no arm is such. Safe. -/
  | notModelled (mnemonic : String)
  deriving DecidableEq, Repr

/-- The PDC (R20), its micro-ROM (R123), and the model's own fields for the environment and the observation. -/
structure State where
  /-- `FB` (R22): cells of the framebuffer; an unlisted address reads as `unlistedByte`. -/
  fb : List Host.Cell
  /-- The length of the framebuffer in bytes (R22, R65). -/
  fbLen : Nat
  /-- `ROTATION` (R23). -/
  rotation : BitVec 2
  /-- `PANEL_STATE` (R24), codes of R81. -/
  panelState : BitVec 2
  /-- `RST`, `DC`, `CS` (R25): `true` is level 1, high. -/
  rst : Bool
  dc : Bool
  cs : Bool
  /-- `SEQ` (R27): `true` while a micro-program runs. -/
  seq : Bool
  /-- `UPC` (R27). -/
  upc : BitVec 8
  /-- `T0` (R27). -/
  t0 : Nat
  /-- `REQ` (R28). -/
  req : Option ReqLatch
  /-- `RCODE` (R29). -/
  rcode : BitVec 4
  /-- `RESULT` (R30). -/
  result : Nat
  /-- `FAULT` (R31), codes of R226. -/
  fault : BitVec 4
  /-- The micro-ROM (R123): no step writes it (R63). -/
  rom : List (Nat × BitVec 32)
  /-- Requests the host has issued and the port has not accepted yet, the next one first (R3(a), R33(a); log 7). -/
  port : List RawRequest
  /-- The clock (R9(d)). -/
  clock : Clock
  /-- The BUSY input (R9(c), R26). -/
  busy : BusyInput
  /-- The events recorded so far, the oldest first (R13(a)). -/
  trace : List Event
  /-- The requests completed so far, the oldest first (R13(b)). -/
  completed : List Completion
  deriving DecidableEq, Repr

/-- The state after construction (R35, R250). -/
def State.reset : State where
  fb := fbConstructed
  fbLen := Config.fbBytes
  rotation := 0#2
  panelState := PanelState.uninitialized.code
  rst := true
  dc := false
  cs := true
  seq := false
  upc := Config.upcReset
  t0 := Config.t0Reset
  req := none
  rcode := 0#4
  result := 0
  fault := 0#4
  rom := microRom
  port := []
  clock := { now := 0, script := [], stall := Config.clockStall 0, drawn := 1 }
  busy := { script := [], drawn := 0 }
  trace := []
  completed := []

end Sys2Proof.Machine
end

