-- ==== Sys2Proof/Machine/Operands.lean ====
section
/-! DEFINITION. Operand forms: the request latch (spec/30_encoding.md R71 to R75), the rotation transform with its bounds check
(spec/42_framebuffer_transform.md R170 to R175), the pixel's place in the framebuffer (spec/20_memory.md R51, R52, R54), the
bitmap source (spec/43 R204), and the pseudo-requests (spec/30 R89). -/

namespace Sys2Proof.Machine

/-- What the dispatcher latches at acceptance (R71 to R75). -/
def ReqLatch.ofRaw (r : RawRequest) : ReqLatch where
  opcode := (Fields.ofWord r.word).op
  opA := (Fields.ofWord r.word).a.toInt
  opB := (Fields.ofWord r.word).b.toInt
  opC := (Fields.ofWord r.word).c.toInt
  opD := (Fields.ofWord r.word).d.toInt
  opCOLOR := (Fields.ofWord r.word).color
  opACTIVE := (Fields.ofWord r.word).flags.getLsbD 0
  opDATA := r.data

/-! ## Rotation -/

/-- `W(r)` (R170): the logical width. -/
def logicalWidth (r : BitVec 2) : Nat := if r.toNat % 2 = 0 then Config.cols else Config.rows

/-- `H(r)` (R171): the logical height. -/
def logicalHeight (r : BitVec 2) : Nat := if r.toNat % 2 = 0 then Config.rows else Config.cols

/-- `r mod 4`, Euclidean, as the 2-bit `ROTATION` value (R172). -/
def rotationMod4 (r : Int) : BitVec 2 := BitVec.ofNat 2 (r % 4).toNat

/-- `InBounds(r, x, y)` (R175), against the logical bounds. -/
def inBounds (r : BitVec 2) (x y : Int) : Bool :=
  decide (0 ≤ x) && decide (x < logicalWidth r) && decide (0 ≤ y) && decide (y < logicalHeight r)

/-- `Phys(r, x, y)` (R174). -/
def phys (r : BitVec 2) (x y : Int) : Int × Int :=
  match r.toNat with
  | 0 => ((Config.cols : Int) - 1 - x, (Config.rows : Int) - 1 - y)
  | 1 => (y, (Config.rows : Int) - 1 - x)
  | 2 => (x, y)
  | _ => ((Config.cols : Int) - 1 - y, x)

/-- The inverse maps of R174: the logical coordinates of a physical pixel. -/
def unphys (r : BitVec 2) (px py : Int) : Int × Int :=
  match r.toNat with
  | 0 => ((Config.cols : Int) - 1 - px, (Config.rows : Int) - 1 - py)
  | 1 => ((Config.rows : Int) - 1 - py, px)
  | 2 => (px, py)
  | _ => (py, (Config.cols : Int) - 1 - px)

/-! ## A pixel's nibble -/

/-- The side of a pixel within its byte (R51, R52): an even physical column is the high nibble. -/
inductive Side
  | high | low
  deriving DecidableEq, Repr

/-- `Side(px) = px mod 2` (R51): 0 is the high nibble, 1 the low one (R52). -/
def sideOf (px : Nat) : Side := if px % 2 = 0 then .high else .low

/-- `Index(px, py)` (R51). -/
def indexOf (px py : Nat) : Nat := Config.cols * py / 2 + px / 2

/-- `KEEP` (R54). -/
def Side.keep : Side → Byte
  | .high => 0x0F#8
  | .low => 0xF0#8

/-- `SHIFT` (R54). -/
def Side.shift : Side → Nat
  | .high => 4
  | .low => 0

/-- The byte that `NibbleWrite` writes: `(old & KEEP[s]) | (c << SHIFT[s])` (R54). -/
def mergeNibble (old : Byte) (sd : Side) (c : Nibble) : Byte :=
  (old &&& sd.keep) ||| (c.zeroExtend 8 <<< sd.shift)

/-- The nibble of a byte on a side (R10, R52). -/
def nibbleAt (v : Byte) (sd : Side) : Nibble := v.extractLsb' sd.shift 4

/-- The byte index of an in-bounds logical pixel. -/
def pixelIndex (r : BitVec 2) (x y : Int) : Nat := indexOf (phys r x y).1.toNat (phys r x y).2.toNat

/-- The side of an in-bounds logical pixel: the physical column's parity (R177). -/
def pixelSide (r : BitVec 2) (x y : Int) : Side := sideOf (phys r x y).1.toNat

/-! ## Bitmap source -/

/-- `stride = ceil(w / 8)` (R203, R204), with R10's `ceil(a/b) = (a + b - 1) div b`. -/
def bitmapStride (w : Nat) : Nat := (w + 7) / 8

/-- The source bit of pixel `i` of row `j` (R204): the most significant bit is the leftmost pixel. -/
def bitmapBit (data : List Byte) (stride j i : Nat) : Bool :=
  (data.getD (j * stride + i / 8) 0#8).getLsbD (7 - i % 8)

/-! ## Pseudo-requests -/

/-- The request a pseudo-request expands to, under the current rotation (R89). -/
def expandPseudo (r : BitVec 2) : Pseudo → Instr
  | .init => .setPanelState true
  | .wake => .setPanelState true
  | .sleep => .setPanelState false
  | .fillScreen c => .writeFillRect 0 0 (logicalWidth r) (logicalHeight r) c

end Sys2Proof.Machine
end

