-- ==== Sys2Proof/Machine/Flags.lean ====
section
/-! DEFINITION. The status outputs. The PDC has no condition codes (spec/10_state.md R32): its only status registers are `RCODE`,
`RESULT` and `FAULT`, whose codes and computation stand here (R29, R30, R31; spec/60_exceptions.md R220, R226). -/

namespace Sys2Proof.Machine

/-- `RCODE` 0, OK (R29). -/
def rcodeOk : BitVec 4 := 0#4

/-- `RCODE` 1, InitTimeout (R220 E1). -/
def rcodeInitTimeout : BitVec 4 := 1#4

/-- `RCODE` 2, RefreshTimeout (R220 E5). -/
def rcodeRefreshTimeout : BitVec 4 := 2#4

/-- The faults F1 to F5 (R220, R226). -/
inductive FaultCode
  | illegalRequest | reservedColor | bitmapShort | fbLengthMismatch | illegalUop
  deriving DecidableEq, Repr

/-- The code a fault leaves in `FAULT` (R226). -/
def FaultCode.code : FaultCode → BitVec 4
  | .illegalRequest => 1#4
  | .reservedColor => 2#4
  | .bitmapShort => 3#4
  | .fbLengthMismatch => 4#4
  | .illegalUop => 5#4

/-- A colour operand is reserved: 7..15 (R72, R80). -/
def colorReserved (c : Nibble) : Bool := decide (6 < c.toNat)

/-- `Now() - T0 >= ms`, for the reading the clock shows now (R130, R131), as integers. -/
def timedOut (ms : Nat) (s : State) : Bool := decide (s.t0 + ms ≤ s.clock.now)

end Sys2Proof.Machine
end

