-- ==== Sys2Proof/Machine/Ops.lean ====
section
/-! DEFINITION. The named operations the meanings are written with: the pseudocode primitives of spec/00_scope.md R12, the bus
transport (spec/40), the sequencer's START and Advance (spec/41 R121, R122), completion of a request (spec/10 R29, R30), taking a
fault (spec/60 R227), the pixel write (spec/42 R177) and its loops (spec/43). -/

namespace Sys2Proof.Machine

/-! ## The clock -/

/-- One reading of the clock (R233): readings never decrease, and every endless sequence of readings grows without bound.
A scripted increment first; after the script, `stall` readings without progress and then one of at least 1 ms, both drawn. -/
def Clock.read (c : Clock) : Clock :=
  match c.script with
  | d :: ds => { c with now := c.now + d, script := ds }
  | [] =>
    match c.stall with
    | 0 => { c with
        now := c.now + 1 + Config.clockGap c.drawn, stall := Config.clockStall c.drawn, drawn := c.drawn + 1 }
    | n + 1 => { c with stall := n }

/-- At least `ms` milliseconds pass: every later reading is at least `ms` larger (R12, R233). -/
def Clock.pass (c : Clock) (ms : Nat) : Clock := { c with now := c.now + ms }

/-- `Now()` (R12): take a reading; its value is then `clock.now`. -/
def readClock (s : State) : State := { s with clock := s.clock.read }

/-! ## Events, lines, bus -/

/-- Record one event with the clock reading at which it happens (R12, R13). -/
def record (k : EventKind) (s : State) : State :=
  { s with clock := s.clock.read, trace := s.trace ++ [{ time := s.clock.read.now, kind := k }] }

/-- Latch a level on a line (R25). -/
def setLine (l : Line) (v : Bool) (s : State) : State :=
  match l with
  | .rst => { s with rst := v }
  | .dc => { s with dc := v }
  | .cs => { s with cs := v }

/-- DRIVE_LINE, `Line(l) <- v` (R104): latch the level and record the event, at an unchanged level too. -/
def driveLine (l : Line) (v : Bool) (s : State) : State := record (.line l v) (setLine l v s)

/-- `BusWrite(s)` (R102): one blocking write, always successful; the time it takes shows in the next reading. -/
def busWrite (bs : List Byte) (s : State) : State := record (.write bs) s

/-- SEND_COMMAND (R100). -/
def sendCommand (bs : List Byte) (s : State) : State :=
  driveLine .cs true (busWrite bs (driveLine .dc false (driveLine .cs false s)))

/-- SEND_DATA (R101). -/
def sendData (bs : List Byte) (s : State) : State :=
  driveLine .cs true (busWrite bs (driveLine .dc true (driveLine .cs false s)))

/-- The next BUSY sample (R105): the scripted one, or a free draw. -/
def BusyInput.sample (b : BusyInput) : Bool :=
  match b.script with
  | v :: _ => v
  | [] => Config.busySample b.drawn

/-- The BUSY input after one sample. -/
def BusyInput.next (b : BusyInput) : BusyInput :=
  match b.script with
  | _ :: vs => { b with script := vs }
  | [] => { b with drawn := b.drawn + 1 }

/-- SAMPLE_BUSY (R105): the state after the sample `s.busy.sample` has been taken and recorded. -/
def sampleBusy (s : State) : State :=
  record (.busy s.busy.sample) { s with busy := s.busy.next }

/-- `Delay(ms)` (R12): record the event, then let at least `ms` milliseconds pass. -/
def delay (ms : Nat) (s : State) : State :=
  { record (.delay ms) s with clock := (record (.delay ms) s).clock.pass ms }

/-- The bits one byte puts on the wire, the first one first, under a serial mode (R102). -/
def wireBits (m : Config.SpiMode) (v : Byte) : List Bool :=
  if m.msbFirst then (List.range 8).map fun i => v.getLsbD (7 - i)
  else (List.range 8).map fun i => v.getLsbD i

/-! ## Completion and faults -/

/-- A request completes: `RCODE <- rc; RESULT <- res` (R29, R30). -/
def complete (rc : BitVec 4) (res : Nat) (s : State) : State :=
  { s with
    rcode := rc, result := res,
    completed := s.completed ++ [{ request := s.req, rcode := rc, result := res }] }

/-- A sequence ends and its request completes: `RCODE`, `RESULT`, `SEQ <- 0` (R130, R131, R134). -/
def endSequence (rc : BitVec 4) (res : Nat) (s : State) : State := complete rc res { s with seq := false }

/-- Taking a fault, `raise Fault(code)` (R227): `FAULT <- code; SEQ <- 0`, nothing else. There is no return from it: only
construction clears `FAULT` (R31, R228). -/
def raiseFault (f : FaultCode) (s : State) : State := { s with fault := f.code, seq := false }

/-! ## The sequencer -/

/-- `START(entry)` (R121). -/
def start (entry : BitVec 8) (s : State) : State :=
  { s with seq := true, upc := entry, clock := s.clock.read, t0 := s.clock.read.now }

/-- `Advance()` (R122): `UPC <- UPC + 1; T0 <- Now()`. -/
def advance (s : State) : State :=
  { s with upc := s.upc + 1#8, clock := s.clock.read, t0 := s.clock.read.now }

/-- The dispatcher takes the next request off the port and latches it (R28, R79(4)). -/
def accept (r : RawRequest) (rest : List RawRequest) (s : State) : State :=
  { s with port := rest, req := some (ReqLatch.ofRaw r) }

/-- One sample of the init poll, `U_POLL_READY_TO t` (R130). -/
def initPoll (t : Nat) (s : State) : State :=
  if s.busy.sample then advance (sampleBusy s)
  else if timedOut t (readClock (sampleBusy s)) then
    endSequence rcodeInitTimeout 0
      { readClock (sampleBusy s) with panelState := PanelState.uninitialized.code }
  else readClock (sampleBusy s)

/-- One sample of a refresh poll that awaits the level `want`, with timeout `t` or none (R131, R132, R150). -/
def refreshPoll (t : Option Nat) (want : Bool) (s : State) : State :=
  if s.busy.sample = want then advance (sampleBusy s)
  else
    match t with
    | none => sampleBusy s
    | some ms =>
      if timedOut ms (readClock (sampleBusy s)) then
        endSequence rcodeRefreshTimeout 0 (readClock (sampleBusy s))
      else readClock (sampleBusy s)

/-! ## Pixels -/

/-- Where a piece of a drawing request ends: the request goes on, or a fault has been taken and ends it (R226, R227). -/
inductive Flow
  | going (s : State)
  | faulted (s : State)
  deriving DecidableEq, Repr

/-- The next piece runs only if no fault has been taken. -/
def Flow.andThen (f : Flow) (k : State → Flow) : Flow :=
  match f with
  | .going s => k s
  | .faulted s => .faulted s

/-- The end of a drawing request: it completes with `RCODE = 0`, `RESULT = 0` unless it faulted. -/
def Flow.finish : Flow → State
  | .going s => complete rcodeOk 0 s
  | .faulted s => s

/-- `NibbleWrite(i, s, c)` (R54). -/
def nibbleWrite (i : Nat) (sd : Side) (c : Nibble) (s : State) : State :=
  { s with fb := fbWrite s.fb i (mergeNibble (fbRead s.fb i) sd c) }

/-- `PutPixel(x, y, c)` (R177): the colour check comes before the bounds check. -/
def putPixel (x y : Int) (c : Nibble) (s : State) : Flow :=
  if colorReserved c then .faulted (raiseFault .reservedColor s)
  else if inBounds s.rotation x y then
    .going (nibbleWrite (pixelIndex s.rotation x y) (pixelSide s.rotation x y) c s)
  else .going s

/-- `for i in 0 .. n-1: body(i)` in ascending order, stopping at a fault. -/
def forUp (n : Nat) (body : Nat → State → Flow) (s : State) : Flow :=
  match n with
  | 0 => .going s
  | m + 1 => (forUp m body s).andThen (body m)

/-- The run of R200. A length `<= 0` is an empty loop (D24). -/
def drawHLine (x y w : Int) (c : Nibble) (s : State) : Flow :=
  forUp w.toNat (fun i => putPixel (x + i) y c) s

/-- The run of R201. -/
def drawVLine (x y h : Int) (c : Nibble) (s : State) : Flow :=
  forUp h.toNat (fun j => putPixel x (y + j) c) s

/-- The loops of R202: rows outer, columns inner. -/
def drawRect (x y w h : Int) (c : Nibble) (s : State) : Flow :=
  forUp h.toNat (fun j => forUp w.toNat (fun i => putPixel (x + i) (y + j) c)) s

/-- The loops of R203: a set source bit draws, a clear one is skipped. -/
def drawBits (x y : Int) (data : List Byte) (w h : Int) (c : Nibble) (s : State) : Flow :=
  forUp h.toNat
    (fun j => forUp w.toNat (fun i t =>
      if bitmapBit data (bitmapStride w.toNat) j i then putPixel (x + i) (y + j) c t else .going t)) s

/-- R203 whole: the empty-size check, then the length check, then the loops (R230). -/
def drawBitmap (x y : Int) (data : List Byte) (w h : Int) (c : Nibble) (s : State) : Flow :=
  if w ≤ 0 ∨ h ≤ 0 then .going s
  else if data.length < bitmapStride w.toNat * h.toNat then .faulted (raiseFault .bitmapShort s)
  else drawBits x y data w h c s

end Sys2Proof.Machine
end

