-- ==== Sys2Proof/Machine/Drawing.lean ====
section
/-! DEFINITION. The drawing requests (spec/42_framebuffer_transform.md R177, R178; spec/43_raster_primitives.md R200 to R203). None is
gated by the panel state and none records a bus event (41 R148). -/

namespace Sys2Proof.Machine

/-- WRITE_PIXEL (R177). -/
def execWritePixel (x y : Int) (c : Nibble) (s : State) : Host.Outcome State Fault Refusal :=
  .next (putPixel x y c s).finish

/-- WRITE_FAST_HLINE (R200). -/
def execWriteFastHLine (x y w : Int) (c : Nibble) (s : State) : Host.Outcome State Fault Refusal :=
  .next (drawHLine x y w c s).finish

/-- WRITE_FAST_VLINE (R201). -/
def execWriteFastVLine (x y h : Int) (c : Nibble) (s : State) : Host.Outcome State Fault Refusal :=
  .next (drawVLine x y h c s).finish

/-- WRITE_FILL_RECT (R202). -/
def execWriteFillRect (x y w h : Int) (c : Nibble) (s : State) : Host.Outcome State Fault Refusal :=
  .next (drawRect x y w h c s).finish

/-- DRAW_BITMAP (R203). -/
def execDrawBitmap (x y : Int) (data : List Byte) (w h : Int) (c : Nibble) (s : State) :
    Host.Outcome State Fault Refusal :=
  .next (drawBitmap x y data w h c s).finish

/-- CLEAR_DISPLAY (R178): `FillAll(BG_BYTE)`. -/
def execClearDisplay (s : State) : Host.Outcome State Fault Refusal :=
  .next (complete rcodeOk 0 { s with fb := fbFill Config.bgByte })

end Sys2Proof.Machine
end

