-- ==== Sys2Proof/Machine/MicroOps.lean ====
section
/-! DEFINITION. The micro-ops (spec/41_controller_protocol.md R124 to R134). -/

namespace Sys2Proof.Machine

/-- U_PIN (R124). -/
def execUPin (l : Line) (v : Bool) (s : State) : Host.Outcome State Fault Refusal :=
  .next (advance (driveLine l v s))

/-- U_WAIT (R125). -/
def execUWait (ms : Nat) (s : State) : Host.Outcome State Fault Refusal :=
  .next (advance (delay ms s))

/-- U_CMD (R126). -/
def execUCmd (k : CmdSlot) (s : State) : Host.Outcome State Fault Refusal :=
  .next (advance (sendCommand [Config.cmdTable k] s))

/-- U_DATA (R127): an empty payload sends nothing. -/
def execUData (p : PayloadSlot) (s : State) : Host.Outcome State Fault Refusal :=
  .next (advance (if (Config.payloadTable p).length > 0 then sendData (Config.payloadTable p) s else s))

/-- U_DATA_FB (R128): FbLengthMismatch if the framebuffer's length is not `N` (R65). -/
def execUDataFb (s : State) : Host.Outcome State Fault Refusal :=
  .next
    (if s.fbLen = Config.fbBytes then advance (sendData (fbStream s.fb) s)
    else raiseFault .fbLengthMismatch s)

/-- U_DATA_BG (R129). -/
def execUDataBg (s : State) : Host.Outcome State Fault Refusal :=
  .next (advance (sendData (List.replicate Config.fbBytes Config.bgByte) s))

/-- U_POLL_READY_TO (R130): one step is one sample. -/
def execUPollReadyTo (ms : Nat) (s : State) : Host.Outcome State Fault Refusal :=
  .next (initPoll ms s)

/-- U_POLL_READY (R131). -/
def execUPollReady (s : State) : Host.Outcome State Fault Refusal :=
  .next (refreshPoll Config.refreshTimeoutMs true s)

/-- U_POLL_NOTREADY (R132). -/
def execUPollNotReady (s : State) : Host.Outcome State Fault Refusal :=
  .next (refreshPoll Config.refreshTimeoutMs false s)

/-- U_SETSTATE (R133). -/
def execUSetState (p : PanelState) (s : State) : Host.Outcome State Fault Refusal :=
  .next (advance { s with panelState := p.code })

/-- U_END (R134). A word with a reserved result code never gets here: it is an illegal micro-op (R87; log 10). -/
def execUEnd (rc : BitVec 4) (res : BitVec 8) (s : State) : Host.Outcome State Fault Refusal :=
  .next (endSequence rc res.toNat s)

end Sys2Proof.Machine
end

