-- ==== Sys2Proof/Machine/Protocol.lean ====
section
/-! DEFINITION. The protocol requests DISPLAY, CLEAN and SET_PANEL_STATE (spec/41_controller_protocol.md R140, R141, R144): each starts a
micro-program or completes at once. -/

namespace Sys2Proof.Machine

/-- `PANEL_STATE = Active`. -/
def isActive (s : State) : Bool := s.panelState == PanelState.active.code

/-- DISPLAY (R140): gated by `Active`, else a silent no-op (R223). -/
def execDisplay (s : State) : Host.Outcome State Fault Refusal :=
  .next (if isActive s then start Config.entryDisplay s else complete rcodeOk 0 s)

/-- CLEAN (R141). -/
def execClean (s : State) : Host.Outcome State Fault Refusal :=
  .next (if isActive s then start Config.entryClean s else complete rcodeOk 0 s)

/-- SET_PANEL_STATE (R144): init or wake, or deep sleep. -/
def execSetPanelState (active : Bool) (s : State) : Host.Outcome State Fault Refusal :=
  .next
    (if active then
      if isActive s then complete rcodeOk 1 s else start Config.entryInit s
    else
      if isActive s then start Config.entryDslp s else complete rcodeOk 0 s)

end Sys2Proof.Machine
end

