-- ==== Sys2Proof/Machine/Query.lean ====
section
/-! DEFINITION. The orientation requests (spec/42_framebuffer_transform.md R170 to R173) and GET_PANEL_STATE (spec/41 R145). -/

namespace Sys2Proof.Machine

/-- WIDTH (R170). -/
def execWidth (s : State) : Host.Outcome State Fault Refusal :=
  .next (complete rcodeOk (logicalWidth s.rotation) s)

/-- HEIGHT (R171). -/
def execHeight (s : State) : Host.Outcome State Fault Refusal :=
  .next (complete rcodeOk (logicalHeight s.rotation) s)

/-- SET_ROTATION (R172). -/
def execSetRotation (r : Int) (s : State) : Host.Outcome State Fault Refusal :=
  .next (complete rcodeOk 0 { s with rotation := rotationMod4 r })

/-- GET_ROTATION (R173). -/
def execGetRotation (s : State) : Host.Outcome State Fault Refusal :=
  .next (complete rcodeOk s.rotation.toNat s)

/-- GET_PANEL_STATE (R145). -/
def execGetPanelState (s : State) : Host.Outcome State Fault Refusal :=
  .next (complete rcodeOk s.panelState.toNat s)

end Sys2Proof.Machine
end

