-- ==== Sys2Proof/Machine/Dispatch.lean ====
section
/-! DEFINITION. The dispatch of an instruction to its meaning, one arm per row of spec/opcode_table.json. -/

namespace Sys2Proof.Machine

def exec (i : Instr) (s : State) : Host.Outcome State Fault Refusal :=
  match i with
  | .writePixel x y c => Sys2Proof.Machine.execWritePixel x y c s
  | .writeFastHLine x y w c => Sys2Proof.Machine.execWriteFastHLine x y w c s
  | .writeFastVLine x y h c => Sys2Proof.Machine.execWriteFastVLine x y h c s
  | .writeFillRect x y w h c => Sys2Proof.Machine.execWriteFillRect x y w h c s
  | .drawBitmap x y data w h c => Sys2Proof.Machine.execDrawBitmap x y data w h c s
  | .width => Sys2Proof.Machine.execWidth s
  | .height => Sys2Proof.Machine.execHeight s
  | .setRotation r => Sys2Proof.Machine.execSetRotation r s
  | .getRotation => Sys2Proof.Machine.execGetRotation s
  | .clearDisplay => Sys2Proof.Machine.execClearDisplay s
  | .display => Sys2Proof.Machine.execDisplay s
  | .clean => Sys2Proof.Machine.execClean s
  | .getPanelState => Sys2Proof.Machine.execGetPanelState s
  | .setPanelState active => Sys2Proof.Machine.execSetPanelState active s
  | .uPin line level => Sys2Proof.Machine.execUPin line level s
  | .uWait ms => Sys2Proof.Machine.execUWait ms s
  | .uCmd slot => Sys2Proof.Machine.execUCmd slot s
  | .uData slot => Sys2Proof.Machine.execUData slot s
  | .uDataFb => Sys2Proof.Machine.execUDataFb s
  | .uDataBg => Sys2Proof.Machine.execUDataBg s
  | .uPollReadyTo ms => Sys2Proof.Machine.execUPollReadyTo ms s
  | .uPollReady => Sys2Proof.Machine.execUPollReady s
  | .uPollNotReady => Sys2Proof.Machine.execUPollNotReady s
  | .uSetState state => Sys2Proof.Machine.execUSetState state s
  | .uEnd rcode result => Sys2Proof.Machine.execUEnd rcode result s

end Sys2Proof.Machine
end

