-- ==== Sys2Proof/Machine/Fetch.lean ====
section
/-! DEFINITION. Where the next instruction comes from: the micro-ROM at `UPC` while a micro-program runs (spec/41 R122), else the
request port (spec/30 R79); and how a word is placed there. `Step.lean` only calls these. -/

namespace Sys2Proof.Machine

/-- One micro-sequencer step (R122): the micro-op at `ROM[UPC]`; an illegal word faults (R87). -/
def sequencerStep (s : State) : Host.Outcome State Fault Refusal :=
  match decodeUop (romRead s.rom s.upc) with
  | .ok i => exec i s
  | .error _ => .next (raiseFault .illegalUop s)

/-- One dispatcher step (R79): a hold after a fault or with no request waiting; else the next request is taken off the port,
and it faults as illegal or is latched and executed. -/
def dispatcherStep (s : State) : Host.Outcome State Fault Refusal :=
  if s.fault = 0#4 then
    match s.port with
    | [] => .next s
    | r :: rest =>
      match decodeRequest r with
      | .ok i => exec i (accept r rest s)
      | .error _ => .next (raiseFault .illegalRequest { s with port := rest })
  else .next s

/-- One PDC step (R122, R79). -/
def pdcStep (s : State) : Host.Outcome State Fault Refusal :=
  if s.seq then sequencerStep s else dispatcherStep s

/-- A micro-op word of the table is selected by `UPC` and `SEQ`; a request word (attachment empty) stands first on the port of
an idle, unfaulted PDC (log 16). -/
def placeWord (s : State) (nbits w : Nat) : State :=
  if nbits ≤ 32 then
    { s with seq := true, upc := 0#8, rom := romWrite s.rom 0#8 (BitVec.ofNat 32 w) }
  else { s with seq := false, fault := 0#4, port := { word := BitVec.ofNat 96 w, data := [] } :: s.port }

end Sys2Proof.Machine
end

