-- ==== Sys2Proof/Machine/Step.lean ====
section
/-! DEFINITION. One step of the PDC, and a word placed where it fetches next. -/

namespace Sys2Proof.Machine

/-- One step (spec/41 R122, spec/30 R79). -/
def step (s : State) : Host.Outcome State Fault Refusal := pdcStep s

/-- `s` with the table's word placed where `step` fetches its next instruction (log 16). -/
def State.withFetchWord (s : State) (nbits w : Nat) : State := placeWord s nbits w

end Sys2Proof.Machine
end

