-- ==== Sys2Proof/Safety.lean ====
section
/-! DEFINITION. The terms claims are stated in: the pixels of a framebuffer, the event sequences of spec/41_controller_protocol.md and
spec/95_test_vectors.md, the invariant of a run from construction, and a run that has ended normally (spec/70 R264). -/

namespace Sys2Proof.Machine

/-! ## Pixels -/

/-- The nibble of an in-bounds logical pixel under rotation `r` (R176, R179). -/
def pixelAt (m : List Host.Cell) (r : BitVec 2) (x y : Int) : Nibble :=
  nibbleAt (fbRead m (pixelIndex r x y)) (pixelSide r x y)

/-- The state after executing `is` one after the other, if each answers a next state (R206). -/
def execAll : List Instr → State → Option State
  | [], s => some s
  | i :: is, s =>
    match exec i s with
    | .next t => execAll is t
    | .fault _ => none
    | .refused _ => none

/-! ## The panel's answers -/

/-- The next `n` BUSY samples of an input, scripted or drawn, the first one first (R105). -/
def BusyInput.samples : Nat → BusyInput → List Bool
  | 0, _ => []
  | n + 1, b => b.sample :: BusyInput.samples n b.next

/-- The BUSY input after `n` samples. -/
def BusyInput.after : Nat → BusyInput → BusyInput
  | 0, b => b
  | n + 1, b => BusyInput.after n b.next

/-! ## Event sequences -/

/-- The events of a trace without their clock readings. -/
def kinds (t : List Event) : List EventKind := t.map Event.kind

/-- A command transaction (R83, R100). -/
def commandFrame (bs : List Byte) : List EventKind :=
  [.line .cs false, .line .dc false, .write bs, .line .cs true]

/-- A data transaction (R83, R101). -/
def dataFrame (bs : List Byte) : List EventKind :=
  [.line .cs false, .line .dc true, .write bs, .line .cs true]

/-- `CMD(k)`. -/
def cmdEvents (k : CmdSlot) : List EventKind := commandFrame [Config.cmdTable k]

/-- `DAT(p)`: nothing for an empty payload (R127). -/
def datEvents (p : PayloadSlot) : List EventKind :=
  if (Config.payloadTable p).length > 0 then dataFrame (Config.payloadTable p) else []

/-- The reset pulse (R135). -/
def resetPulse : List EventKind := [.line .rst false, .delay 1, .line .rst true, .delay 1]

/-- The init register writes in order, the settle delay and the final VCOM write (R137). -/
def initWrites : List EventKind :=
  cmdEvents .psr ++ datEvents .psrData ++ cmdEvents .pwr ++ datEvents .pwrData
    ++ cmdEvents .pfs ++ datEvents .pfsData ++ cmdEvents .btst ++ datEvents .btstData
    ++ cmdEvents .pll ++ datEvents .pllData ++ cmdEvents .tse ++ datEvents .tseData
    ++ cmdEvents .cdi ++ datEvents .cdiData ++ cmdEvents .vsr ++ datEvents .vsrData
    ++ cmdEvents .tres ++ datEvents .tresData ++ cmdEvents .cal ++ datEvents .calData
    ++ [.delay 100] ++ cmdEvents .cdi ++ datEvents .vcomData

/-- The events of an INIT whose poll sees a ready panel after `n` samples that are not ready (R130, R136). -/
def initEvents (n : Nat) : List EventKind :=
  resetPulse ++ List.replicate n (.busy false) ++ [.busy true] ++ initWrites

/-- The events of a refresh that sends `image`, its three polls waiting `a`, `b` and `c` samples (R140, R142). -/
def refreshEvents (image : List Byte) (a b c : Nat) : List EventKind :=
  cmdEvents .tres ++ datEvents .tresData ++ cmdEvents .dtm ++ dataFrame image
    ++ cmdEvents .pof ++ List.replicate a (.busy false) ++ [.busy true]
    ++ cmdEvents .drf ++ List.replicate b (.busy false) ++ [.busy true]
    ++ cmdEvents .pof ++ List.replicate c (.busy true) ++ [.busy false]
    ++ [.delay 200]

/-- The events of the deep-sleep sequence (R143). -/
def sleepEvents : List EventKind :=
  cmdEvents .dslp ++ datEvents .dslpData ++ [.delay 100, .line .rst false, .line .dc false, .line .cs false]

/-- Every `WRITE` lies in a whole transaction: `LINE(CS,0)`, `LINE(DC,_)`, `WRITE`, `LINE(CS,1)` one after the other (R83, R103). -/
def framed : List EventKind → Bool
  | [] => true
  | .line .cs false :: .line .dc _ :: .write _ :: .line .cs true :: rest => framed rest
  | .write _ :: _ => false
  | _ :: rest => framed rest

/-! ## The invariant of a run from construction -/

/-- `UPC` stands in a refresh program, DISPLAY or CLEAN (R123). -/
abbrev inRefresh (a : Nat) : Prop := (0x20 ≤ a ∧ a ≤ 0x2B) ∨ (0x30 ≤ a ∧ a ≤ 0x3B)

/-- Which panel state the running micro-op can be met in (R120, R121, R138, R143): INIT outside `Active` until its last
micro-op, the refresh programs in `Active`, DSLP in `Active` until its last micro-op. -/
abbrev sequencerOk (upc panel : Nat) : Prop :=
  (upc ≤ 0x1C ∧ panel ≠ 1) ∨ (upc = 0x1D ∧ panel = 1) ∨ (inRefresh upc ∧ panel = 1)
    ∨ (0x40 ≤ upc ∧ upc ≤ 0x46 ∧ panel = 1) ∨ (upc = 0x47 ∧ panel = 2)

/-- The lines while a micro-program runs (R135, R143, R103): RST through the reset pulse, CS deasserted between transactions,
RST, DC, CS going low in that order in DSLP. -/
abbrev runningLinesOk (upc : Nat) (rst dc cs : Bool) : Prop :=
  ((upc = 1 ∨ upc = 2) → rst = false) ∧
  ((3 ≤ upc ∧ upc ≤ 0x1D) → rst = true) ∧
  ((6 ≤ upc ∧ upc ≤ 0x1D) → cs = true) ∧
  (inRefresh upc → rst = true ∧ cs = true) ∧
  ((0x40 ≤ upc ∧ upc ≤ 0x43) → rst = true ∧ cs = true) ∧
  (upc = 0x44 → rst = false ∧ cs = true) ∧
  (upc = 0x45 → rst = false ∧ dc = false ∧ cs = true) ∧
  ((upc = 0x46 ∨ upc = 0x47) → rst = false ∧ dc = false ∧ cs = false)

/-- The lines while idle (R260, R221): out of reset and CS deasserted in `Active`, all low in `Sleeping`, out of reset in
`Uninitialized` (CS may still be low there, after a wake that timed out). -/
abbrev idleLinesOk (panel : Nat) (rst dc cs : Bool) : Prop :=
  (panel = 0 → rst = true) ∧
  (panel = 1 → rst = true ∧ cs = true) ∧
  (panel = 2 → rst = false ∧ dc = false ∧ cs = false)

/-- `RCODE` and `RESULT` are those of the last completed request, and 0 before the first (R29, R30). -/
def lastResultOk (s : State) : Prop :=
  match s.completed.getLast? with
  | none => s.rcode = 0#4 ∧ s.result = 0
  | some c => s.rcode = c.rcode ∧ s.result = c.result

/-- What holds at construction and after every step. -/
structure State.Inv (s : State) : Prop where
  /-- The framebuffer memory keeps its canonical form. -/
  fbWf : Memory.wf s.fb = true
  /-- R22, R65. -/
  fbLen : s.fbLen = 134400
  /-- R63, R123. -/
  rom : s.rom = microRom
  /-- R24: code 3 is never held. -/
  panel : s.panelState.toNat ≤ 2
  /-- R29: 3..15 are never written. -/
  rcode : s.rcode.toNat ≤ 2
  /-- R30. -/
  result : s.result ≤ 65535
  /-- R226: F4 and F5 are unreachable, 6..15 are never written. -/
  fault : s.fault.toNat ≤ 3
  /-- R227: a fault stops a running sequence. -/
  idleAfterFault : s.fault ≠ 0#4 → s.seq = false
  sequencer : s.seq = true → sequencerOk s.upc.toNat s.panelState.toNat
  runningLines : s.seq = true → runningLinesOk s.upc.toNat s.rst s.dc s.cs
  idleLines : s.seq = false → idleLinesOk s.panelState.toNat s.rst s.dc s.cs
  /-- R83, R103. -/
  framing : framed (kinds s.trace) = true
  /-- R62, R233: events are recorded in the order of time. -/
  ordered : s.trace.Pairwise fun e e' => e.time ≤ e'.time
  past : ∀ e ∈ s.trace, e.time ≤ s.clock.now
  /-- R27: `T0` is a reading already taken. -/
  latched : s.seq = true → s.t0 ≤ s.clock.now
  lastResult : lastResultOk s

/-! ## The end of a run -/

/-- A run has ended normally: the port is idle, no fault, and the host issues no further request (R264). -/
def endedNormally (s : State) : Bool := !s.seq && s.fault == 0#4 && s.port.isEmpty

end Sys2Proof.Machine
end

