-- ==== Sys2Proof/Certificates/Slice0/Obligations.lean ====
section
/-! DEFINITION. The statements about the model, from the numbered rules of spec/. A docstring names the rule; where a statement rests
on a choice of the model, it names the log entry. -/

open Sys2Proof Sys2Proof.Machine

/-! ## Encoding -/

/-- R76, R87 (30_encoding.md): no bit of an encoding is dropped. The spec marks as its own: decisions D2, D39. -/
def Obligations.DecodeOfEncode : Prop :=
  ∀ i : Instr, i.wf = true → decode (encode i) = .ok i

/-- R78: every word and attachment names exactly one request with its operands or is illegal; R87 for micro-op words.
The spec marks as its own: decisions D32, D39. -/
def Obligations.EncodeOfDecode : Prop :=
  ∀ (e : Encoded) (i : Instr), decode e = .ok i → i.wf = true ∧ encode i = e

/-- R92: the seven words of the table. The spec marks as its own: inferences in R92. -/
def Obligations.SpecWordsDecode : Prop :=
  decodeRequest ⟨0x014000000000000000000000#96, []⟩ = .ok (.writePixel 0 0 Color.red.code) ∧
  decodeRequest ⟨0x0130FFFF0005000000000000#96, []⟩ = .ok (.writePixel (-1) 5 Color.blue.code) ∧
  decodeRequest ⟨0x0450000A0014001E00280000#96, []⟩ = .ok (.writeFillRect 10 20 30 40 Color.yellow.code) ∧
  decodeRequest ⟨0x120000050000000000000000#96, []⟩ = .ok (.setRotation 5) ∧
  decodeRequest ⟨0x330100000000000000000000#96, []⟩ = .ok (.setPanelState true) ∧
  decodeRequest ⟨0x300000000000000000000000#96, []⟩ = .ok .display ∧
  decodeRequest ⟨0x050000000000000800010000#96, [0xB0#8]⟩ =
    .ok (.drawBitmap 0 0 [0xB0#8] 8 1 Color.black.code)

/-- R70, R71, R76: the requests with operands, by the arithmetic of the field positions, every field at every value. The
spec marks as its own: decisions D2, D23. -/
def Obligations.OperandFieldsDecode : Prop :=
  ∀ (a b c d : BitVec 16) (k : Nibble) (on : Bool) (data : List Byte),
    decodeRequest ⟨BitVec.ofNat 96
        (0x01 * 2 ^ 88 + k.toNat * 2 ^ 84 + a.toNat * 2 ^ 64 + b.toNat * 2 ^ 48), []⟩
      = .ok (.writePixel a.toInt b.toInt k) ∧
    decodeRequest ⟨BitVec.ofNat 96
        (0x02 * 2 ^ 88 + k.toNat * 2 ^ 84 + a.toNat * 2 ^ 64 + b.toNat * 2 ^ 48 + c.toNat * 2 ^ 32), []⟩
      = .ok (.writeFastHLine a.toInt b.toInt c.toInt k) ∧
    decodeRequest ⟨BitVec.ofNat 96
        (0x03 * 2 ^ 88 + k.toNat * 2 ^ 84 + a.toNat * 2 ^ 64 + b.toNat * 2 ^ 48 + c.toNat * 2 ^ 32), []⟩
      = .ok (.writeFastVLine a.toInt b.toInt c.toInt k) ∧
    decodeRequest ⟨BitVec.ofNat 96
        (0x04 * 2 ^ 88 + k.toNat * 2 ^ 84 + a.toNat * 2 ^ 64 + b.toNat * 2 ^ 48 + c.toNat * 2 ^ 32
          + d.toNat * 2 ^ 16), []⟩
      = .ok (.writeFillRect a.toInt b.toInt c.toInt d.toInt k) ∧
    decodeRequest ⟨BitVec.ofNat 96
        (0x05 * 2 ^ 88 + k.toNat * 2 ^ 84 + a.toNat * 2 ^ 64 + b.toNat * 2 ^ 48 + c.toNat * 2 ^ 32
          + d.toNat * 2 ^ 16), data⟩
      = .ok (.drawBitmap a.toInt b.toInt data c.toInt d.toInt k) ∧
    decodeRequest ⟨BitVec.ofNat 96 (0x12 * 2 ^ 88 + a.toNat * 2 ^ 64), []⟩ = .ok (.setRotation a.toInt) ∧
    decodeRequest ⟨BitVec.ofNat 96 (0x33 * 2 ^ 88 + on.toNat * 2 ^ 80), []⟩ = .ok (.setPanelState on)

/-- R77: the listed opcode values are reserved, and a word with one raises IllegalRequest at acceptance. The request
leaves the port (log 7). The spec marks as its own: decisions D2, D32. -/
def Obligations.ReservedOpcodeFaults : Prop :=
  ∀ (s : State) (r : RawRequest) (rest : List RawRequest) (op : Nat),
    s.seq = false → s.fault = 0#4 → s.port = r :: rest → op = r.word.toNat / 2 ^ 88 →
    (op = 0x00 ∨ (0x06 ≤ op ∧ op ≤ 0x0F) ∨ (0x14 ≤ op ∧ op ≤ 0x1F) ∨ (0x21 ≤ op ∧ op ≤ 0x2F) ∨ 0x34 ≤ op) →
    step s = .next { s with port := rest, fault := 1#4 }

/-- R78: a word whose unused parts are not zero raises IllegalRequest at acceptance. For each opcode of R76 `mask` has a
one where the table's row fixes the bit, and a non-empty attachment is unused but for DRAW_BITMAP. The spec marks as its
own: decisions D2, D32. -/
def Obligations.UnusedPartFaults : Prop :=
  ∀ (s : State) (r : RawRequest) (rest : List RawRequest) (op : Nat) (mask : RequestWord),
    s.seq = false → s.fault = 0#4 → s.port = r :: rest → op = r.word.toNat / 2 ^ 88 →
    (op = 0x01 ∧ mask = 0x000F00000000FFFFFFFFFFFF#96 ∨
     (op = 0x02 ∨ op = 0x03) ∧ mask = 0x000F000000000000FFFFFFFF#96 ∨
     (op = 0x04 ∨ op = 0x05) ∧ mask = 0x000F0000000000000000FFFF#96 ∨
     (op = 0x10 ∨ op = 0x11 ∨ op = 0x13 ∨ op = 0x20 ∨ op = 0x30 ∨ op = 0x31 ∨ op = 0x32) ∧
       mask = 0x00FFFFFFFFFFFFFFFFFFFFFF#96 ∨
     op = 0x12 ∧ mask = 0x00FF0000FFFFFFFFFFFFFFFF#96 ∨
     op = 0x33 ∧ mask = 0x00FEFFFFFFFFFFFFFFFFFFFF#96) →
    (r.word &&& mask ≠ 0#96 ∨ (op ≠ 0x05 ∧ r.data ≠ [])) →
    step s = .next { s with port := rest, fault := 1#4 }

/-- R87: an illegal micro-op word at `ROM[UPC]` raises IllegalUop: a reserved opcode, an argument bit set where the map says
zero (`mask` has a one there), a reserved line, slot or panel state. That a reserved result code (R29, R220) is a reserved
argument of `U_END` is the model's reading, log 10. The spec marks as its own: decisions D30, D39. -/
def Obligations.IllegalUopFaults : Prop :=
  ∀ (s : State) (u : UopWord) (op : Nat) (mask : UopWord),
    s.seq = true → u = romRead s.rom s.upc → op = u.toNat / 2 ^ 24 →
    (op = 0x01 ∧ mask = 0x00FFFCFE#32 ∨
     (op = 0x03 ∨ op = 0x04) ∧ mask = 0x00FFFF00#32 ∨
     (op = 0x05 ∨ op = 0x06 ∨ op = 0x08 ∨ op = 0x09) ∧ mask = 0x00FFFFFF#32 ∨
     op = 0x0A ∧ mask = 0x00FFFFFC#32 ∨
     op = 0x0B ∧ mask = 0x00FF00F0#32 ∨
     (op = 0x00 ∨ op = 0x02 ∨ op = 0x07 ∨ 0x0C ≤ op) ∧ mask = 0#32) →
    (op = 0x00 ∨ 0x0C ≤ op ∨ u &&& mask ≠ 0#32 ∨
     (op = 0x01 ∧ u.toNat / 2 ^ 8 % 4 = 3) ∨
     (op = 0x03 ∧ 13 < u.toNat % 2 ^ 8) ∨
     (op = 0x04 ∧ 11 < u.toNat % 2 ^ 8) ∨
     (op = 0x0A ∧ u.toNat % 4 = 3) ∨
     (op = 0x0B ∧ 3 ≤ u.toNat % 16)) →
    step s = .next { s with fault := 5#4, seq := false }

/-! ## The step -/

/-- R79(4), R28: a legal request at an idle, unfaulted port is latched and executed. The spec marks as its own:
decisions D1, D32. -/
def Obligations.StepRunsAcceptedRequest : Prop :=
  ∀ (s : State) (r : RawRequest) (rest : List RawRequest) (i : Instr),
    s.seq = false → s.fault = 0#4 → s.port = r :: rest → decodeRequest r = .ok i →
    step s = exec i
      { s with
        port := rest
        req := some
          { opcode := r.word.extractLsb' 88 8
            opA := (r.word.extractLsb' 64 16).toInt
            opB := (r.word.extractLsb' 48 16).toInt
            opC := (r.word.extractLsb' 32 16).toInt
            opD := (r.word.extractLsb' 16 16).toInt
            opCOLOR := r.word.extractLsb' 84 4
            opACTIVE := r.word.getLsbD 80
            opDATA := r.data } }

/-- R122: while `SEQ = 1` each step executes the micro-op at `ROM[UPC]`. The spec marks as its own: decisions D39. -/
def Obligations.StepRunsMicroOp : Prop :=
  ∀ (s : State) (i : Instr), s.seq = true → decodeUop (romRead s.rom s.upc) = .ok i → step s = exec i s

/-- R122, R79, R227: every step answers a next state. Two choices of the model make it so: the faults F1 to F5 are next
states and no stop (log 14, DEDUCED from R227), and an idle or held PDC answers the same state (log 8, DESIGN CHOICE). -/
def Obligations.StepAlwaysAnswersNext : Prop := ∀ s : State, ∃ t, step s = .next t

/-- R31, R227: after a fault the port accepts nothing, for any number of steps. That such a step leaves the whole state as
it is, the clock and the waiting requests too, is the model's stutter (log 8, DESIGN CHOICE). The spec marks as its own:
decisions D37. -/
def Obligations.FaultHoldsPort : Prop :=
  ∀ (k : Nat) (s : State), s.seq = false → s.fault ≠ 0#4 → Host.Core.run Sys2Proof.core k s = .next s

/-- R33(a), R58, R256: while a micro-program runs no request is accepted, and no framebuffer byte, rotation or request
operand changes. The spec marks as its own: decisions D1. -/
def Obligations.SequenceHoldsPort : Prop :=
  ∀ s t : State, s.seq = true → step s = .next t →
    t.port = s.port ∧ t.req = s.req ∧ t.fb = s.fb ∧ t.fbLen = s.fbLen ∧ t.rotation = s.rotation

/-! ## Queries -/

/-- R170 whole: encoding, result, state written, examples. -/
def Obligations.WidthReturnsLogicalWidth : Prop :=
  decodeRequest ⟨0x100000000000000000000000#96, []⟩ = .ok .width ∧
  (∀ s : State, s.rotation.toNat % 2 = 0 → exec .width s = .next
    { s with rcode := 0#4, result := 600, completed := s.completed ++ [⟨s.req, 0#4, 600⟩] }) ∧
  (∀ s : State, s.rotation.toNat % 2 = 1 → exec .width s = .next
    { s with rcode := 0#4, result := 448, completed := s.completed ++ [⟨s.req, 0#4, 448⟩] })

/-- R171 whole. -/
def Obligations.HeightReturnsLogicalHeight : Prop :=
  decodeRequest ⟨0x110000000000000000000000#96, []⟩ = .ok .height ∧
  (∀ s : State, s.rotation.toNat % 2 = 0 → exec .height s = .next
    { s with rcode := 0#4, result := 448, completed := s.completed ++ [⟨s.req, 0#4, 448⟩] }) ∧
  (∀ s : State, s.rotation.toNat % 2 = 1 → exec .height s = .next
    { s with rcode := 0#4, result := 600, completed := s.completed ++ [⟨s.req, 0#4, 600⟩] })

/-- R172: the Euclidean remainder, for every integer operand. The spec marks as its own: decisions D7. -/
def Obligations.SetRotationReducesModFour : Prop :=
  ∀ (r : Int) (s : State), ∃ v : BitVec 2, (v.toNat : Int) = r % 4 ∧
    exec (.setRotation r) s = .next
      { s with rotation := v, rcode := 0#4, result := 0, completed := s.completed ++ [⟨s.req, 0#4, 0⟩] }

/-- R181: periodicity, for every integer multiple of four; width, height and mapping follow the stored value alone. The
spec marks as its own: inferences in R181. -/
def Obligations.SetRotationPeriodic : Prop :=
  ∀ (r k : Int) (s : State), exec (.setRotation (r + 4 * k)) s = exec (.setRotation r) s

/-- R173 whole: encoding, result, state written, the value after construction. -/
def Obligations.GetRotationReturnsRotation : Prop :=
  decodeRequest ⟨0x130000000000000000000000#96, []⟩ = .ok .getRotation ∧
  (∀ s : State, exec .getRotation s = .next
    { s with rcode := 0#4, result := s.rotation.toNat, completed := s.completed ++ [⟨s.req, 0#4, s.rotation.toNat⟩] }
    ∧ s.rotation.toNat ≤ 3) ∧
  State.reset.rotation = 0#2

/-- R145: the code of the panel state, in every state. The spec marks as its own: decisions D21. -/
def Obligations.GetPanelStateReturnsCode : Prop :=
  decodeRequest ⟨0x320000000000000000000000#96, []⟩ = .ok .getPanelState ∧
  ∀ s : State, exec .getPanelState s = .next
    { s with rcode := 0#4, result := s.panelState.toNat,
             completed := s.completed ++ [⟨s.req, 0#4, s.panelState.toNat⟩] }

/-! ## The transform and the pixel write -/

/-- R174, R175: the four maps and the logical bounds, as the table has them. The spec marks as its own: decisions D6;
inferences in R175. -/
def Obligations.TransformTable : Prop :=
  ∀ x y : Int,
    phys 0#2 x y = (599 - x, 447 - y) ∧ phys 1#2 x y = (y, 447 - x) ∧
    phys 2#2 x y = (x, y) ∧ phys 3#2 x y = (599 - y, x) ∧
    (∀ r : BitVec 2, r = 0#2 ∨ r = 2#2 →
      (inBounds r x y = true ↔ 0 ≤ x ∧ x < 600 ∧ 0 ≤ y ∧ y < 448)) ∧
    (∀ r : BitVec 2, r = 1#2 ∨ r = 3#2 →
      (inBounds r x y = true ↔ 0 ≤ x ∧ x < 448 ∧ 0 ≤ y ∧ y < 600))

/-- R175, R176: for each rotation the map is a bijection from the logical rectangle onto the panel. The spec marks as
its own: inferences in R175, R176. -/
def Obligations.TransformBijective : Prop :=
  ∀ r : BitVec 2,
    (∀ x y : Int, inBounds r x y = true →
      0 ≤ (phys r x y).1 ∧ (phys r x y).1 < 600 ∧ 0 ≤ (phys r x y).2 ∧ (phys r x y).2 < 448) ∧
    (∀ px py : Int, 0 ≤ px → px < 600 → 0 ≤ py → py < 448 →
      ∃ x y, (inBounds r x y = true ∧ phys r x y = (px, py)) ∧
        ∀ u v, inBounds r u v = true → phys r u v = (px, py) → u = x ∧ v = y)

/-- R51, R176: every nibble of the framebuffer belongs to exactly one logical pixel. The spec marks as its own:
inferences in R51, R176. -/
def Obligations.NibbleOwnedByOnePixel : Prop :=
  ∀ (r : BitVec 2) (i : Nat) (sd : Side),
    (i < 134400 → ∃ x y, (inBounds r x y = true ∧ pixelIndex r x y = i ∧ pixelSide r x y = sd) ∧
      ∀ u v, inBounds r u v = true → pixelIndex r u v = i → pixelSide r u v = sd → u = x ∧ v = y) ∧
    (∀ x y, inBounds r x y = true → pixelIndex r x y < 134400)

/-- R54: the selected nibble becomes the colour, the other one and every other byte keep their value, on every canonical
framebuffer. -/
def Obligations.NibbleWriteKeepsOtherNibble : Prop :=
  ∀ (s : State) (i : Nat) (c : Nibble), Memory.wf s.fb = true → i < 134400 →
    fbRead (nibbleWrite i .high c s).fb i = (fbRead s.fb i &&& 0x0F#8) ||| (c.zeroExtend 8 <<< 4) ∧
    fbRead (nibbleWrite i .low c s).fb i = (fbRead s.fb i &&& 0xF0#8) ||| c.zeroExtend 8 ∧
    nibbleAt (fbRead (nibbleWrite i .high c s).fb i) .high = c ∧
    nibbleAt (fbRead (nibbleWrite i .high c s).fb i) .low = nibbleAt (fbRead s.fb i) .low ∧
    nibbleAt (fbRead (nibbleWrite i .low c s).fb i) .low = c ∧
    nibbleAt (fbRead (nibbleWrite i .low c s).fb i) .high = nibbleAt (fbRead s.fb i) .high ∧
    (∀ sd j, j ≠ i → fbRead (nibbleWrite i sd c s).fb j = fbRead s.fb j) ∧
    (∀ sd, nibbleWrite i sd c s = { s with fb := (nibbleWrite i sd c s).fb })

/-- R177, R179: an in-bounds write of a legal colour at every rotation: the derived nibble, the untouched nibble, every
other byte, and everything else. The spec marks as its own: decisions D8; inferences in R179. -/
def Obligations.WritePixelRoundTrip : Prop :=
  ∀ (s : State) (x y : Int) (c : Nibble),
    Memory.wf s.fb = true → inBounds s.rotation x y = true → c.toNat ≤ 6 →
    ∃ m, exec (.writePixel x y c) s = .next
        { s with fb := m, rcode := 0#4, result := 0, completed := s.completed ++ [⟨s.req, 0#4, 0⟩] } ∧
      Memory.wf m = true ∧
      nibbleAt (fbRead m (pixelIndex s.rotation x y)) (pixelSide s.rotation x y) = c ∧
      (∀ sd, sd ≠ pixelSide s.rotation x y →
        nibbleAt (fbRead m (pixelIndex s.rotation x y)) sd =
          nibbleAt (fbRead s.fb (pixelIndex s.rotation x y)) sd) ∧
      ∀ i, i ≠ pixelIndex s.rotation x y → fbRead m i = fbRead s.fb i

/-- R180, R222: an out-of-bounds write of a legal colour completes and changes nothing. The spec marks as its own:
inferences in R180. -/
def Obligations.WritePixelOutOfBoundsDropped : Prop :=
  ∀ (s : State) (x y : Int) (c : Nibble), inBounds s.rotation x y = false → c.toNat ≤ 6 →
    exec (.writePixel x y c) s = .next
      { s with rcode := 0#4, result := 0, completed := s.completed ++ [⟨s.req, 0#4, 0⟩] }

/-- R178: every byte becomes the background byte 0x11 (value of R7) and every pixel WHITE, whatever the panel state and the
rotation, and nothing else but the result changes. -/
def Obligations.ClearDisplayFillsBackground : Prop :=
  decodeRequest ⟨0x200000000000000000000000#96, []⟩ = .ok .clearDisplay ∧
  ∀ s : State, ∃ m, exec .clearDisplay s = .next
      { s with fb := m, rcode := 0#4, result := 0, completed := s.completed ++ [⟨s.req, 0#4, 0⟩] } ∧
    Memory.wf m = true ∧ (∀ i, i < 134400 → fbRead m i = 0x11#8) ∧ (∀ i, 134400 ≤ i → fbRead m i = fbRead [] i) ∧
    ∀ x y, inBounds s.rotation x y = true → pixelAt m s.rotation x y = Color.white.code

/-! ## The primitives -/

/-- R200: the in-bounds pixels of the run take the colour, every other pixel and byte is unchanged; an empty run draws
nothing. The spec marks as its own: decisions D24. -/
def Obligations.HLinePaintsRun : Prop :=
  ∀ (s : State) (x y w : Int) (c : Nibble), Memory.wf s.fb = true → c.toNat ≤ 6 →
    ∃ m, exec (.writeFastHLine x y w c) s = .next
        { s with fb := m, rcode := 0#4, result := 0, completed := s.completed ++ [⟨s.req, 0#4, 0⟩] } ∧
      Memory.wf m = true ∧
      (∀ u v, inBounds s.rotation u v = true →
        pixelAt m s.rotation u v =
          if v = y ∧ x ≤ u ∧ u < x + w then c else pixelAt s.fb s.rotation u v) ∧
      ∀ i, (∀ u v, inBounds s.rotation u v = true → (v = y ∧ x ≤ u ∧ u < x + w) →
        pixelIndex s.rotation u v ≠ i) → fbRead m i = fbRead s.fb i

/-- R201. The spec marks as its own: decisions D24. -/
def Obligations.VLinePaintsRun : Prop :=
  ∀ (s : State) (x y h : Int) (c : Nibble), Memory.wf s.fb = true → c.toNat ≤ 6 →
    ∃ m, exec (.writeFastVLine x y h c) s = .next
        { s with fb := m, rcode := 0#4, result := 0, completed := s.completed ++ [⟨s.req, 0#4, 0⟩] } ∧
      Memory.wf m = true ∧
      (∀ u v, inBounds s.rotation u v = true →
        pixelAt m s.rotation u v =
          if u = x ∧ y ≤ v ∧ v < y + h then c else pixelAt s.fb s.rotation u v) ∧
      ∀ i, (∀ u v, inBounds s.rotation u v = true → (u = x ∧ y ≤ v ∧ v < y + h) →
        pixelIndex s.rotation u v ≠ i) → fbRead m i = fbRead s.fb i

/-- R202. The spec marks as its own: decisions D24. -/
def Obligations.FillRectPaintsRectangle : Prop :=
  ∀ (s : State) (x y w h : Int) (c : Nibble), Memory.wf s.fb = true → c.toNat ≤ 6 →
    ∃ m, exec (.writeFillRect x y w h c) s = .next
        { s with fb := m, rcode := 0#4, result := 0, completed := s.completed ++ [⟨s.req, 0#4, 0⟩] } ∧
      Memory.wf m = true ∧
      (∀ u v, inBounds s.rotation u v = true →
        pixelAt m s.rotation u v =
          if (x ≤ u ∧ u < x + w) ∧ (y ≤ v ∧ v < y + h) then c else pixelAt s.fb s.rotation u v) ∧
      ∀ i, (∀ u v, inBounds s.rotation u v = true → ((x ≤ u ∧ u < x + w) ∧ (y ≤ v ∧ v < y + h)) →
        pixelIndex s.rotation u v ≠ i) → fbRead m i = fbRead s.fb i

/-- R203, R204: with enough bytes, the in-bounds pixels whose source bit is 1 take the colour; pixel `i` of row `j` is
bit `7 - i mod 8` of byte `j * ceil(w/8) + i div 8`. Bytes beyond the image and padding bits do not matter. The spec
marks as its own: decisions D25; inferences in R204. -/
def Obligations.BitmapPaintsSetBits : Prop :=
  ∀ (s : State) (x y w h : Int) (data : List Byte) (c : Nibble), Memory.wf s.fb = true → c.toNat ≤ 6 →
    (0 < w → 0 < h → ((w.toNat + 7) / 8) * h.toNat ≤ data.length) →
    ∃ m, exec (.drawBitmap x y data w h c) s = .next
        { s with fb := m, rcode := 0#4, result := 0, completed := s.completed ++ [⟨s.req, 0#4, 0⟩] } ∧
      Memory.wf m = true ∧
      (∀ u v, inBounds s.rotation u v = true →
        pixelAt m s.rotation u v =
          if ((x ≤ u ∧ u < x + w) ∧ (y ≤ v ∧ v < y + h)) ∧
            (data.getD ((v - y).toNat * ((w.toNat + 7) / 8) + (u - x).toNat / 8) 0#8).getLsbD
              (7 - (u - x).toNat % 8) = true
          then c else pixelAt s.fb s.rotation u v) ∧
      ∀ i, (∀ u v, inBounds s.rotation u v = true → ((x ≤ u ∧ u < x + w) ∧ (y ≤ v ∧ v < y + h)) →
        pixelIndex s.rotation u v ≠ i) → fbRead m i = fbRead s.fb i

/-- R177, R200 to R203, R230: a reserved colour faults at the first pixel drawn, in bounds or not, before any write. The
spec marks as its own: decisions D8, D24, D25, D32. -/
def Obligations.ReservedColorFaults : Prop :=
  ∀ (s : State) (x y w h : Int) (data : List Byte) (c : Nibble), 7 ≤ c.toNat →
    exec (.writePixel x y c) s = .next { s with fault := 2#4, seq := false } ∧
    (1 ≤ w → exec (.writeFastHLine x y w c) s = .next { s with fault := 2#4, seq := false }) ∧
    (1 ≤ h → exec (.writeFastVLine x y h c) s = .next { s with fault := 2#4, seq := false }) ∧
    (1 ≤ w → 1 ≤ h → exec (.writeFillRect x y w h c) s = .next { s with fault := 2#4, seq := false }) ∧
    (∀ i j : Nat, (i : Int) < w → (j : Int) < h → ((w.toNat + 7) / 8) * h.toNat ≤ data.length →
      (data.getD (j * ((w.toNat + 7) / 8) + i / 8) 0#8).getLsbD (7 - i % 8) = true →
      exec (.drawBitmap x y data w h c) s = .next { s with fault := 2#4, seq := false })

/-- R200 to R203, R230: a primitive that draws no pixel completes whatever its colour: an empty run, an empty rectangle
or bitmap (before the length check), a bitmap with no set bit in its `w` columns and `h` rows, whatever its padding bits and
the bytes beyond it. The spec marks as its own: decisions D8, D24, D25, D32; inferences in R204. -/
def Obligations.EmptyPrimitivesComplete : Prop :=
  ∀ (s t : State) (x y w h : Int) (data : List Byte) (c : Nibble),
    t = { s with rcode := 0#4, result := 0, completed := s.completed ++ [⟨s.req, 0#4, 0⟩] } →
    (w ≤ 0 → exec (.writeFastHLine x y w c) s = .next t) ∧
    (h ≤ 0 → exec (.writeFastVLine x y h c) s = .next t) ∧
    (w ≤ 0 ∨ h ≤ 0 → exec (.writeFillRect x y w h c) s = .next t ∧ exec (.drawBitmap x y data w h c) s = .next t) ∧
    (((w.toNat + 7) / 8) * h.toNat ≤ data.length →
      (∀ i j : Nat, (i : Int) < w → (j : Int) < h →
        (data.getD (j * ((w.toNat + 7) / 8) + i / 8) 0#8).getLsbD (7 - i % 8) = false) →
      exec (.drawBitmap x y data w h c) s = .next t)

/-- R203, R230: too few bytes fault before any write and before the colour check. The spec marks as its own: decisions
D8, D25, D32. -/
def Obligations.BitmapShortFaults : Prop :=
  ∀ (s : State) (x y w h : Int) (data : List Byte) (c : Nibble), 1 ≤ w → 1 ≤ h →
    data.length < ((w.toNat + 7) / 8) * h.toNat →
    exec (.drawBitmap x y data w h c) s = .next { s with fault := 3#4, seq := false }

/-- R205: the rectangle drawn columns outer and rows inner ends in the same state, for every colour. The spec marks as
its own: inferences in R205. -/
def Obligations.RectangleLoopOrderIrrelevant : Prop :=
  ∀ (s : State) (x y w h : Int) (c : Nibble), Memory.wf s.fb = true →
    exec (.writeFillRect x y w h c) s = .next
      (forUp w.toNat (fun i => forUp h.toNat (fun j => putPixel (x + (i : Int)) (y + (j : Int)) c)) s).finish

/-- R206: each primitive leaves what the WRITE_PIXEL requests of its pixels leave, one after the other, but for completing
once: it is one request. For a legal colour; a reserved one is ReservedColorFaults and EmptyPrimitivesComplete. The spec
marks as its own: decisions D24 (empty loops), D25 (a bitmap needs enough bytes); inferences in R204 (the bit order). -/
def Obligations.PrimitivesEqualPixelRequests : Prop :=
  ∀ (s : State) (x y w h : Int) (data : List Byte) (c : Nibble), c.toNat ≤ 6 →
    (∃ u, execAll ((List.range w.toNat).map fun (i : Nat) => .writePixel (x + (i : Int)) y c) s = some u ∧
      exec (.writeFastHLine x y w c) s = .next
        { u with rcode := 0#4, result := 0, completed := s.completed ++ [⟨s.req, 0#4, 0⟩] }) ∧
    (∃ u, execAll ((List.range h.toNat).map fun (j : Nat) => .writePixel x (y + (j : Int)) c) s = some u ∧
      exec (.writeFastVLine x y h c) s = .next
        { u with rcode := 0#4, result := 0, completed := s.completed ++ [⟨s.req, 0#4, 0⟩] }) ∧
    (∃ u, execAll ((List.range h.toNat).flatMap fun (j : Nat) => (List.range w.toNat).map fun (i : Nat) =>
          .writePixel (x + (i : Int)) (y + (j : Int)) c) s = some u ∧
      exec (.writeFillRect x y w h c) s = .next
        { u with rcode := 0#4, result := 0, completed := s.completed ++ [⟨s.req, 0#4, 0⟩] }) ∧
    ((0 < w → 0 < h → ((w.toNat + 7) / 8) * h.toNat ≤ data.length) →
      ∃ u, execAll ((List.range h.toNat).flatMap fun (j : Nat) =>
          ((List.range w.toNat).filter fun (i : Nat) =>
            (data.getD (j * ((w.toNat + 7) / 8) + i / 8) 0#8).getLsbD (7 - i % 8)).map fun (i : Nat) =>
              .writePixel (x + (i : Int)) (y + (j : Int)) c) s = some u ∧
        exec (.drawBitmap x y data w h c) s = .next
          { u with rcode := 0#4, result := 0, completed := s.completed ++ [⟨s.req, 0#4, 0⟩] })

/-! ## Micro-ops -/

/-- R124, R104: the line takes the level, `LINE(l, v)` is recorded, the other lines and everything else stay; line code 3 is an
illegal micro-op.
The clock readings beside the events are the model's discipline, log 4. -/
def Obligations.PinDrivesLine : Prop :=
  (∀ (l : Line) (v : Bool),
    decodeUop (BitVec.ofNat 32 (0x01000000 + 256 * l.code.toNat + v.toNat)) = .ok (.uPin l v)) ∧
  (∀ (l : Line) (v : Bool) (s : State), exec (.uPin l v) s = .next
    { s with
      rst := if l = .rst then v else s.rst
      dc := if l = .dc then v else s.dc
      cs := if l = .cs then v else s.cs
      upc := s.upc + 1#8
      clock := s.clock.read.read
      t0 := s.clock.read.read.now
      trace := s.trace ++ [⟨s.clock.read.now, .line l v⟩] }) ∧
  (∀ s : State, s.seq = true → (romRead s.rom s.upc).toNat / 2 ^ 24 = 0x01 →
    (romRead s.rom s.upc).toNat / 2 ^ 8 % 4 = 3 → step s = .next { s with fault := 5#4, seq := false })

/-- R125, R255: `DELAY(ms)` is recorded, at least `ms` milliseconds pass, nothing else changes. The spec marks as its
own: decisions D26.
The clock readings beside the events are the model's discipline, log 4. -/
def Obligations.WaitLetsTimePass : Prop :=
  (∀ ms : Nat, ms < 2 ^ 24 → decodeUop (BitVec.ofNat 32 (0x02000000 + ms)) = .ok (.uWait ms)) ∧
  ∀ (ms : Nat) (s : State), ∃ c : Clock, s.clock.read.now + ms ≤ c.now ∧
    exec (.uWait ms) s = .next
      { s with
        upc := s.upc + 1#8
        clock := c
        t0 := c.now
        trace := s.trace ++ [⟨s.clock.read.now, .delay ms⟩] }

/-- R126, R100: one command transaction of one byte; slots above 13 are illegal micro-ops.
The clock readings beside the events are the model's discipline, log 4. -/
def Obligations.CommandFramesOneByte : Prop :=
  (∀ k : CmdSlot, decodeUop (BitVec.ofNat 32 (0x03000000 + k.code.toNat)) = .ok (.uCmd k)) ∧
  (∀ (k : CmdSlot) (s : State), exec (.uCmd k) s = .next
    { s with
      dc := false
      cs := true
      upc := s.upc + 1#8
      clock := s.clock.read.read.read.read.read
      t0 := s.clock.read.read.read.read.read.now
      trace := s.trace ++
        [⟨s.clock.read.now, .line .cs false⟩, ⟨s.clock.read.read.now, .line .dc false⟩,
         ⟨s.clock.read.read.read.now, .write [Config.cmdTable k]⟩,
         ⟨s.clock.read.read.read.read.now, .line .cs true⟩] }) ∧
  (∀ s : State, s.seq = true → (romRead s.rom s.upc).toNat / 2 ^ 24 = 0x03 →
    13 < (romRead s.rom s.upc).toNat % 2 ^ 8 → step s = .next { s with fault := 5#4, seq := false })

/-- R127, R101: a non-empty payload goes out whole in one data transaction, an empty one sends nothing; slots above 11
are illegal micro-ops. The spec marks as its own: decisions D13, D15.
The clock readings beside the events are the model's discipline, log 4. -/
def Obligations.DataFramesPayload : Prop :=
  (∀ p : PayloadSlot, decodeUop (BitVec.ofNat 32 (0x04000000 + p.code.toNat)) = .ok (.uData p)) ∧
  (∀ (p : PayloadSlot) (s : State), exec (.uData p) s = .next
    (if Config.payloadTable p = [] then
      { s with upc := s.upc + 1#8, clock := s.clock.read, t0 := s.clock.read.now }
    else
      { s with
        dc := true
        cs := true
        upc := s.upc + 1#8
        clock := s.clock.read.read.read.read.read
        t0 := s.clock.read.read.read.read.read.now
        trace := s.trace ++
          [⟨s.clock.read.now, .line .cs false⟩, ⟨s.clock.read.read.now, .line .dc true⟩,
           ⟨s.clock.read.read.read.now, .write (Config.payloadTable p)⟩,
           ⟨s.clock.read.read.read.read.now, .line .cs true⟩] })) ∧
  (∀ s : State, s.seq = true → (romRead s.rom s.upc).toNat / 2 ^ 24 = 0x04 →
    11 < (romRead s.rom s.upc).toNat % 2 ^ 8 → step s = .next { s with fault := 5#4, seq := false })

/-- R128, R56, R65: the framebuffer goes out as one data transaction of its `N` bytes in ascending order and is only read; a wrong
length faults. That the model holds a length and checks it is log 13 (DEDUCED). The spec marks as its own: decisions D29
(the ascending order); inferences in R65 (the fault on another length).
The clock readings beside the events are the model's discipline, log 4. -/
def Obligations.FramebufferStreamsWhole : Prop :=
  decodeUop 0x05000000#32 = .ok .uDataFb ∧
  (∀ s : State, s.fbLen = 134400 → ∃ bs : List Byte,
    bs.length = 134400 ∧ (∀ i, i < 134400 → bs[i]? = some (fbRead s.fb i)) ∧
    exec .uDataFb s = .next
      { s with
        dc := true
        cs := true
        upc := s.upc + 1#8
        clock := s.clock.read.read.read.read.read
        t0 := s.clock.read.read.read.read.read.now
        trace := s.trace ++
          [⟨s.clock.read.now, .line .cs false⟩, ⟨s.clock.read.read.now, .line .dc true⟩,
           ⟨s.clock.read.read.read.now, .write bs⟩, ⟨s.clock.read.read.read.read.now, .line .cs true⟩] }) ∧
  (∀ s : State, s.fbLen ≠ 134400 → exec .uDataFb s = .next { s with fault := 4#4, seq := false })

/-- R129: the background stream is `N` background bytes whatever the framebuffer holds.
The clock readings beside the events are the model's discipline, log 4. -/
def Obligations.BackgroundStreamsWhole : Prop :=
  decodeUop 0x06000000#32 = .ok .uDataBg ∧
  ∀ s : State, exec .uDataBg s = .next
    { s with
      dc := true
      cs := true
      upc := s.upc + 1#8
      clock := s.clock.read.read.read.read.read
      t0 := s.clock.read.read.read.read.read.now
      trace := s.trace ++
        [⟨s.clock.read.now, .line .cs false⟩, ⟨s.clock.read.read.now, .line .dc true⟩,
         ⟨s.clock.read.read.read.now, .write (List.replicate 134400 0x11#8)⟩,
         ⟨s.clock.read.read.read.read.now, .line .cs true⟩] }

/-- R130: one sample; ready advances whatever the time, not ready ends the request once the timeout has elapsed since
`T0`, else the poll stays. The spec marks as its own: decisions D16.
The clock readings beside the events are the model's discipline, log 4. -/
def Obligations.InitPollThreeOutcomes : Prop :=
  (∀ ms : Nat, ms < 2 ^ 24 → decodeUop (BitVec.ofNat 32 (0x07000000 + ms)) = .ok (.uPollReadyTo ms)) ∧
  ∀ (ms : Nat) (s : State),
    (s.busy.sample = true → exec (.uPollReadyTo ms) s = .next
      { s with
        busy := s.busy.next
        upc := s.upc + 1#8
        clock := s.clock.read.read
        t0 := s.clock.read.read.now
        trace := s.trace ++ [⟨s.clock.read.now, .busy true⟩] }) ∧
    (s.busy.sample = false → s.t0 + ms ≤ s.clock.read.read.now → exec (.uPollReadyTo ms) s = .next
      { s with
        busy := s.busy.next
        clock := s.clock.read.read
        trace := s.trace ++ [⟨s.clock.read.now, .busy false⟩]
        panelState := 0#2
        rcode := 1#4
        result := 0
        seq := false
        completed := s.completed ++ [⟨s.req, 1#4, 0⟩] }) ∧
    (s.busy.sample = false → s.clock.read.read.now < s.t0 + ms → exec (.uPollReadyTo ms) s = .next
      { s with
        busy := s.busy.next
        clock := s.clock.read.read
        trace := s.trace ++ [⟨s.clock.read.now, .busy false⟩] })

/-- R131, with `REFRESH_TIMEOUT_MS = none`: ready advances, not ready stays; there is no other exit.
The clock readings beside the events are the model's discipline, log 4. -/
def Obligations.RefreshPollAwaitsReady : Prop :=
  decodeUop 0x08000000#32 = .ok .uPollReady ∧
  ∀ s : State,
    (s.busy.sample = true → exec .uPollReady s = .next
      { s with
        busy := s.busy.next
        upc := s.upc + 1#8
        clock := s.clock.read.read
        t0 := s.clock.read.read.now
        trace := s.trace ++ [⟨s.clock.read.now, .busy true⟩] }) ∧
    (s.busy.sample = false → exec .uPollReady s = .next
      { s with
        busy := s.busy.next
        clock := s.clock.read
        trace := s.trace ++ [⟨s.clock.read.now, .busy false⟩] })

/-- R132, with `REFRESH_TIMEOUT_MS = none`: not ready advances, ready stays.
The clock readings beside the events are the model's discipline, log 4. -/
def Obligations.RefreshPollAwaitsNotReady : Prop :=
  decodeUop 0x09000000#32 = .ok .uPollNotReady ∧
  ∀ s : State,
    (s.busy.sample = false → exec .uPollNotReady s = .next
      { s with
        busy := s.busy.next
        upc := s.upc + 1#8
        clock := s.clock.read.read
        t0 := s.clock.read.read.now
        trace := s.trace ++ [⟨s.clock.read.now, .busy false⟩] }) ∧
    (s.busy.sample = true → exec .uPollNotReady s = .next
      { s with
        busy := s.busy.next
        clock := s.clock.read
        trace := s.trace ++ [⟨s.clock.read.now, .busy true⟩] })

/-- R150 for a number in place of this hardware's `none`: the poll ends with RefreshTimeout once the time has elapsed,
the panel state and the lines stay. The spec marks as its own: decisions D17.
The clock readings beside the events are the model's discipline, log 4. -/
def Obligations.RefreshTimeoutWhenSet : Prop :=
  ∀ (ms : Nat) (want : Bool) (s : State), s.busy.sample = !want →
    (s.t0 + ms ≤ s.clock.read.read.now → refreshPoll (some ms) want s =
      { s with
        busy := s.busy.next
        clock := s.clock.read.read
        trace := s.trace ++ [⟨s.clock.read.now, .busy (!want)⟩]
        rcode := 2#4
        result := 0
        seq := false
        completed := s.completed ++ [⟨s.req, 2#4, 0⟩] }) ∧
    (s.clock.read.read.now < s.t0 + ms → refreshPoll (some ms) want s =
      { s with
        busy := s.busy.next
        clock := s.clock.read.read
        trace := s.trace ++ [⟨s.clock.read.now, .busy (!want)⟩] })

/-- R224, R131, R132: a panel that does not show the awaited level, ready for one poll and not ready for the other, keeps
the poll where it is, sample after sample, whether the samples are scripted or drawn. The spec marks as its own: decisions
D17, D34. -/
def Obligations.RefreshPollWaitsUnbounded : Prop :=
  ∀ (n : Nat) (want : Bool) (s : State), s.seq = true →
    decodeUop (romRead s.rom s.upc) = .ok (if want then .uPollReady else .uPollNotReady) →
    s.busy.samples n = List.replicate n (!want) →
    ∃ t, Host.Core.run Sys2Proof.core n s = .next t ∧ t.seq = true ∧ t.upc = s.upc ∧ t.t0 = s.t0 ∧ t.rom = s.rom ∧
      t.busy = s.busy.after n ∧ kinds t.trace = kinds s.trace ++ List.replicate n (.busy (!want)) ∧
      t.port = s.port ∧ t.panelState = s.panelState ∧ t.fb = s.fb ∧ t.completed = s.completed

/-- R133: the panel state is set; code 3 is an illegal micro-op. -/
def Obligations.SetStateWritesPanelState : Prop :=
  (∀ p : PanelState, decodeUop (BitVec.ofNat 32 (0x0A000000 + p.code.toNat)) = .ok (.uSetState p)) ∧
  (∀ (p : PanelState) (s : State), exec (.uSetState p) s = .next
    { s with panelState := p.code, upc := s.upc + 1#8, clock := s.clock.read, t0 := s.clock.read.now }) ∧
  (∀ s : State, s.seq = true → (romRead s.rom s.upc).toNat / 2 ^ 24 = 0x0A →
    (romRead s.rom s.upc).toNat % 4 = 3 → step s = .next { s with fault := 5#4, seq := false })

/-- R134: the sequence ends and the request completes with the operands. The words are those whose result code is not
reserved; that the others are illegal micro-ops (R87, with R29 and R220) is the model's reading, log 10. -/
def Obligations.EndCompletesRequest : Prop :=
  (∀ (rc : BitVec 4) (res : BitVec 8), rc.toNat ≤ 2 →
    decodeUop (BitVec.ofNat 32 (0x0B000000 + 256 * res.toNat + rc.toNat)) = .ok (.uEnd rc res)) ∧
  (∀ (rc : BitVec 4) (res : BitVec 8) (s : State), exec (.uEnd rc res) s = .next
    { s with rcode := rc, result := res.toNat, seq := false,
             completed := s.completed ++ [⟨s.req, rc, res.toNat⟩] }) ∧
  (∀ s : State, s.seq = true → (romRead s.rom s.upc).toNat / 2 ^ 24 = 0x0B →
    3 ≤ (romRead s.rom s.upc).toNat % 16 → step s = .next { s with fault := 5#4, seq := false })

/-! ## Protocol requests -/

/-- R121, R140, R141, R223: in `Active` DISPLAY and CLEAN start their programs, whatever `UPC` and `T0` held; outside it
they complete silently. The spec marks as its own: decisions D19. -/
def Obligations.RefreshRequestsGatedByActive : Prop :=
  decodeRequest ⟨0x300000000000000000000000#96, []⟩ = .ok .display ∧
  decodeRequest ⟨0x310000000000000000000000#96, []⟩ = .ok .clean ∧
  ∀ s : State,
    (s.panelState = 1#2 →
      exec .display s = .next
        { s with seq := true, upc := 0x20#8, clock := s.clock.read, t0 := s.clock.read.now } ∧
      exec .clean s = .next
        { s with seq := true, upc := 0x30#8, clock := s.clock.read, t0 := s.clock.read.now }) ∧
    (s.panelState ≠ 1#2 →
      exec .display s = .next
        { s with rcode := 0#4, result := 0, completed := s.completed ++ [⟨s.req, 0#4, 0⟩] } ∧
      exec .clean s = .next
        { s with rcode := 0#4, result := 0, completed := s.completed ++ [⟨s.req, 0#4, 0⟩] })

/-- R144: the four cases of SET_PANEL_STATE. The spec marks as its own: decisions D18 (1 while `Active`), D19 (0 outside
`Active`). -/
def Obligations.SetPanelStateCases : Prop :=
  ∀ s : State,
    (s.panelState = 1#2 →
      exec (.setPanelState true) s = .next
        { s with rcode := 0#4, result := 1, completed := s.completed ++ [⟨s.req, 0#4, 1⟩] } ∧
      exec (.setPanelState false) s = .next
        { s with seq := true, upc := 0x40#8, clock := s.clock.read, t0 := s.clock.read.now }) ∧
    (s.panelState ≠ 1#2 →
      exec (.setPanelState true) s = .next
        { s with seq := true, upc := 0x00#8, clock := s.clock.read, t0 := s.clock.read.now } ∧
      exec (.setPanelState false) s = .next
        { s with rcode := 0#4, result := 0, completed := s.completed ++ [⟨s.req, 0#4, 0⟩] })

/-! ## Sequences -/

/-- R136, R137, R139, R146: an init or wake whose first sample is ready, scripted or drawn, sends exactly the INIT events
in order, ends `Active` with `RESULT = 1`, takes at least 102 ms and leaves the framebuffer and the rotation alone. (A
panel that is ready later, or never, is InitAlwaysEnds.) The spec marks as its own: decisions D31; inferences in R139,
R146. -/
def Obligations.InitSequenceSucceeds : Prop :=
  ∀ (s : State) (r : RawRequest) (rest : List RawRequest),
    s.seq = false → s.fault = 0#4 → s.rom = microRom → s.panelState ≠ 1#2 →
    s.port = r :: rest → decodeRequest r = .ok (.setPanelState true) → s.busy.sample = true →
    ∃ t, Host.Core.run Sys2Proof.core 31 s = .next t ∧
      t.panelState = 1#2 ∧ t.rcode = 0#4 ∧ t.result = 1 ∧ t.seq = false ∧ t.fault = 0#4 ∧
      t.rst = true ∧ t.cs = true ∧ kinds t.trace = kinds s.trace ++ initEvents 0 ∧
      t.fb = s.fb ∧ t.fbLen = s.fbLen ∧ t.rotation = s.rotation ∧ t.rom = s.rom ∧ t.port = rest ∧
      t.busy = s.busy.next ∧
      t.completed = s.completed ++ [⟨some (ReqLatch.ofRaw r), 0#4, 1⟩] ∧ s.clock.now + 102 ≤ t.clock.now

/-- R138, R130, R136, R139, R221, R233: a running INIT always ends, in one of two ways, whatever the panel answers and
however the time passes. Either the poll saw a ready sample and all the writes were sent, or the poll timed out: then only
the rest of the reset pulse and samples that are not ready were recorded, no register write, RST is 1, CS and DC are as they
were, and from the entry at least 10002 ms have passed. The spec marks as its own: decisions D16, D26, D31, D41; inferences in
R138, R139. -/
def Obligations.InitAlwaysEnds : Prop :=
  ∀ s : State, s.Inv → s.seq = true → s.upc.toNat ≤ 0x1D →
    ∃ k t, Host.Core.run Sys2Proof.core k s = .next t ∧ t.seq = false ∧ t.fault = s.fault ∧ t.fb = s.fb ∧
      t.rotation = s.rotation ∧ t.port = s.port ∧ t.rst = true ∧
      ((t.panelState = 1#2 ∧ t.rcode = 0#4 ∧ t.result = 1 ∧ t.cs = true ∧
        (s.upc.toNat ≤ 4 → ∃ n, kinds t.trace = kinds s.trace ++ (initEvents n).drop s.upc.toNat)) ∨
       (t.panelState = 0#2 ∧ t.rcode = 1#4 ∧ t.result = 0 ∧ s.upc.toNat ≤ 4 ∧ t.cs = s.cs ∧ t.dc = s.dc ∧
        (∃ n, kinds t.trace =
          kinds s.trace ++ resetPulse.drop s.upc.toNat ++ List.replicate (n + 1) (.busy false)) ∧
        (s.upc = 0#8 → s.clock.now + 10002 ≤ t.clock.now)))

/-- R140, R142: a DISPLAY in `Active` whose polls wait `a`, `b` and `c` samples, scripted or drawn, sends exactly the refresh events in
order, the image being the framebuffer at its acceptance, and leaves the framebuffer, the rotation and the panel state
alone. The spec marks as its own: decisions D14. -/
def Obligations.DisplaySequenceCompletes : Prop :=
  ∀ (s : State) (r : RawRequest) (rest : List RawRequest) (a b c : Nat),
    s.seq = false → s.fault = 0#4 → s.rom = microRom → s.fbLen = 134400 → s.panelState = 1#2 →
    s.port = r :: rest → decodeRequest r = .ok .display →
    s.busy.samples (3 + a + b + c) = List.replicate a false ++ true :: (List.replicate b false ++
      true :: (List.replicate c true ++ [false])) →
    ∃ t, Host.Core.run Sys2Proof.core (13 + a + b + c) s = .next t ∧
      t.panelState = 1#2 ∧ t.rcode = 0#4 ∧ t.result = 0 ∧ t.seq = false ∧ t.fault = 0#4 ∧
      t.rst = s.rst ∧ t.dc = false ∧ t.cs = true ∧
      kinds t.trace = kinds s.trace ++ refreshEvents (fbStream s.fb) a b c ∧
      t.fb = s.fb ∧ t.rotation = s.rotation ∧ t.port = rest ∧ t.busy = s.busy.after (3 + a + b + c) ∧
      t.completed = s.completed ++ [⟨some (ReqLatch.ofRaw r), 0#4, 0⟩] ∧ s.clock.now + 200 ≤ t.clock.now

/-- R141, R149: as DISPLAY, the image being `N` background bytes whatever the framebuffer holds. The spec marks as its
own: decisions D22. -/
def Obligations.CleanSequenceCompletes : Prop :=
  ∀ (s : State) (r : RawRequest) (rest : List RawRequest) (a b c : Nat),
    s.seq = false → s.fault = 0#4 → s.rom = microRom → s.panelState = 1#2 →
    s.port = r :: rest → decodeRequest r = .ok .clean →
    s.busy.samples (3 + a + b + c) = List.replicate a false ++ true :: (List.replicate b false ++
      true :: (List.replicate c true ++ [false])) →
    ∃ t, Host.Core.run Sys2Proof.core (13 + a + b + c) s = .next t ∧
      t.panelState = 1#2 ∧ t.rcode = 0#4 ∧ t.result = 0 ∧ t.seq = false ∧ t.fault = 0#4 ∧
      t.rst = s.rst ∧ t.dc = false ∧ t.cs = true ∧
      kinds t.trace = kinds s.trace ++ refreshEvents (List.replicate 134400 0x11#8) a b c ∧
      t.fb = s.fb ∧ t.rotation = s.rotation ∧ t.port = rest ∧ t.busy = s.busy.after (3 + a + b + c) ∧
      t.completed = s.completed ++ [⟨some (ReqLatch.ofRaw r), 0#4, 0⟩] ∧ s.clock.now + 200 ≤ t.clock.now

/-- R143 with R144 (the request that starts it), R123 (its ROM words), R237, R260: deep sleep sends its command and
payload, waits, drives RST, DC, CS low in that order and ends `Sleeping` with the framebuffer and the rotation as they
were. The spec marks as its own: decisions D27; inferences in
R143. -/
def Obligations.DeepSleepSequence : Prop :=
  ∀ (s : State) (r : RawRequest) (rest : List RawRequest),
    s.seq = false → s.fault = 0#4 → s.rom = microRom → s.panelState = 1#2 →
    s.port = r :: rest → decodeRequest r = .ok (.setPanelState false) →
    ∃ t, Host.Core.run Sys2Proof.core 9 s = .next t ∧
      t.panelState = 2#2 ∧ t.rcode = 0#4 ∧ t.result = 0 ∧ t.seq = false ∧ t.fault = 0#4 ∧
      t.rst = false ∧ t.dc = false ∧ t.cs = false ∧
      kinds t.trace = kinds s.trace ++ sleepEvents ∧
      t.fb = s.fb ∧ t.fbLen = s.fbLen ∧ t.rotation = s.rotation ∧ t.rom = s.rom ∧ t.port = rest ∧
      t.busy = s.busy ∧
      t.completed = s.completed ++ [⟨some (ReqLatch.ofRaw r), 0#4, 0⟩] ∧ s.clock.now + 100 ≤ t.clock.now

/-! ## The whole machine -/

/-- R35, R250: construction; the bytes of FB are draws (R35, log 1). The spec marks as its own: decisions D1, D9, D10,
D11, D16, D30, D37, D39. -/
def Obligations.ConstructionValues : Prop :=
  State.reset.rotation = 0#2 ∧ State.reset.panelState = 0#2 ∧ State.reset.rst = true ∧ State.reset.dc = false ∧
  State.reset.cs = true ∧ State.reset.seq = false ∧ State.reset.req = none ∧ State.reset.rcode = 0#4 ∧
  State.reset.result = 0 ∧ State.reset.fault = 0#4 ∧ State.reset.trace = [] ∧ State.reset.completed = [] ∧
  State.reset.fbLen = 134400 ∧ ∀ i, i < 134400 → fbRead State.reset.fb i = Config.fbReset i

/-- R34, R22 to R31: the complete write map, over all instructions, row by row of its table; `RCODE` and `RESULT` are written
by a completion only (R29, R30), a fault writes `FAULT` and `SEQ` (R227), U_PIN of one line writes that line only (R104), and
only the polls sample BUSY (R26). The spec marks as its own: decisions D1. -/
def Obligations.WriteMap : Prop :=
  ∀ (i : Instr) (s t : State), exec i s = .next t →
    (t.fb ≠ s.fb → i.isDraw = true ∨ i = .clearDisplay) ∧
    (t.rotation ≠ s.rotation → ∃ r, i = .setRotation r) ∧
    (t.panelState ≠ s.panelState → (∃ p, i = .uSetState p) ∨ ∃ ms, i = .uPollReadyTo ms) ∧
    (t.rst ≠ s.rst → ∃ v, i = .uPin .rst v) ∧
    (t.dc ≠ s.dc → (∃ v, i = .uPin .dc v) ∨ (∃ k, i = .uCmd k) ∨ (∃ p, i = .uData p) ∨ i = .uDataFb ∨ i = .uDataBg) ∧
    (t.cs ≠ s.cs → (∃ v, i = .uPin .cs v) ∨ (∃ k, i = .uCmd k) ∨ (∃ p, i = .uData p) ∨ i = .uDataFb ∨ i = .uDataBg) ∧
    (t.seq ≠ s.seq →
      (t.seq = true ∧ (i = .display ∨ i = .clean ∨ ∃ on, i = .setPanelState on)) ∨
      (t.seq = false ∧ ((∃ rc res, i = .uEnd rc res) ∨ (∃ ms, i = .uPollReadyTo ms))) ∨
      (t.seq = false ∧ t.fault ≠ 0#4 ∧ (i.isDraw = true ∨ i = .uDataFb))) ∧
    (t.upc ≠ s.upc ∨ t.t0 ≠ s.t0 →
      (t.seq = true ∧ (i = .display ∨ i = .clean ∨ ∃ on, i = .setPanelState on)) ∨
      (i.isUop = true ∧ t.upc = s.upc + 1#8 ∧ ∀ rc res, i ≠ .uEnd rc res)) ∧
    (t.rcode ≠ s.rcode ∨ t.result ≠ s.result ∨ t.completed ≠ s.completed →
      t.completed = s.completed ++ [⟨s.req, t.rcode, t.result⟩] ∧ t.fault = s.fault ∧
      (i.isUop = false ∨ (∃ rc res, i = .uEnd rc res) ∨ ∃ ms, i = .uPollReadyTo ms)) ∧
    (t.fault ≠ s.fault → t.seq = false ∧
      ((i.isDraw = true ∧ t.fault = 2#4) ∨ ((∃ x y data w h c, i = .drawBitmap x y data w h c) ∧ t.fault = 3#4) ∨
       (i = .uDataFb ∧ t.fault = 4#4))) ∧
    (t.busy ≠ s.busy → (∃ ms, i = .uPollReadyTo ms) ∨ i = .uPollReady ∨ i = .uPollNotReady) ∧
    (t.trace ≠ s.trace → (∃ l v, i = .uPin l v) ∨ (∃ ms, i = .uWait ms) ∨ (∃ k, i = .uCmd k) ∨ (∃ p, i = .uData p) ∨
      i = .uDataFb ∨ i = .uDataBg ∨ (∃ ms, i = .uPollReadyTo ms) ∨ i = .uPollReady ∨ i = .uPollNotReady) ∧
    t.fbLen = s.fbLen ∧ t.rom = s.rom ∧ t.port = s.port ∧ t.req = s.req

/-- The invariant holds at construction. -/
def Obligations.ConstructionMeetsInvariant : Prop := State.reset.Inv

/-- The invariant is kept by every step, from every state that meets it: canonical framebuffer, fixed length and ROM,
legal codes (R24, R29, R226), the sequencer and the panel state (R120), the lines (R103, R260), framed transactions
(R83, R103), events in the order of time (R62), the last result (R29, R30). The spec marks as its own: decisions D8,
D15, D18, D19, D20, D21, D25, D30, D32; inferences in R30, R103. -/
def Obligations.StepKeepsInvariant : Prop :=
  ∀ s t : State, s.Inv → step s = .next t → t.Inv

/-- R120, R147: the panel state moves only along the listed transitions, and to `Active` only by a completed INIT. The
spec marks as its own: decisions D18, D19, D20; inferences in R147. -/
def Obligations.PanelStateTransitions : Prop :=
  ∀ s t : State, s.Inv → step s = .next t → t.panelState ≠ s.panelState →
    ((s.panelState = 0#2 ∨ s.panelState = 2#2) ∧ t.panelState = 1#2 ∧ s.seq = true ∧ s.upc = 0x1C#8) ∨
    (s.panelState = 2#2 ∧ t.panelState = 0#2 ∧ s.seq = true ∧ s.upc = 0x04#8 ∧ t.rcode = 1#4 ∧ t.seq = false) ∨
    (s.panelState = 1#2 ∧ t.panelState = 2#2 ∧ s.seq = true ∧ s.upc = 0x46#8)

/-- R233: readings never decrease, a delay makes every later reading at least that much larger, and endlessly many
readings grow without bound (the form of the draws is the model's, log 3). The spec marks as its own: decisions D26. -/
def Obligations.ClockMonotoneAndDivergent : Prop :=
  (∀ c : Clock, c.now ≤ c.read.now) ∧
  (∀ (c : Clock) (ms : Nat), c.now + ms ≤ (c.pass ms).read.now) ∧
  (∀ (c : Clock) (bound : Nat), ∃ n, bound ≤ (Nat.iterate Clock.read n c).now)
end

