-- ==== Sys2Proof/Laws/Decode.lean ====
section
/-! SUPPORT. The laws of the encoding's parts: codes, field positions, signed operands, micro-op words. -/

namespace Sys2Proof

/-! ## Codes -/

@[simp] theorem Line.ofCode_code (l : Line) : Line.ofCode l.code = some l := by cases l <;> rfl
@[simp] theorem CmdSlot.ofCode_code (k : CmdSlot) : CmdSlot.ofCode k.code = some k := by cases k <;> rfl
@[simp] theorem PayloadSlot.ofCode_code (p : PayloadSlot) : PayloadSlot.ofCode p.code = some p := by cases p <;> rfl
@[simp] theorem PanelState.ofCode_code (p : PanelState) : PanelState.ofCode p.code = some p := by cases p <;> rfl
@[simp] theorem ReqOp.ofCode_code (o : ReqOp) : ReqOp.ofCode o.code = some o := by cases o <;> rfl
@[simp] theorem UopOp.ofCode_code (o : UopOp) : UopOp.ofCode o.code = some o := by cases o <;> rfl

theorem Line.code_of_ofCode {v : BitVec 2} {l : Line} (h : Line.ofCode v = some l) : l.code = v := by
  revert l v; decide

theorem PanelState.code_of_ofCode {v : BitVec 2} {p : PanelState} (h : PanelState.ofCode v = some p) : p.code = v := by
  revert p v; decide

theorem CmdSlot.code_of_ofCode {v : Byte} {k : CmdSlot} (h : CmdSlot.ofCode v = some k) : k.code = v := by
  unfold CmdSlot.ofCode at h
  split at h <;> cases h <;> (apply BitVec.eq_of_toNat_eq; simp_all [CmdSlot.code])

theorem PayloadSlot.code_of_ofCode {v : Byte} {p : PayloadSlot} (h : PayloadSlot.ofCode v = some p) : p.code = v := by
  unfold PayloadSlot.ofCode at h
  split at h <;> cases h <;> (apply BitVec.eq_of_toNat_eq; simp_all [PayloadSlot.code])

theorem ReqOp.code_of_ofCode {v : Byte} {o : ReqOp} (h : ReqOp.ofCode v = some o) : o.code = v := by
  unfold ReqOp.ofCode at h
  split at h <;> cases h <;> (apply BitVec.eq_of_toNat_eq; simp_all [ReqOp.code])

theorem UopOp.code_of_ofCode {v : Byte} {o : UopOp} (h : UopOp.ofCode v = some o) : o.code = v := by
  unfold UopOp.ofCode at h
  split at h <;> cases h <;> (apply BitVec.eq_of_toNat_eq; simp_all [UopOp.code])

/-! ## Fields -/

theorem append_toNat {m n : Nat} (u : BitVec m) (v : BitVec n) : (u ++ v).toNat = u.toNat * 2 ^ n + v.toNat := by
  rw [BitVec.toNat_append, Nat.shiftLeft_eq, ← Nat.shiftLeft_eq, Nat.shiftLeft_add_eq_or_of_lt v.isLt]

theorem extract_toNat {w : Nat} (v : BitVec w) (lo len : Nat) :
    (v.extractLsb' lo len).toNat = v.toNat / 2 ^ lo % 2 ^ len := by
  rw [BitVec.extractLsb'_toNat, Nat.shiftRight_eq_div_pow]

/-- The fields of the word of `f` are `f` (R70). -/
@[simp] theorem Fields.ofWord_toWord (f : Fields) : Fields.ofWord f.toWord = f := by
  obtain ⟨op, color, flags, a, b, c, d, e⟩ := f
  simp only [Fields.ofWord, Fields.toWord, Fields.mk.injEq]
  have := op.isLt; have := color.isLt; have := flags.isLt; have := a.isLt
  have := b.isLt; have := c.isLt; have := d.isLt; have := e.isLt
  refine ⟨?_, ?_, ?_, ?_, ?_, ?_, ?_, ?_⟩ <;> apply BitVec.eq_of_toNat_eq <;> rw [extract_toNat] <;>
    simp only [append_toNat] <;> omega

/-- The word of the fields of `w` is `w` (R70): the fields cover the word. -/
@[simp] theorem Fields.toWord_ofWord (w : RequestWord) : (Fields.ofWord w).toWord = w := by
  apply BitVec.eq_of_toNat_eq
  simp only [Fields.ofWord, Fields.toWord, append_toNat, extract_toNat]
  have := w.isLt
  omega

/-! ## Signed operands -/

/-- A signed 16-bit operand comes back from its field (R71). -/
theorem operand_toInt {v : Int} (h : fits16 v = true) : (operand v).toInt = v := by
  simp only [fits16, Bool.and_eq_true, decide_eq_true_eq] at h
  rw [operand, BitVec.toInt_ofInt, Int.bmod_def]
  split <;> omega

@[simp] theorem operand_of_toInt (v : BitVec 16) : operand v.toInt = v := BitVec.ofInt_toInt

@[simp] theorem fits16_toInt (v : BitVec 16) : fits16 v.toInt = true := by
  have h1 := BitVec.le_toInt v
  have h2 := BitVec.toInt_lt (x := v)
  simp only [fits16, Bool.and_eq_true, decide_eq_true_eq]
  omega

/-! ## Micro-op words -/

theorem uop_op (o : UopOp) (arg : BitVec 24) : (UopOp.word o arg).extractLsb' 24 8 = o.code := by
  apply BitVec.eq_of_toNat_eq
  rw [extract_toNat, UopOp.word, append_toNat]
  have := arg.isLt; have := o.code.isLt
  omega

theorem uop_arg (o : UopOp) (arg : BitVec 24) : (UopOp.word o arg).extractLsb' 0 24 = arg := by
  apply BitVec.eq_of_toNat_eq
  rw [extract_toNat, UopOp.word, append_toNat]
  have := arg.isLt; have := o.code.isLt
  omega

/-- A micro-op word is its opcode and its argument (R86). -/
theorem uop_split (u : UopWord) : u.extractLsb' 24 8 ++ u.extractLsb' 0 24 = u := by
  apply BitVec.eq_of_toNat_eq
  simp only [append_toNat, extract_toNat]
  have := u.isLt
  omega

/-- Decoding the word of a micro-op is reading its argument. -/
theorem decodeUop_word (o : UopOp) (arg : BitVec 24) :
    decodeUop (UopOp.word o arg) =
      match o.build arg with
      | none => .error .reservedArgument
      | some i => .ok i := by
  simp only [decodeUop, uop_op, uop_arg, UopOp.ofCode_code]
  all_goals (cases o.build arg <;> rfl)

/-- Decoding the word of a field record is the checks of R79 on that record. -/
theorem decodeRequest_toWord (f : Fields) (data : List Byte) :
    decodeRequest ⟨f.toWord, data⟩ =
      match ReqOp.ofCode f.op with
      | none => .error .reservedOpcode
      | some o => if unusedZero o.uses f data then .ok (o.build f data) else .error .unusedNotZero := by
  simp only [decodeRequest, Fields.ofWord_toWord]
  all_goals (cases ReqOp.ofCode f.op <;> rfl)

/-- A decoded micro-op word names a micro-op, never a request. -/
theorem UopOp.build_isUop {o : UopOp} {arg : BitVec 24} {i : Instr} (h : o.build arg = some i) : i.isUop = true := by
  cases o <;> simp only [UopOp.build] at h <;> (try split at h) <;>
    first
    | (obtain ⟨_, _, rfl⟩ := Option.map_eq_some_iff.mp h; rfl)
    | (obtain rfl := Option.some.inj h; rfl)
    | exact absurd h (by simp)

theorem decodeUop_isUop {u : UopWord} {i : Instr} (h : decodeUop u = .ok i) : i.isUop = true := by
  unfold decodeUop at h
  split at h
  · cases h
  · split at h
    · cases h
    · next hb => cases h; exact UopOp.build_isUop hb

theorem decodeRequest_isRequest {r : RawRequest} {i : Instr} (h : decodeRequest r = .ok i) : i.isUop = false := by
  unfold decodeRequest at h
  split at h
  · cases h
  · next o _ =>
    split at h
    · cases h; cases o <;> rfl
    · cases h

end Sys2Proof
end

