-- ==== Sys2Proof/Laws/Memory.lean ====
section
/-! SUPPORT. The laws of the cell memories: read after write, other addresses untouched, the canonical form kept by every
operation, and equal contents are equal data. -/

namespace Sys2Proof.Machine

section Cells
variable {w : Nat} {dflt : BitVec w}

@[simp] theorem Mem.read_nil (i : Nat) : Mem.read dflt [] i = dflt := rfl

theorem Mem.read_cons (a : Nat) (v : BitVec w) (m : Mem w) (i : Nat) :
    Mem.read dflt ((a, v) :: m) i = if i = a then v else Mem.read dflt m i := rfl

theorem Mem.wfFrom_cons {lo hi a : Nat} {v : BitVec w} {m : Mem w} :
    Mem.wfFrom dflt lo hi ((a, v) :: m) = true ↔
      lo ≤ a ∧ a < hi ∧ v ≠ dflt ∧ Mem.wfFrom dflt (a + 1) hi m = true := by
  simp [Mem.wfFrom, and_assoc]

theorem Mem.wfFrom_mono {lo lo' hi : Nat} {m : Mem w} (h : lo' ≤ lo) (hm : Mem.wfFrom dflt lo hi m = true) :
    Mem.wfFrom dflt lo' hi m = true := by
  cases m with
  | nil => rfl
  | cons c m =>
    obtain ⟨a, v⟩ := c
    rw [Mem.wfFrom_cons] at hm ⊢
    exact ⟨by omega, hm.2⟩

/-- An address below the form's lower bound is unlisted. -/
theorem Mem.read_below {lo hi i : Nat} {m : Mem w} (hm : Mem.wfFrom dflt lo hi m = true) (hi' : i < lo) :
    Mem.read dflt m i = dflt := by
  induction m generalizing lo with
  | nil => rfl
  | cons c m ih =>
    obtain ⟨a, v⟩ := c
    rw [Mem.wfFrom_cons] at hm
    rw [Mem.read_cons, if_neg (by omega)]
    exact ih hm.2.2.2 (by omega)

/-- An address past the form's upper bound is unlisted. -/
theorem Mem.read_above {lo hi i : Nat} {m : Mem w} (hm : Mem.wfFrom dflt lo hi m = true) (hi' : hi ≤ i) :
    Mem.read dflt m i = dflt := by
  induction m generalizing lo with
  | nil => rfl
  | cons c m ih =>
    obtain ⟨a, v⟩ := c
    rw [Mem.wfFrom_cons] at hm
    rw [Mem.read_cons, if_neg (by omega)]
    exact ih hm.2.2.2

theorem Mem.read_write_same {lo hi i : Nat} {m : Mem w} {v : BitVec w} (hm : Mem.wfFrom dflt lo hi m = true) :
    Mem.read dflt (Mem.write dflt m i v) i = v := by
  induction m generalizing lo with
  | nil => by_cases h : v = dflt <;> simp [Mem.write, Mem.read, h]
  | cons c m ih =>
    obtain ⟨a, u⟩ := c
    have hc := Mem.wfFrom_cons.mp hm
    rcases Nat.lt_trichotomy i a with h | h | h
    · by_cases hv : v = dflt
      · simp only [Mem.write, if_pos h, hv]
        exact Mem.read_below (lo := a) (hi := hi) (Mem.wfFrom_cons.mpr ⟨le_refl a, hc.2⟩) h
      · simp [Mem.write, Mem.read, h, hv]
    · subst h
      by_cases hv : v = dflt
      · simp only [Mem.write, lt_irrefl, if_false, if_true, hv]
        exact Mem.read_below hc.2.2.2 (Nat.lt_succ_self i)
      · simp [Mem.write, Mem.read, hv]
    · have h1 : ¬ i < a := by omega
      have h2 : i ≠ a := by omega
      simp only [Mem.write, if_neg h1, if_neg h2, Mem.read]
      exact ih hc.2.2.2

theorem Mem.read_write_other {i j : Nat} {m : Mem w} {v : BitVec w} (hij : j ≠ i) :
    Mem.read dflt (Mem.write dflt m i v) j = Mem.read dflt m j := by
  induction m with
  | nil => by_cases h : v = dflt <;> simp [Mem.write, Mem.read, h, hij]
  | cons c m ih =>
    obtain ⟨a, u⟩ := c
    by_cases h : i < a
    · by_cases hv : v = dflt <;> simp [Mem.write, Mem.read, h, hv, hij]
    · by_cases h2 : i = a
      · subst h2
        by_cases hv : v = dflt <;> simp [Mem.write, Mem.read, hv, hij]
      · simp [Mem.write, Mem.read, h, h2, ih]

/-- A write inside the bounds keeps the canonical form. -/
theorem Mem.wfFrom_write {lo hi i : Nat} {m : Mem w} {v : BitVec w} (hm : Mem.wfFrom dflt lo hi m = true)
    (h1 : lo ≤ i) (h2 : i < hi) : Mem.wfFrom dflt lo hi (Mem.write dflt m i v) = true := by
  induction m generalizing lo with
  | nil =>
    by_cases hv : v = dflt
    · simp [Mem.write, hv, Mem.wfFrom]
    · simp [Mem.write, hv, Mem.wfFrom, h1, h2]
  | cons c m ih =>
    obtain ⟨a, u⟩ := c
    have hc := Mem.wfFrom_cons.mp hm
    rcases Nat.lt_trichotomy i a with h | h | h
    · by_cases hv : v = dflt
      · simpa [Mem.write, h, hv] using hm
      · simp only [Mem.write, if_pos h, if_neg hv]
        exact Mem.wfFrom_cons.mpr ⟨h1, h2, hv, Mem.wfFrom_cons.mpr ⟨h, hc.2⟩⟩
    · subst h
      by_cases hv : v = dflt
      · simp only [Mem.write, lt_irrefl, if_false, if_true, hv]
        exact Mem.wfFrom_mono (by omega) hc.2.2.2
      · simp only [Mem.write, lt_irrefl, if_false, if_true, if_neg hv]
        exact Mem.wfFrom_cons.mpr ⟨h1, h2, hv, hc.2.2.2⟩
    · have h3 : ¬ i < a := by omega
      have h4 : i ≠ a := by omega
      simp only [Mem.write, if_neg h3, if_neg h4]
      exact Mem.wfFrom_cons.mpr ⟨hc.1, hc.2.1, hc.2.2.1, ih hc.2.2.2 (by omega)⟩

theorem Mem.wfFrom_ofFn (f : Nat → BitVec w) (i n : Nat) : Mem.wfFrom dflt i (i + n) (Mem.ofFn dflt f i n) = true := by
  induction n generalizing i with
  | zero => rfl
  | succ n ih =>
    have h : Mem.wfFrom dflt (i + 1) (i + (n + 1)) (Mem.ofFn dflt f (i + 1) n) = true := by
      have := ih (i + 1)
      rwa [show i + 1 + n = i + (n + 1) by omega] at this
    by_cases hf : f i = dflt
    · simp only [Mem.ofFn, if_pos hf]
      exact Mem.wfFrom_mono (by omega) h
    · simp only [Mem.ofFn, if_neg hf]
      exact Mem.wfFrom_cons.mpr ⟨le_refl i, by omega, hf, h⟩

theorem Mem.read_ofFn (f : Nat → BitVec w) {i n j : Nat} (h1 : i ≤ j) (h2 : j < i + n) :
    Mem.read dflt (Mem.ofFn dflt f i n) j = f j := by
  induction n generalizing i with
  | zero => omega
  | succ n ih =>
    rcases Nat.eq_or_lt_of_le h1 with h | h
    · subst h
      by_cases hf : f i = dflt
      · simp only [Mem.ofFn, hf]
        exact Mem.read_below (Mem.wfFrom_ofFn f (i + 1) n) (Nat.lt_succ_self i)
      · simp [Mem.ofFn, hf, Mem.read]
    · have hr := ih (i := i + 1) (by omega) (by omega)
      by_cases hf : f i = dflt
      · simpa only [Mem.ofFn, if_pos hf] using hr
      · simpa only [Mem.ofFn, if_neg hf, Mem.read, if_neg (show j ≠ i by omega)] using hr

/-- In canonical form, equal contents are equal data. -/
theorem Mem.ext_of_wf {lo hi : Nat} {m m' : Mem w} (hm : Mem.wfFrom dflt lo hi m = true)
    (hm' : Mem.wfFrom dflt lo hi m' = true) (h : ∀ i, Mem.read dflt m i = Mem.read dflt m' i) : m = m' := by
  induction m generalizing lo m' with
  | nil =>
    cases m' with
    | nil => rfl
    | cons c m' =>
      obtain ⟨a, v⟩ := c
      have := h a
      simp only [Mem.read, if_true] at this
      exact absurd this.symm (Mem.wfFrom_cons.mp hm').2.2.1
  | cons c m ih =>
    obtain ⟨a, v⟩ := c
    have hc := Mem.wfFrom_cons.mp hm
    cases m' with
    | nil =>
      have := h a
      simp only [Mem.read, if_true] at this
      exact absurd this hc.2.2.1
    | cons c' m' =>
      obtain ⟨a', v'⟩ := c'
      have hc' := Mem.wfFrom_cons.mp hm'
      rcases Nat.lt_trichotomy a a' with hlt | heq | hgt
      · have := h a
        rw [Mem.read_cons, if_pos rfl,
          Mem.read_below (lo := a') (hi := hi) (Mem.wfFrom_cons.mpr ⟨le_refl a', hc'.2⟩) hlt] at this
        exact absurd this hc.2.2.1
      · subst heq
        have hv := h a
        simp only [Mem.read, if_true] at hv
        subst hv
        congr 1
        refine ih hc.2.2.2 hc'.2.2.2 fun i => ?_
        have hi' := h i
        rcases Nat.lt_or_ge i (a + 1) with hia | hia
        · rw [Mem.read_below hc.2.2.2 hia, Mem.read_below hc'.2.2.2 hia]
        · simpa only [Mem.read, if_neg (show i ≠ a by omega)] using hi'
      · have := h a'
        rw [Mem.read_cons (a := a'), if_pos rfl,
          Mem.read_below (lo := a) (hi := hi) (Mem.wfFrom_cons.mpr ⟨le_refl a, hc.2⟩) hgt] at this
        exact absurd this.symm hc'.2.2.1

end Cells

/-! ## The framebuffer -/

theorem fbBytes_eq : Config.fbBytes = 134400 := rfl

theorem fbRead_fbWrite_same {m : List Host.Cell} {i : Nat} {v : Byte} (hm : Memory.wf m = true) :
    fbRead (fbWrite m i v) i = v := Mem.read_write_same hm

theorem fbRead_fbWrite_other {m : List Host.Cell} {i j : Nat} {v : Byte} (h : j ≠ i) :
    fbRead (fbWrite m i v) j = fbRead m j := Mem.read_write_other h

theorem wf_fbWrite {m : List Host.Cell} {i : Nat} {v : Byte} (hm : Memory.wf m = true) (h : i < Config.fbBytes) :
    Memory.wf (fbWrite m i v) = true := Mem.wfFrom_write hm (Nat.zero_le i) h

theorem wf_fbFill (b : Byte) : Memory.wf (fbFill b) = true := by
  have h := Mem.wfFrom_ofFn (dflt := unlistedByte) (fun _ => b) 0 Config.fbBytes
  rw [Nat.zero_add] at h
  unfold fbFill
  split
  · rfl
  · exact h

theorem fbRead_fbFill {b : Byte} {i : Nat} (h : i < Config.fbBytes) : fbRead (fbFill b) i = b := by
  unfold fbFill
  split
  · next hb => exact hb.symm
  · exact Mem.read_ofFn (fun _ => b) (Nat.zero_le i) (by omega)

/-- Outside the framebuffer nothing is listed. -/
theorem fbRead_outside {m : List Host.Cell} {i : Nat} (hm : Memory.wf m = true) (h : Config.fbBytes ≤ i) :
    fbRead m i = unlistedByte := Mem.read_above hm h

/-- The framebuffer after construction is in canonical form. -/
theorem wf_fbConstructed : Memory.wf fbConstructed = true := by
  have h := Mem.wfFrom_ofFn (dflt := unlistedByte) Config.fbReset 0 Config.fbBytes
  rw [Nat.zero_add] at h
  exact h

/-- After construction each byte is its own draw (R35, U4). -/
theorem fbRead_fbConstructed {i : Nat} (h : i < Config.fbBytes) : fbRead fbConstructed i = Config.fbReset i :=
  Mem.read_ofFn Config.fbReset (Nat.zero_le i) (by omega)

/-- Equal framebuffer contents are equal data. -/
theorem fb_ext {m m' : List Host.Cell} (hm : Memory.wf m = true) (hm' : Memory.wf m' = true)
    (h : ∀ i, i < Config.fbBytes → fbRead m i = fbRead m' i) : m = m' := by
  refine Mem.ext_of_wf hm hm' fun i => ?_
  rcases Nat.lt_or_ge i Config.fbBytes with hi | hi
  · exact h i hi
  · rw [Mem.read_above hm hi, Mem.read_above hm' hi]

theorem fbBytesFrom_length (m : List Host.Cell) (i n : Nat) : (fbBytesFrom m i n).length = n := by
  induction n generalizing i with
  | zero => rfl
  | succ n ih => exact congrArg (· + 1) (ih (i + 1))

theorem fbBytesFrom_get {m : List Host.Cell} {i n j : Nat} (h : j < n) :
    (fbBytesFrom m i n)[j]? = some (fbRead m (i + j)) := by
  induction n generalizing i j with
  | zero => omega
  | succ n ih =>
    cases j with
    | zero => rfl
    | succ j =>
      have := ih (i := i + 1) (j := j) (by omega)
      rwa [show i + 1 + j = i + (j + 1) by omega] at this

@[simp] theorem fbStream_length (m : List Host.Cell) : (fbStream m).length = Config.fbBytes := fbBytesFrom_length m 0 _

/-- Byte `i` of the stream is `FB[i]` (R56). -/
theorem fbStream_get {m : List Host.Cell} {i : Nat} (h : i < Config.fbBytes) : (fbStream m)[i]? = some (fbRead m i) := by
  have := fbBytesFrom_get (m := m) (i := 0) h
  rwa [Nat.zero_add] at this

end Sys2Proof.Machine
end

