-- ==== Sys2Proof/Laws/Transform.lean ====
section
/-! SUPPORT. The laws of the rotation transform and of the nibble place: range, inverse, distinct pixels have distinct nibbles,
and what a nibble merge keeps. -/

namespace Sys2Proof.Machine

/-- The four rotations, for case analysis. -/
theorem rotation_cases (r : BitVec 2) : r = 0#2 ∨ r = 1#2 ∨ r = 2#2 ∨ r = 3#2 := by
  revert r; decide

@[simp] theorem logicalWidth_zero : logicalWidth 0#2 = 600 := rfl
@[simp] theorem logicalWidth_one : logicalWidth 1#2 = 448 := rfl
@[simp] theorem logicalWidth_two : logicalWidth 2#2 = 600 := rfl
@[simp] theorem logicalWidth_three : logicalWidth 3#2 = 448 := rfl
@[simp] theorem logicalHeight_zero : logicalHeight 0#2 = 448 := rfl
@[simp] theorem logicalHeight_one : logicalHeight 1#2 = 600 := rfl
@[simp] theorem logicalHeight_two : logicalHeight 2#2 = 448 := rfl
@[simp] theorem logicalHeight_three : logicalHeight 3#2 = 600 := rfl
@[simp] theorem phys_zero (x y : Int) : phys 0#2 x y = (600 - 1 - x, 448 - 1 - y) := rfl
@[simp] theorem phys_one (x y : Int) : phys 1#2 x y = (y, 448 - 1 - x) := rfl
@[simp] theorem phys_two (x y : Int) : phys 2#2 x y = (x, y) := rfl
@[simp] theorem phys_three (x y : Int) : phys 3#2 x y = (600 - 1 - y, x) := rfl
@[simp] theorem unphys_zero (x y : Int) : unphys 0#2 x y = (600 - 1 - x, 448 - 1 - y) := rfl
@[simp] theorem unphys_one (x y : Int) : unphys 1#2 x y = (448 - 1 - y, x) := rfl
@[simp] theorem unphys_two (x y : Int) : unphys 2#2 x y = (x, y) := rfl
@[simp] theorem unphys_three (x y : Int) : unphys 3#2 x y = (y, 600 - 1 - x) := rfl

theorem inBounds_iff (r : BitVec 2) (x y : Int) :
    inBounds r x y = true ↔ 0 ≤ x ∧ x < logicalWidth r ∧ 0 ≤ y ∧ y < logicalHeight r := by
  simp [inBounds, and_assoc]

/-- An in-bounds logical pixel is a pixel of the panel (R175). -/
theorem phys_range {r : BitVec 2} {x y : Int} (h : inBounds r x y = true) :
    0 ≤ (phys r x y).1 ∧ (phys r x y).1 < 600 ∧ 0 ≤ (phys r x y).2 ∧ (phys r x y).2 < 448 := by
  rw [inBounds_iff] at h
  rcases rotation_cases r with rfl | rfl | rfl | rfl <;> simp at h ⊢ <;> omega

/-- The inverse maps of R174. -/
theorem unphys_phys (r : BitVec 2) (x y : Int) : unphys r (phys r x y).1 (phys r x y).2 = (x, y) := by
  rcases rotation_cases r with rfl | rfl | rfl | rfl <;> simp

theorem phys_unphys (r : BitVec 2) (px py : Int) : phys r (unphys r px py).1 (unphys r px py).2 = (px, py) := by
  rcases rotation_cases r with rfl | rfl | rfl | rfl <;> simp

theorem indexOf_eq (px py : Nat) : indexOf px py = 300 * py + px / 2 := by
  have h : Config.cols = 600 := rfl
  rw [indexOf, h]
  omega

theorem sideOf_high {px : Nat} : sideOf px = .high ↔ px % 2 = 0 := by
  unfold sideOf; split <;> simp_all

theorem sideOf_inj {p q : Nat} (h : sideOf p = sideOf q) : p % 2 = q % 2 := by
  rcases Nat.mod_two_eq_zero_or_one p with hp | hp <;> rcases Nat.mod_two_eq_zero_or_one q with hq | hq <;>
    simp_all [sideOf]

theorem pixelIndex_lt {r : BitVec 2} {x y : Int} (h : inBounds r x y = true) : pixelIndex r x y < Config.fbBytes := by
  have hp := phys_range h
  rw [pixelIndex, indexOf_eq, fbBytes_eq]
  omega

/-- Distinct in-bounds logical pixels have distinct nibbles (R176). -/
theorem pixel_inj {r : BitVec 2} {x y u v : Int} (h : inBounds r x y = true) (h' : inBounds r u v = true)
    (hi : pixelIndex r x y = pixelIndex r u v) (hs : pixelSide r x y = pixelSide r u v) : x = u ∧ y = v := by
  have hp := phys_range h
  have hp' := phys_range h'
  have hm := sideOf_inj hs
  rw [pixelIndex, pixelIndex, indexOf_eq, indexOf_eq] at hi
  have h1 : (phys r x y).1 = (phys r u v).1 := by omega
  have h2 : (phys r x y).2 = (phys r u v).2 := by omega
  have e1 := unphys_phys r x y
  rw [h1, h2, unphys_phys] at e1
  simpa [eq_comm] using e1

/-! ## Nibbles -/

/-- The merged byte has the colour on its side (R54). -/
@[simp] theorem nibbleAt_merge_same (old : Byte) (sd : Side) (c : Nibble) : nibbleAt (mergeNibble old sd c) sd = c := by
  ext i hi
  have : i = 0 ∨ i = 1 ∨ i = 2 ∨ i = 3 := by omega
  cases sd <;> rcases this with rfl | rfl | rfl | rfl <;>
    simp [nibbleAt, mergeNibble, Side.shift, Side.keep]

/-- The merged byte keeps the other nibble (R54). -/
theorem nibbleAt_merge_other (old : Byte) {sd sd' : Side} (c : Nibble) (h : sd' ≠ sd) :
    nibbleAt (mergeNibble old sd c) sd' = nibbleAt old sd' := by
  ext i hi
  have : i = 0 ∨ i = 1 ∨ i = 2 ∨ i = 3 := by omega
  cases sd <;> cases sd' <;>
    first
    | exact absurd rfl h
    | (rcases this with rfl | rfl | rfl | rfl <;> simp [nibbleAt, mergeNibble, Side.shift, Side.keep])

/-- A byte is its two nibbles. -/
theorem byte_eq_of_nibbles {u v : Byte} (hh : nibbleAt u .high = nibbleAt v .high)
    (hl : nibbleAt u .low = nibbleAt v .low) : u = v := by
  have h1 := congrArg BitVec.toNat hh
  have h2 := congrArg BitVec.toNat hl
  simp only [nibbleAt, Side.shift, BitVec.extractLsb'_toNat, Nat.shiftRight_eq_div_pow] at h1 h2
  apply BitVec.eq_of_toNat_eq
  have := u.isLt
  have := v.isLt
  omega

end Sys2Proof.Machine
end

