-- ==== Sys2Proof/Laws/Draw.lean ====
section
/-! SUPPORT. What a drawing operation can do, said once: with a legal colour it paints a list of pixels and changes nothing else;
what a painted list reads as, that it keeps the canonical form, and that only the set of pixels matters. -/

namespace Sys2Proof.Machine

/-- The framebuffer after one pixel of colour `c`: in bounds one nibble changes, out of bounds nothing. -/
def paint (r : BitVec 2) (c : Nibble) (m : List Host.Cell) (p : Int × Int) : List Host.Cell :=
  if inBounds r p.1 p.2 then
    fbWrite m (pixelIndex r p.1 p.2) (mergeNibble (fbRead m (pixelIndex r p.1 p.2)) (pixelSide r p.1 p.2) c)
  else m

/-- The framebuffer after a list of pixels, the first one first. -/
def paintAll (r : BitVec 2) (c : Nibble) (m : List Host.Cell) (ps : List (Int × Int)) : List Host.Cell :=
  ps.foldl (paint r c) m

/-- The pixels of a horizontal run, a vertical run, a rectangle and a bitmap, in the order of the loops. -/
def hlinePixels (x y : Int) (w : Nat) : List (Int × Int) := (List.range w).map fun (i : Nat) => (x + (i : Int), y)
def vlinePixels (x y : Int) (h : Nat) : List (Int × Int) := (List.range h).map fun (j : Nat) => (x, y + (j : Int))
def rectPixels (x y : Int) (w h : Nat) : List (Int × Int) :=
  (List.range h).flatMap fun (j : Nat) => hlinePixels x (y + (j : Int)) w
def bitmapRow (x y : Int) (data : List Byte) (w j : Nat) : List (Int × Int) :=
  ((List.range w).filter fun (i : Nat) => bitmapBit data (bitmapStride w) j i).map fun (i : Nat) => (x + (i : Int), y + (j : Int))
def bitmapPixels (x y : Int) (data : List Byte) (w h : Nat) : List (Int × Int) :=
  (List.range h).flatMap fun (j : Nat) => bitmapRow x y data w j

theorem mem_hlinePixels {x y u v : Int} {w : Nat} :
    (u, v) ∈ hlinePixels x y w ↔ v = y ∧ x ≤ u ∧ u < x + w := by
  simp only [hlinePixels, List.mem_map, List.mem_range, Prod.mk.injEq]
  constructor
  · rintro ⟨i, hi, rfl, rfl⟩; omega
  · rintro ⟨rfl, h1, h2⟩; exact ⟨(u - x).toNat, by omega, by omega, rfl⟩

theorem mem_vlinePixels {x y u v : Int} {h : Nat} :
    (u, v) ∈ vlinePixels x y h ↔ u = x ∧ y ≤ v ∧ v < y + h := by
  simp only [vlinePixels, List.mem_map, List.mem_range, Prod.mk.injEq]
  constructor
  · rintro ⟨i, hi, rfl, rfl⟩; omega
  · rintro ⟨rfl, h1, h2⟩; exact ⟨(v - y).toNat, by omega, rfl, by omega⟩

theorem mem_rectPixels {x y u v : Int} {w h : Nat} :
    (u, v) ∈ rectPixels x y w h ↔ (x ≤ u ∧ u < x + w) ∧ (y ≤ v ∧ v < y + h) := by
  simp only [rectPixels, List.mem_flatMap, List.mem_range, mem_hlinePixels]
  constructor
  · rintro ⟨j, hj, rfl, h1, h2⟩; omega
  · rintro ⟨⟨h1, h2⟩, h3, h4⟩; exact ⟨(v - y).toNat, by omega, by omega, h1, h2⟩

theorem mem_bitmapPixels {x y u v : Int} {data : List Byte} {w h : Nat} :
    (u, v) ∈ bitmapPixels x y data w h ↔ ((x ≤ u ∧ u < x + w) ∧ (y ≤ v ∧ v < y + h)) ∧
      bitmapBit data (bitmapStride w) (v - y).toNat (u - x).toNat = true := by
  simp only [bitmapPixels, bitmapRow, List.mem_flatMap, List.mem_range, List.mem_map, List.mem_filter, Prod.mk.injEq]
  constructor
  · rintro ⟨j, hj, i, ⟨hi, hb⟩, rfl, rfl⟩
    refine ⟨by omega, ?_⟩
    rwa [show (y + (j : Int) - y).toNat = j by omega, show (x + (i : Int) - x).toNat = i by omega]
  · rintro ⟨⟨⟨h1, h2⟩, h3, h4⟩, hb⟩
    exact ⟨(v - y).toNat, by omega, (u - x).toNat, ⟨by omega, hb⟩, by omega, by omega⟩

/-! ## One pixel -/

theorem putPixel_legal {x y : Int} {c : Nibble} {s : State} (hc : colorReserved c = false) :
    putPixel x y c s = .going { s with fb := paint s.rotation c s.fb (x, y) } := by
  cases h : inBounds s.rotation x y <;> simp [putPixel, hc, paint, nibbleWrite, h]

theorem putPixel_reserved {x y : Int} {c : Nibble} {s : State} (hc : colorReserved c = true) :
    putPixel x y c s = .faulted (raiseFault .reservedColor s) := by
  simp [putPixel, hc]

theorem wf_paint {r : BitVec 2} {c : Nibble} {m : List Host.Cell} {p : Int × Int} (hm : Memory.wf m = true) :
    Memory.wf (paint r c m p) = true := by
  unfold paint
  split
  · exact wf_fbWrite hm (pixelIndex_lt ‹_›)
  · exact hm

theorem pixelAt_paint_same {r : BitVec 2} {c : Nibble} {m : List Host.Cell} {x y : Int} (hm : Memory.wf m = true)
    (h : inBounds r x y = true) : pixelAt (paint r c m (x, y)) r x y = c := by
  simp [pixelAt, paint, h, fbRead_fbWrite_same hm]

theorem pixelAt_paint_other {r : BitVec 2} {c : Nibble} {m : List Host.Cell} {x y u v : Int}
    (hm : Memory.wf m = true) (h : inBounds r u v = true) (hne : (u, v) ≠ (x, y)) :
    pixelAt (paint r c m (x, y)) r u v = pixelAt m r u v := by
  unfold paint
  split
  · next hb =>
    by_cases hi : pixelIndex r u v = pixelIndex r x y
    · have hs : pixelSide r u v ≠ pixelSide r x y := fun hs => hne (by
        obtain ⟨h1, h2⟩ := pixel_inj h hb hi hs
        rw [h1, h2])
      simp only [pixelAt, hi]
      rw [fbRead_fbWrite_same hm, nibbleAt_merge_other _ _ hs]
    · simp only [pixelAt]
      rw [fbRead_fbWrite_other hi]
  · rfl

theorem fbRead_paint_other {r : BitVec 2} {c : Nibble} {m : List Host.Cell} {p : Int × Int} {i : Nat}
    (h : inBounds r p.1 p.2 = true → pixelIndex r p.1 p.2 ≠ i) : fbRead (paint r c m p) i = fbRead m i := by
  unfold paint
  split
  · exact fbRead_fbWrite_other (Ne.symm (h ‹_›))
  · rfl

/-! ## Lists of pixels -/

theorem wf_paintAll {r : BitVec 2} {c : Nibble} {m : List Host.Cell} {ps : List (Int × Int)} (hm : Memory.wf m = true) :
    Memory.wf (paintAll r c m ps) = true := by
  induction ps generalizing m with
  | nil => exact hm
  | cons p ps ih => exact ih (wf_paint hm)

/-- What an in-bounds pixel holds after a list has been painted. -/
theorem pixelAt_paintAll {r : BitVec 2} {c : Nibble} {m : List Host.Cell} {ps : List (Int × Int)} {u v : Int}
    (hm : Memory.wf m = true) (h : inBounds r u v = true) :
    pixelAt (paintAll r c m ps) r u v = if (u, v) ∈ ps then c else pixelAt m r u v := by
  induction ps generalizing m with
  | nil => simp [paintAll]
  | cons p ps ih =>
    have hstep : paintAll r c m (p :: ps) = paintAll r c (paint r c m p) ps := rfl
    rw [hstep, ih (wf_paint hm)]
    by_cases hmem : (u, v) ∈ ps
    · simp [hmem]
    · by_cases hp : (u, v) = p
      · subst hp
        simp [hmem, pixelAt_paint_same hm h]
      · simp [hmem, hp, pixelAt_paint_other hm h hp]

/-- A byte that holds no painted pixel is unchanged. -/
theorem fbRead_paintAll_other {r : BitVec 2} {c : Nibble} {m : List Host.Cell} {ps : List (Int × Int)} {i : Nat}
    (h : ∀ p ∈ ps, inBounds r p.1 p.2 = true → pixelIndex r p.1 p.2 ≠ i) :
    fbRead (paintAll r c m ps) i = fbRead m i := by
  induction ps generalizing m with
  | nil => rfl
  | cons p ps ih =>
    have hstep : paintAll r c m (p :: ps) = paintAll r c (paint r c m p) ps := rfl
    rw [hstep, ih fun q hq => h q (List.mem_cons_of_mem p hq), fbRead_paint_other (h p List.mem_cons_self)]

/-- Every physical nibble is an in-bounds pixel's nibble (R176). -/
theorem exists_pixel (r : BitVec 2) {i : Nat} (h : i < Config.fbBytes) (sd : Side) :
    ∃ u v, inBounds r u v = true ∧ pixelIndex r u v = i ∧ pixelSide r u v = sd := by
  rw [fbBytes_eq] at h
  obtain ⟨px, hpx, hside, hidx⟩ : ∃ px : Nat, px < 600 ∧ sideOf px = sd ∧ px / 2 = i % 300 := by
    cases sd
    · exact ⟨2 * (i % 300), by omega, by simp [sideOf], by omega⟩
    · exact ⟨2 * (i % 300) + 1, by omega, by simp [sideOf], by omega⟩
  have hphys := phys_unphys r px ((i / 300 : Nat) : Int)
  refine ⟨(unphys r px ((i / 300 : Nat) : Int)).1, (unphys r px ((i / 300 : Nat) : Int)).2, ?_, ?_, ?_⟩
  · rw [inBounds_iff]
    rcases rotation_cases r with rfl | rfl | rfl | rfl <;> simp <;> omega
  · rw [pixelIndex, hphys, indexOf_eq]
    simp only [Int.toNat_natCast]
    omega
  · rw [pixelSide, hphys]
    simpa using hside

/-- Equal pixels are equal framebuffers. -/
theorem fb_ext_pixels {r : BitVec 2} {m m' : List Host.Cell} (hm : Memory.wf m = true) (hm' : Memory.wf m' = true)
    (h : ∀ u v, inBounds r u v = true → pixelAt m r u v = pixelAt m' r u v) : m = m' := by
  refine fb_ext hm hm' fun i hi => byte_eq_of_nibbles ?_ ?_
  · obtain ⟨u, v, hb, h1, h2⟩ := exists_pixel r hi .high
    have := h u v hb
    rwa [pixelAt, pixelAt, h1, h2] at this
  · obtain ⟨u, v, hb, h1, h2⟩ := exists_pixel r hi .low
    have := h u v hb
    rwa [pixelAt, pixelAt, h1, h2] at this

/-- Only the set of painted pixels matters, not their order (R205). -/
theorem paintAll_congr {r : BitVec 2} {c : Nibble} {m : List Host.Cell} {ps qs : List (Int × Int)}
    (hm : Memory.wf m = true) (h : ∀ p, p ∈ ps ↔ p ∈ qs) : paintAll r c m ps = paintAll r c m qs :=
  fb_ext_pixels (r := r) (wf_paintAll hm) (wf_paintAll hm) fun u v hb => by
    simp only [pixelAt_paintAll hm hb, h (u, v)]

/-! ## The loops -/

theorem forUp_zero (body : Nat → State → Flow) (s : State) : forUp 0 body s = .going s := rfl

theorem forUp_succ (n : Nat) (body : Nat → State → Flow) (s : State) :
    forUp (n + 1) body s = (forUp n body s).andThen (body n) := rfl

theorem paintAll_append (r : BitVec 2) (c : Nibble) (m : List Host.Cell) (ps qs : List (Int × Int)) :
    paintAll r c m (ps ++ qs) = paintAll r c (paintAll r c m ps) qs := by
  simp [paintAll]

/-- A loop whose `i`-th round paints the list `ps i` paints the lists one after the other. -/
theorem forUp_paint {body : Nat → State → Flow} {c : Nibble} {ps : Nat → List (Int × Int)}
    (hb : ∀ i t, body i t = .going { t with fb := paintAll t.rotation c t.fb (ps i) }) (n : Nat) (s : State) :
    forUp n body s = .going { s with fb := paintAll s.rotation c s.fb ((List.range n).flatMap ps) } := by
  induction n with
  | zero => rfl
  | succ n ih =>
    rw [forUp_succ, ih]
    simp only [Flow.andThen, hb]
    simp [List.range_succ, paintAll_append]

/-- A loop whose first round faults takes that fault. -/
theorem forUp_faulted {body : Nat → State → Flow} {n : Nat} {s t : State} (hn : 0 < n) (hb : body 0 s = .faulted t) :
    forUp n body s = .faulted t := by
  induction n with
  | zero => omega
  | succ n ih =>
    rcases Nat.eq_zero_or_pos n with rfl | hpos
    · simp [forUp_succ, forUp_zero, Flow.andThen, hb]
    · rw [forUp_succ, ih hpos]; rfl

theorem flatMap_singleton_map {α β : Type} (l : List α) (f : α → β) : l.flatMap (fun i => [f i]) = l.map f := by
  induction l with
  | nil => rfl
  | cons a l ih => simp [ih]

theorem drawHLine_legal {x y w : Int} {c : Nibble} {s : State} (hc : colorReserved c = false) :
    drawHLine x y w c s = .going { s with fb := paintAll s.rotation c s.fb (hlinePixels x y w.toNat) } := by
  unfold drawHLine
  rw [forUp_paint (ps := fun i => [(x + (i : Int), y)]) (c := c) fun i t => by rw [putPixel_legal hc]; rfl]
  rw [flatMap_singleton_map]
  rfl

theorem drawVLine_legal {x y h : Int} {c : Nibble} {s : State} (hc : colorReserved c = false) :
    drawVLine x y h c s = .going { s with fb := paintAll s.rotation c s.fb (vlinePixels x y h.toNat) } := by
  unfold drawVLine
  rw [forUp_paint (ps := fun j => [(x, y + (j : Int))]) (c := c) fun i t => by rw [putPixel_legal hc]; rfl]
  rw [flatMap_singleton_map]
  rfl

theorem drawRect_legal {x y w h : Int} {c : Nibble} {s : State} (hc : colorReserved c = false) :
    drawRect x y w h c s = .going { s with fb := paintAll s.rotation c s.fb (rectPixels x y w.toNat h.toNat) } := by
  unfold drawRect
  exact forUp_paint (ps := fun j => hlinePixels x (y + (j : Int)) w.toNat)
    (fun j t => drawHLine_legal (y := y + (j : Int)) hc) h.toNat s

theorem drawBits_legal {x y w h : Int} {data : List Byte} {c : Nibble} {s : State} (hc : colorReserved c = false) :
    drawBits x y data w h c s =
      .going { s with fb := paintAll s.rotation c s.fb (bitmapPixels x y data w.toNat h.toNat) } := by
  unfold drawBits
  refine forUp_paint (ps := fun j => bitmapRow x y data w.toNat j) (fun j t => ?_) h.toNat s
  rw [forUp_paint (ps := fun i =>
    if bitmapBit data (bitmapStride w.toNat) j i then [(x + (i : Int), y + (j : Int))] else []) (c := c) fun i t => by
      by_cases hb : bitmapBit data (bitmapStride w.toNat) j i = true
      · simp [hb, putPixel_legal hc, paintAll]
      · simp [hb, paintAll]]
  congr 3
  unfold bitmapRow
  induction List.range w.toNat with
  | nil => rfl
  | cons i l ih =>
    by_cases hb : bitmapBit data (bitmapStride w.toNat) j i = true <;> simp [hb, ih]

end Sys2Proof.Machine
end

