-- ==== Sys2Proof/Laws/State.lean ====
section
/-! SUPPORT. One lemma per field and update: what each named operation leaves in each field of the state, by rfl, so that no
proof unfolds a record update. -/

namespace Sys2Proof.Machine

/-! ## readClock -/

@[simp] theorem readClock_fb (s : State) : (readClock s).fb = s.fb := rfl
@[simp] theorem readClock_fbLen (s : State) : (readClock s).fbLen = s.fbLen := rfl
@[simp] theorem readClock_rotation (s : State) : (readClock s).rotation = s.rotation := rfl
@[simp] theorem readClock_panelState (s : State) : (readClock s).panelState = s.panelState := rfl
@[simp] theorem readClock_rst (s : State) : (readClock s).rst = s.rst := rfl
@[simp] theorem readClock_dc (s : State) : (readClock s).dc = s.dc := rfl
@[simp] theorem readClock_cs (s : State) : (readClock s).cs = s.cs := rfl
@[simp] theorem readClock_seq (s : State) : (readClock s).seq = s.seq := rfl
@[simp] theorem readClock_upc (s : State) : (readClock s).upc = s.upc := rfl
@[simp] theorem readClock_t0 (s : State) : (readClock s).t0 = s.t0 := rfl
@[simp] theorem readClock_req (s : State) : (readClock s).req = s.req := rfl
@[simp] theorem readClock_rcode (s : State) : (readClock s).rcode = s.rcode := rfl
@[simp] theorem readClock_result (s : State) : (readClock s).result = s.result := rfl
@[simp] theorem readClock_fault (s : State) : (readClock s).fault = s.fault := rfl
@[simp] theorem readClock_rom (s : State) : (readClock s).rom = s.rom := rfl
@[simp] theorem readClock_port (s : State) : (readClock s).port = s.port := rfl
@[simp] theorem readClock_clock (s : State) : (readClock s).clock = s.clock.read := rfl
@[simp] theorem readClock_busy (s : State) : (readClock s).busy = s.busy := rfl
@[simp] theorem readClock_trace (s : State) : (readClock s).trace = s.trace := rfl
@[simp] theorem readClock_completed (s : State) : (readClock s).completed = s.completed := rfl

/-! ## record -/

@[simp] theorem record_fb (k : EventKind) (s : State) : (record k s).fb = s.fb := rfl
@[simp] theorem record_fbLen (k : EventKind) (s : State) : (record k s).fbLen = s.fbLen := rfl
@[simp] theorem record_rotation (k : EventKind) (s : State) : (record k s).rotation = s.rotation := rfl
@[simp] theorem record_panelState (k : EventKind) (s : State) : (record k s).panelState = s.panelState := rfl
@[simp] theorem record_rst (k : EventKind) (s : State) : (record k s).rst = s.rst := rfl
@[simp] theorem record_dc (k : EventKind) (s : State) : (record k s).dc = s.dc := rfl
@[simp] theorem record_cs (k : EventKind) (s : State) : (record k s).cs = s.cs := rfl
@[simp] theorem record_seq (k : EventKind) (s : State) : (record k s).seq = s.seq := rfl
@[simp] theorem record_upc (k : EventKind) (s : State) : (record k s).upc = s.upc := rfl
@[simp] theorem record_t0 (k : EventKind) (s : State) : (record k s).t0 = s.t0 := rfl
@[simp] theorem record_req (k : EventKind) (s : State) : (record k s).req = s.req := rfl
@[simp] theorem record_rcode (k : EventKind) (s : State) : (record k s).rcode = s.rcode := rfl
@[simp] theorem record_result (k : EventKind) (s : State) : (record k s).result = s.result := rfl
@[simp] theorem record_fault (k : EventKind) (s : State) : (record k s).fault = s.fault := rfl
@[simp] theorem record_rom (k : EventKind) (s : State) : (record k s).rom = s.rom := rfl
@[simp] theorem record_port (k : EventKind) (s : State) : (record k s).port = s.port := rfl
@[simp] theorem record_clock (k : EventKind) (s : State) : (record k s).clock = s.clock.read := rfl
@[simp] theorem record_busy (k : EventKind) (s : State) : (record k s).busy = s.busy := rfl
@[simp] theorem record_trace (k : EventKind) (s : State) : (record k s).trace = s.trace ++ [{ time := s.clock.read.now, kind := k }] :=
  rfl
@[simp] theorem record_completed (k : EventKind) (s : State) : (record k s).completed = s.completed := rfl

/-! ## setLine -/

@[simp] theorem setLine_fb (l : Line) (v : Bool) (s : State) : (setLine l v s).fb = s.fb := by cases l <;> rfl
@[simp] theorem setLine_fbLen (l : Line) (v : Bool) (s : State) : (setLine l v s).fbLen = s.fbLen := by cases l <;> rfl
@[simp] theorem setLine_rotation (l : Line) (v : Bool) (s : State) : (setLine l v s).rotation = s.rotation := by cases l <;> rfl
@[simp] theorem setLine_panelState (l : Line) (v : Bool) (s : State) : (setLine l v s).panelState = s.panelState := by cases l <;> rfl
@[simp] theorem setLine_seq (l : Line) (v : Bool) (s : State) : (setLine l v s).seq = s.seq := by cases l <;> rfl
@[simp] theorem setLine_upc (l : Line) (v : Bool) (s : State) : (setLine l v s).upc = s.upc := by cases l <;> rfl
@[simp] theorem setLine_t0 (l : Line) (v : Bool) (s : State) : (setLine l v s).t0 = s.t0 := by cases l <;> rfl
@[simp] theorem setLine_req (l : Line) (v : Bool) (s : State) : (setLine l v s).req = s.req := by cases l <;> rfl
@[simp] theorem setLine_rcode (l : Line) (v : Bool) (s : State) : (setLine l v s).rcode = s.rcode := by cases l <;> rfl
@[simp] theorem setLine_result (l : Line) (v : Bool) (s : State) : (setLine l v s).result = s.result := by cases l <;> rfl
@[simp] theorem setLine_fault (l : Line) (v : Bool) (s : State) : (setLine l v s).fault = s.fault := by cases l <;> rfl
@[simp] theorem setLine_rom (l : Line) (v : Bool) (s : State) : (setLine l v s).rom = s.rom := by cases l <;> rfl
@[simp] theorem setLine_port (l : Line) (v : Bool) (s : State) : (setLine l v s).port = s.port := by cases l <;> rfl
@[simp] theorem setLine_clock (l : Line) (v : Bool) (s : State) : (setLine l v s).clock = s.clock := by cases l <;> rfl
@[simp] theorem setLine_busy (l : Line) (v : Bool) (s : State) : (setLine l v s).busy = s.busy := by cases l <;> rfl
@[simp] theorem setLine_trace (l : Line) (v : Bool) (s : State) : (setLine l v s).trace = s.trace := by cases l <;> rfl
@[simp] theorem setLine_completed (l : Line) (v : Bool) (s : State) : (setLine l v s).completed = s.completed := by cases l <;> rfl

/-! ## driveLine -/

@[simp] theorem driveLine_fb (l : Line) (v : Bool) (s : State) : (driveLine l v s).fb = s.fb := by cases l <;> rfl
@[simp] theorem driveLine_fbLen (l : Line) (v : Bool) (s : State) : (driveLine l v s).fbLen = s.fbLen := by cases l <;> rfl
@[simp] theorem driveLine_rotation (l : Line) (v : Bool) (s : State) : (driveLine l v s).rotation = s.rotation := by cases l <;> rfl
@[simp] theorem driveLine_panelState (l : Line) (v : Bool) (s : State) : (driveLine l v s).panelState = s.panelState := by cases l <;> rfl
@[simp] theorem driveLine_seq (l : Line) (v : Bool) (s : State) : (driveLine l v s).seq = s.seq := by cases l <;> rfl
@[simp] theorem driveLine_upc (l : Line) (v : Bool) (s : State) : (driveLine l v s).upc = s.upc := by cases l <;> rfl
@[simp] theorem driveLine_t0 (l : Line) (v : Bool) (s : State) : (driveLine l v s).t0 = s.t0 := by cases l <;> rfl
@[simp] theorem driveLine_req (l : Line) (v : Bool) (s : State) : (driveLine l v s).req = s.req := by cases l <;> rfl
@[simp] theorem driveLine_rcode (l : Line) (v : Bool) (s : State) : (driveLine l v s).rcode = s.rcode := by cases l <;> rfl
@[simp] theorem driveLine_result (l : Line) (v : Bool) (s : State) : (driveLine l v s).result = s.result := by cases l <;> rfl
@[simp] theorem driveLine_fault (l : Line) (v : Bool) (s : State) : (driveLine l v s).fault = s.fault := by cases l <;> rfl
@[simp] theorem driveLine_rom (l : Line) (v : Bool) (s : State) : (driveLine l v s).rom = s.rom := by cases l <;> rfl
@[simp] theorem driveLine_port (l : Line) (v : Bool) (s : State) : (driveLine l v s).port = s.port := by cases l <;> rfl
@[simp] theorem driveLine_clock (l : Line) (v : Bool) (s : State) : (driveLine l v s).clock = s.clock.read := by cases l <;> rfl
@[simp] theorem driveLine_busy (l : Line) (v : Bool) (s : State) : (driveLine l v s).busy = s.busy := by cases l <;> rfl
@[simp] theorem driveLine_trace (l : Line) (v : Bool) (s : State) : (driveLine l v s).trace = s.trace ++ [{ time := s.clock.read.now, kind := .line l v }] := by cases l <;> rfl
@[simp] theorem driveLine_completed (l : Line) (v : Bool) (s : State) : (driveLine l v s).completed = s.completed := by cases l <;> rfl

/-! ## The lines, one by one -/

@[simp] theorem setLine_rst_same (v : Bool) (s : State) : (setLine .rst v s).rst = v := rfl
@[simp] theorem setLine_dc_same (v : Bool) (s : State) : (setLine .dc v s).dc = v := rfl
@[simp] theorem setLine_cs_same (v : Bool) (s : State) : (setLine .cs v s).cs = v := rfl
@[simp] theorem driveLine_rst_rst (v : Bool) (s : State) : (driveLine .rst v s).rst = v := rfl
@[simp] theorem driveLine_rst_dc (v : Bool) (s : State) : (driveLine .rst v s).dc = s.dc := rfl
@[simp] theorem driveLine_rst_cs (v : Bool) (s : State) : (driveLine .rst v s).cs = s.cs := rfl
@[simp] theorem driveLine_dc_rst (v : Bool) (s : State) : (driveLine .dc v s).rst = s.rst := rfl
@[simp] theorem driveLine_dc_dc (v : Bool) (s : State) : (driveLine .dc v s).dc = v := rfl
@[simp] theorem driveLine_dc_cs (v : Bool) (s : State) : (driveLine .dc v s).cs = s.cs := rfl
@[simp] theorem driveLine_cs_rst (v : Bool) (s : State) : (driveLine .cs v s).rst = s.rst := rfl
@[simp] theorem driveLine_cs_dc (v : Bool) (s : State) : (driveLine .cs v s).dc = s.dc := rfl
@[simp] theorem driveLine_cs_cs (v : Bool) (s : State) : (driveLine .cs v s).cs = v := rfl

/-! ## busWrite -/

@[simp] theorem busWrite_fb (bs : List Byte) (s : State) : (busWrite bs s).fb = s.fb := rfl
@[simp] theorem busWrite_fbLen (bs : List Byte) (s : State) : (busWrite bs s).fbLen = s.fbLen := rfl
@[simp] theorem busWrite_rotation (bs : List Byte) (s : State) : (busWrite bs s).rotation = s.rotation := rfl
@[simp] theorem busWrite_panelState (bs : List Byte) (s : State) : (busWrite bs s).panelState = s.panelState := rfl
@[simp] theorem busWrite_rst (bs : List Byte) (s : State) : (busWrite bs s).rst = s.rst := rfl
@[simp] theorem busWrite_dc (bs : List Byte) (s : State) : (busWrite bs s).dc = s.dc := rfl
@[simp] theorem busWrite_cs (bs : List Byte) (s : State) : (busWrite bs s).cs = s.cs := rfl
@[simp] theorem busWrite_seq (bs : List Byte) (s : State) : (busWrite bs s).seq = s.seq := rfl
@[simp] theorem busWrite_upc (bs : List Byte) (s : State) : (busWrite bs s).upc = s.upc := rfl
@[simp] theorem busWrite_t0 (bs : List Byte) (s : State) : (busWrite bs s).t0 = s.t0 := rfl
@[simp] theorem busWrite_req (bs : List Byte) (s : State) : (busWrite bs s).req = s.req := rfl
@[simp] theorem busWrite_rcode (bs : List Byte) (s : State) : (busWrite bs s).rcode = s.rcode := rfl
@[simp] theorem busWrite_result (bs : List Byte) (s : State) : (busWrite bs s).result = s.result := rfl
@[simp] theorem busWrite_fault (bs : List Byte) (s : State) : (busWrite bs s).fault = s.fault := rfl
@[simp] theorem busWrite_rom (bs : List Byte) (s : State) : (busWrite bs s).rom = s.rom := rfl
@[simp] theorem busWrite_port (bs : List Byte) (s : State) : (busWrite bs s).port = s.port := rfl
@[simp] theorem busWrite_clock (bs : List Byte) (s : State) : (busWrite bs s).clock = s.clock.read := rfl
@[simp] theorem busWrite_busy (bs : List Byte) (s : State) : (busWrite bs s).busy = s.busy := rfl
@[simp] theorem busWrite_trace (bs : List Byte) (s : State) : (busWrite bs s).trace = s.trace ++ [{ time := s.clock.read.now, kind := .write bs }] :=
  rfl
@[simp] theorem busWrite_completed (bs : List Byte) (s : State) : (busWrite bs s).completed = s.completed := rfl

/-! ## sendCommand -/

@[simp] theorem sendCommand_fb (bs : List Byte) (s : State) : (sendCommand bs s).fb = s.fb := by
  simp [sendCommand]
@[simp] theorem sendCommand_fbLen (bs : List Byte) (s : State) : (sendCommand bs s).fbLen = s.fbLen := by
  simp [sendCommand]
@[simp] theorem sendCommand_rotation (bs : List Byte) (s : State) : (sendCommand bs s).rotation = s.rotation := by
  simp [sendCommand]
@[simp] theorem sendCommand_panelState (bs : List Byte) (s : State) : (sendCommand bs s).panelState = s.panelState := by
  simp [sendCommand]
@[simp] theorem sendCommand_rst (bs : List Byte) (s : State) : (sendCommand bs s).rst = s.rst := by
  simp [sendCommand]
@[simp] theorem sendCommand_dc (bs : List Byte) (s : State) : (sendCommand bs s).dc = false := by
  simp [sendCommand]
@[simp] theorem sendCommand_cs (bs : List Byte) (s : State) : (sendCommand bs s).cs = true := by
  simp [sendCommand]
@[simp] theorem sendCommand_seq (bs : List Byte) (s : State) : (sendCommand bs s).seq = s.seq := by
  simp [sendCommand]
@[simp] theorem sendCommand_upc (bs : List Byte) (s : State) : (sendCommand bs s).upc = s.upc := by
  simp [sendCommand]
@[simp] theorem sendCommand_t0 (bs : List Byte) (s : State) : (sendCommand bs s).t0 = s.t0 := by
  simp [sendCommand]
@[simp] theorem sendCommand_req (bs : List Byte) (s : State) : (sendCommand bs s).req = s.req := by
  simp [sendCommand]
@[simp] theorem sendCommand_rcode (bs : List Byte) (s : State) : (sendCommand bs s).rcode = s.rcode := by
  simp [sendCommand]
@[simp] theorem sendCommand_result (bs : List Byte) (s : State) : (sendCommand bs s).result = s.result := by
  simp [sendCommand]
@[simp] theorem sendCommand_fault (bs : List Byte) (s : State) : (sendCommand bs s).fault = s.fault := by
  simp [sendCommand]
@[simp] theorem sendCommand_rom (bs : List Byte) (s : State) : (sendCommand bs s).rom = s.rom := by
  simp [sendCommand]
@[simp] theorem sendCommand_port (bs : List Byte) (s : State) : (sendCommand bs s).port = s.port := by
  simp [sendCommand]
@[simp] theorem sendCommand_clock (bs : List Byte) (s : State) : (sendCommand bs s).clock = s.clock.read.read.read.read := by
  simp [sendCommand]
@[simp] theorem sendCommand_busy (bs : List Byte) (s : State) : (sendCommand bs s).busy = s.busy := by
  simp [sendCommand]
@[simp] theorem sendCommand_completed (bs : List Byte) (s : State) : (sendCommand bs s).completed = s.completed := by
  simp [sendCommand]

/-! ## sendData -/

@[simp] theorem sendData_fb (bs : List Byte) (s : State) : (sendData bs s).fb = s.fb := by
  simp [sendData]
@[simp] theorem sendData_fbLen (bs : List Byte) (s : State) : (sendData bs s).fbLen = s.fbLen := by
  simp [sendData]
@[simp] theorem sendData_rotation (bs : List Byte) (s : State) : (sendData bs s).rotation = s.rotation := by
  simp [sendData]
@[simp] theorem sendData_panelState (bs : List Byte) (s : State) : (sendData bs s).panelState = s.panelState := by
  simp [sendData]
@[simp] theorem sendData_rst (bs : List Byte) (s : State) : (sendData bs s).rst = s.rst := by
  simp [sendData]
@[simp] theorem sendData_dc (bs : List Byte) (s : State) : (sendData bs s).dc = true := by
  simp [sendData]
@[simp] theorem sendData_cs (bs : List Byte) (s : State) : (sendData bs s).cs = true := by
  simp [sendData]
@[simp] theorem sendData_seq (bs : List Byte) (s : State) : (sendData bs s).seq = s.seq := by
  simp [sendData]
@[simp] theorem sendData_upc (bs : List Byte) (s : State) : (sendData bs s).upc = s.upc := by
  simp [sendData]
@[simp] theorem sendData_t0 (bs : List Byte) (s : State) : (sendData bs s).t0 = s.t0 := by
  simp [sendData]
@[simp] theorem sendData_req (bs : List Byte) (s : State) : (sendData bs s).req = s.req := by
  simp [sendData]
@[simp] theorem sendData_rcode (bs : List Byte) (s : State) : (sendData bs s).rcode = s.rcode := by
  simp [sendData]
@[simp] theorem sendData_result (bs : List Byte) (s : State) : (sendData bs s).result = s.result := by
  simp [sendData]
@[simp] theorem sendData_fault (bs : List Byte) (s : State) : (sendData bs s).fault = s.fault := by
  simp [sendData]
@[simp] theorem sendData_rom (bs : List Byte) (s : State) : (sendData bs s).rom = s.rom := by
  simp [sendData]
@[simp] theorem sendData_port (bs : List Byte) (s : State) : (sendData bs s).port = s.port := by
  simp [sendData]
@[simp] theorem sendData_clock (bs : List Byte) (s : State) : (sendData bs s).clock = s.clock.read.read.read.read := by
  simp [sendData]
@[simp] theorem sendData_busy (bs : List Byte) (s : State) : (sendData bs s).busy = s.busy := by
  simp [sendData]
@[simp] theorem sendData_completed (bs : List Byte) (s : State) : (sendData bs s).completed = s.completed := by
  simp [sendData]

/-! ## sampleBusy -/

@[simp] theorem sampleBusy_fb (s : State) : (sampleBusy s).fb = s.fb := by
  simp [sampleBusy]
@[simp] theorem sampleBusy_fbLen (s : State) : (sampleBusy s).fbLen = s.fbLen := by
  simp [sampleBusy]
@[simp] theorem sampleBusy_rotation (s : State) : (sampleBusy s).rotation = s.rotation := by
  simp [sampleBusy]
@[simp] theorem sampleBusy_panelState (s : State) : (sampleBusy s).panelState = s.panelState := by
  simp [sampleBusy]
@[simp] theorem sampleBusy_rst (s : State) : (sampleBusy s).rst = s.rst := by
  simp [sampleBusy]
@[simp] theorem sampleBusy_dc (s : State) : (sampleBusy s).dc = s.dc := by
  simp [sampleBusy]
@[simp] theorem sampleBusy_cs (s : State) : (sampleBusy s).cs = s.cs := by
  simp [sampleBusy]
@[simp] theorem sampleBusy_seq (s : State) : (sampleBusy s).seq = s.seq := by
  simp [sampleBusy]
@[simp] theorem sampleBusy_upc (s : State) : (sampleBusy s).upc = s.upc := by
  simp [sampleBusy]
@[simp] theorem sampleBusy_t0 (s : State) : (sampleBusy s).t0 = s.t0 := by
  simp [sampleBusy]
@[simp] theorem sampleBusy_req (s : State) : (sampleBusy s).req = s.req := by
  simp [sampleBusy]
@[simp] theorem sampleBusy_rcode (s : State) : (sampleBusy s).rcode = s.rcode := by
  simp [sampleBusy]
@[simp] theorem sampleBusy_result (s : State) : (sampleBusy s).result = s.result := by
  simp [sampleBusy]
@[simp] theorem sampleBusy_fault (s : State) : (sampleBusy s).fault = s.fault := by
  simp [sampleBusy]
@[simp] theorem sampleBusy_rom (s : State) : (sampleBusy s).rom = s.rom := by
  simp [sampleBusy]
@[simp] theorem sampleBusy_port (s : State) : (sampleBusy s).port = s.port := by
  simp [sampleBusy]
@[simp] theorem sampleBusy_clock (s : State) : (sampleBusy s).clock = s.clock.read := by
  simp [sampleBusy]
@[simp] theorem sampleBusy_busy (s : State) : (sampleBusy s).busy = s.busy.next := by
  simp [sampleBusy]
@[simp] theorem sampleBusy_trace (s : State) : (sampleBusy s).trace = s.trace ++ [{ time := s.clock.read.now, kind := .busy s.busy.sample }] := by
  simp [sampleBusy]
@[simp] theorem sampleBusy_completed (s : State) : (sampleBusy s).completed = s.completed := by
  simp [sampleBusy]

/-! ## delay -/

@[simp] theorem delay_fb (ms : Nat) (s : State) : (delay ms s).fb = s.fb := by
  simp [delay]
@[simp] theorem delay_fbLen (ms : Nat) (s : State) : (delay ms s).fbLen = s.fbLen := by
  simp [delay]
@[simp] theorem delay_rotation (ms : Nat) (s : State) : (delay ms s).rotation = s.rotation := by
  simp [delay]
@[simp] theorem delay_panelState (ms : Nat) (s : State) : (delay ms s).panelState = s.panelState := by
  simp [delay]
@[simp] theorem delay_rst (ms : Nat) (s : State) : (delay ms s).rst = s.rst := by
  simp [delay]
@[simp] theorem delay_dc (ms : Nat) (s : State) : (delay ms s).dc = s.dc := by
  simp [delay]
@[simp] theorem delay_cs (ms : Nat) (s : State) : (delay ms s).cs = s.cs := by
  simp [delay]
@[simp] theorem delay_seq (ms : Nat) (s : State) : (delay ms s).seq = s.seq := by
  simp [delay]
@[simp] theorem delay_upc (ms : Nat) (s : State) : (delay ms s).upc = s.upc := by
  simp [delay]
@[simp] theorem delay_t0 (ms : Nat) (s : State) : (delay ms s).t0 = s.t0 := by
  simp [delay]
@[simp] theorem delay_req (ms : Nat) (s : State) : (delay ms s).req = s.req := by
  simp [delay]
@[simp] theorem delay_rcode (ms : Nat) (s : State) : (delay ms s).rcode = s.rcode := by
  simp [delay]
@[simp] theorem delay_result (ms : Nat) (s : State) : (delay ms s).result = s.result := by
  simp [delay]
@[simp] theorem delay_fault (ms : Nat) (s : State) : (delay ms s).fault = s.fault := by
  simp [delay]
@[simp] theorem delay_rom (ms : Nat) (s : State) : (delay ms s).rom = s.rom := by
  simp [delay]
@[simp] theorem delay_port (ms : Nat) (s : State) : (delay ms s).port = s.port := by
  simp [delay]
@[simp] theorem delay_clock (ms : Nat) (s : State) : (delay ms s).clock = s.clock.read.pass ms := by
  simp [delay]
@[simp] theorem delay_busy (ms : Nat) (s : State) : (delay ms s).busy = s.busy := by
  simp [delay]
@[simp] theorem delay_trace (ms : Nat) (s : State) : (delay ms s).trace = s.trace ++ [{ time := s.clock.read.now, kind := .delay ms }] := by
  simp [delay]
@[simp] theorem delay_completed (ms : Nat) (s : State) : (delay ms s).completed = s.completed := by
  simp [delay]

/-! ## complete -/

@[simp] theorem complete_fb (rc : BitVec 4) (res : Nat) (s : State) : (complete rc res s).fb = s.fb := rfl
@[simp] theorem complete_fbLen (rc : BitVec 4) (res : Nat) (s : State) : (complete rc res s).fbLen = s.fbLen := rfl
@[simp] theorem complete_rotation (rc : BitVec 4) (res : Nat) (s : State) : (complete rc res s).rotation = s.rotation := rfl
@[simp] theorem complete_panelState (rc : BitVec 4) (res : Nat) (s : State) : (complete rc res s).panelState = s.panelState :=
  rfl
@[simp] theorem complete_rst (rc : BitVec 4) (res : Nat) (s : State) : (complete rc res s).rst = s.rst := rfl
@[simp] theorem complete_dc (rc : BitVec 4) (res : Nat) (s : State) : (complete rc res s).dc = s.dc := rfl
@[simp] theorem complete_cs (rc : BitVec 4) (res : Nat) (s : State) : (complete rc res s).cs = s.cs := rfl
@[simp] theorem complete_seq (rc : BitVec 4) (res : Nat) (s : State) : (complete rc res s).seq = s.seq := rfl
@[simp] theorem complete_upc (rc : BitVec 4) (res : Nat) (s : State) : (complete rc res s).upc = s.upc := rfl
@[simp] theorem complete_t0 (rc : BitVec 4) (res : Nat) (s : State) : (complete rc res s).t0 = s.t0 := rfl
@[simp] theorem complete_req (rc : BitVec 4) (res : Nat) (s : State) : (complete rc res s).req = s.req := rfl
@[simp] theorem complete_rcode (rc : BitVec 4) (res : Nat) (s : State) : (complete rc res s).rcode = rc := rfl
@[simp] theorem complete_result (rc : BitVec 4) (res : Nat) (s : State) : (complete rc res s).result = res := rfl
@[simp] theorem complete_fault (rc : BitVec 4) (res : Nat) (s : State) : (complete rc res s).fault = s.fault := rfl
@[simp] theorem complete_rom (rc : BitVec 4) (res : Nat) (s : State) : (complete rc res s).rom = s.rom := rfl
@[simp] theorem complete_port (rc : BitVec 4) (res : Nat) (s : State) : (complete rc res s).port = s.port := rfl
@[simp] theorem complete_clock (rc : BitVec 4) (res : Nat) (s : State) : (complete rc res s).clock = s.clock := rfl
@[simp] theorem complete_busy (rc : BitVec 4) (res : Nat) (s : State) : (complete rc res s).busy = s.busy := rfl
@[simp] theorem complete_trace (rc : BitVec 4) (res : Nat) (s : State) : (complete rc res s).trace = s.trace := rfl
@[simp] theorem complete_completed (rc : BitVec 4) (res : Nat) (s : State) : (complete rc res s).completed = s.completed ++ [{ request := s.req, rcode := rc, result := res }] :=
  rfl

/-! ## endSequence -/

@[simp] theorem endSequence_fb (rc : BitVec 4) (res : Nat) (s : State) : (endSequence rc res s).fb = s.fb := rfl
@[simp] theorem endSequence_fbLen (rc : BitVec 4) (res : Nat) (s : State) : (endSequence rc res s).fbLen = s.fbLen := rfl
@[simp] theorem endSequence_rotation (rc : BitVec 4) (res : Nat) (s : State) : (endSequence rc res s).rotation = s.rotation :=
  rfl
@[simp] theorem endSequence_panelState (rc : BitVec 4) (res : Nat) (s : State) : (endSequence rc res s).panelState = s.panelState :=
  rfl
@[simp] theorem endSequence_rst (rc : BitVec 4) (res : Nat) (s : State) : (endSequence rc res s).rst = s.rst := rfl
@[simp] theorem endSequence_dc (rc : BitVec 4) (res : Nat) (s : State) : (endSequence rc res s).dc = s.dc := rfl
@[simp] theorem endSequence_cs (rc : BitVec 4) (res : Nat) (s : State) : (endSequence rc res s).cs = s.cs := rfl
@[simp] theorem endSequence_seq (rc : BitVec 4) (res : Nat) (s : State) : (endSequence rc res s).seq = false := rfl
@[simp] theorem endSequence_upc (rc : BitVec 4) (res : Nat) (s : State) : (endSequence rc res s).upc = s.upc := rfl
@[simp] theorem endSequence_t0 (rc : BitVec 4) (res : Nat) (s : State) : (endSequence rc res s).t0 = s.t0 := rfl
@[simp] theorem endSequence_req (rc : BitVec 4) (res : Nat) (s : State) : (endSequence rc res s).req = s.req := rfl
@[simp] theorem endSequence_rcode (rc : BitVec 4) (res : Nat) (s : State) : (endSequence rc res s).rcode = rc := rfl
@[simp] theorem endSequence_result (rc : BitVec 4) (res : Nat) (s : State) : (endSequence rc res s).result = res := rfl
@[simp] theorem endSequence_fault (rc : BitVec 4) (res : Nat) (s : State) : (endSequence rc res s).fault = s.fault := rfl
@[simp] theorem endSequence_rom (rc : BitVec 4) (res : Nat) (s : State) : (endSequence rc res s).rom = s.rom := rfl
@[simp] theorem endSequence_port (rc : BitVec 4) (res : Nat) (s : State) : (endSequence rc res s).port = s.port := rfl
@[simp] theorem endSequence_clock (rc : BitVec 4) (res : Nat) (s : State) : (endSequence rc res s).clock = s.clock := rfl
@[simp] theorem endSequence_busy (rc : BitVec 4) (res : Nat) (s : State) : (endSequence rc res s).busy = s.busy := rfl
@[simp] theorem endSequence_trace (rc : BitVec 4) (res : Nat) (s : State) : (endSequence rc res s).trace = s.trace := rfl
@[simp] theorem endSequence_completed (rc : BitVec 4) (res : Nat) (s : State) : (endSequence rc res s).completed = s.completed ++ [{ request := s.req, rcode := rc, result := res }] :=
  rfl

/-! ## raiseFault -/

@[simp] theorem raiseFault_fb (f : FaultCode) (s : State) : (raiseFault f s).fb = s.fb := rfl
@[simp] theorem raiseFault_fbLen (f : FaultCode) (s : State) : (raiseFault f s).fbLen = s.fbLen := rfl
@[simp] theorem raiseFault_rotation (f : FaultCode) (s : State) : (raiseFault f s).rotation = s.rotation := rfl
@[simp] theorem raiseFault_panelState (f : FaultCode) (s : State) : (raiseFault f s).panelState = s.panelState := rfl
@[simp] theorem raiseFault_rst (f : FaultCode) (s : State) : (raiseFault f s).rst = s.rst := rfl
@[simp] theorem raiseFault_dc (f : FaultCode) (s : State) : (raiseFault f s).dc = s.dc := rfl
@[simp] theorem raiseFault_cs (f : FaultCode) (s : State) : (raiseFault f s).cs = s.cs := rfl
@[simp] theorem raiseFault_seq (f : FaultCode) (s : State) : (raiseFault f s).seq = false := rfl
@[simp] theorem raiseFault_upc (f : FaultCode) (s : State) : (raiseFault f s).upc = s.upc := rfl
@[simp] theorem raiseFault_t0 (f : FaultCode) (s : State) : (raiseFault f s).t0 = s.t0 := rfl
@[simp] theorem raiseFault_req (f : FaultCode) (s : State) : (raiseFault f s).req = s.req := rfl
@[simp] theorem raiseFault_rcode (f : FaultCode) (s : State) : (raiseFault f s).rcode = s.rcode := rfl
@[simp] theorem raiseFault_result (f : FaultCode) (s : State) : (raiseFault f s).result = s.result := rfl
@[simp] theorem raiseFault_fault (f : FaultCode) (s : State) : (raiseFault f s).fault = f.code := rfl
@[simp] theorem raiseFault_rom (f : FaultCode) (s : State) : (raiseFault f s).rom = s.rom := rfl
@[simp] theorem raiseFault_port (f : FaultCode) (s : State) : (raiseFault f s).port = s.port := rfl
@[simp] theorem raiseFault_clock (f : FaultCode) (s : State) : (raiseFault f s).clock = s.clock := rfl
@[simp] theorem raiseFault_busy (f : FaultCode) (s : State) : (raiseFault f s).busy = s.busy := rfl
@[simp] theorem raiseFault_trace (f : FaultCode) (s : State) : (raiseFault f s).trace = s.trace := rfl
@[simp] theorem raiseFault_completed (f : FaultCode) (s : State) : (raiseFault f s).completed = s.completed := rfl

/-! ## start -/

@[simp] theorem start_fb (e : BitVec 8) (s : State) : (start e s).fb = s.fb := rfl
@[simp] theorem start_fbLen (e : BitVec 8) (s : State) : (start e s).fbLen = s.fbLen := rfl
@[simp] theorem start_rotation (e : BitVec 8) (s : State) : (start e s).rotation = s.rotation := rfl
@[simp] theorem start_panelState (e : BitVec 8) (s : State) : (start e s).panelState = s.panelState := rfl
@[simp] theorem start_rst (e : BitVec 8) (s : State) : (start e s).rst = s.rst := rfl
@[simp] theorem start_dc (e : BitVec 8) (s : State) : (start e s).dc = s.dc := rfl
@[simp] theorem start_cs (e : BitVec 8) (s : State) : (start e s).cs = s.cs := rfl
@[simp] theorem start_seq (e : BitVec 8) (s : State) : (start e s).seq = true := rfl
@[simp] theorem start_upc (e : BitVec 8) (s : State) : (start e s).upc = e := rfl
@[simp] theorem start_t0 (e : BitVec 8) (s : State) : (start e s).t0 = s.clock.read.now := rfl
@[simp] theorem start_req (e : BitVec 8) (s : State) : (start e s).req = s.req := rfl
@[simp] theorem start_rcode (e : BitVec 8) (s : State) : (start e s).rcode = s.rcode := rfl
@[simp] theorem start_result (e : BitVec 8) (s : State) : (start e s).result = s.result := rfl
@[simp] theorem start_fault (e : BitVec 8) (s : State) : (start e s).fault = s.fault := rfl
@[simp] theorem start_rom (e : BitVec 8) (s : State) : (start e s).rom = s.rom := rfl
@[simp] theorem start_port (e : BitVec 8) (s : State) : (start e s).port = s.port := rfl
@[simp] theorem start_clock (e : BitVec 8) (s : State) : (start e s).clock = s.clock.read := rfl
@[simp] theorem start_busy (e : BitVec 8) (s : State) : (start e s).busy = s.busy := rfl
@[simp] theorem start_trace (e : BitVec 8) (s : State) : (start e s).trace = s.trace := rfl
@[simp] theorem start_completed (e : BitVec 8) (s : State) : (start e s).completed = s.completed := rfl

/-! ## advance -/

@[simp] theorem advance_fb (s : State) : (advance s).fb = s.fb := rfl
@[simp] theorem advance_fbLen (s : State) : (advance s).fbLen = s.fbLen := rfl
@[simp] theorem advance_rotation (s : State) : (advance s).rotation = s.rotation := rfl
@[simp] theorem advance_panelState (s : State) : (advance s).panelState = s.panelState := rfl
@[simp] theorem advance_rst (s : State) : (advance s).rst = s.rst := rfl
@[simp] theorem advance_dc (s : State) : (advance s).dc = s.dc := rfl
@[simp] theorem advance_cs (s : State) : (advance s).cs = s.cs := rfl
@[simp] theorem advance_seq (s : State) : (advance s).seq = s.seq := rfl
@[simp] theorem advance_upc (s : State) : (advance s).upc = s.upc + 1#8 := rfl
@[simp] theorem advance_t0 (s : State) : (advance s).t0 = s.clock.read.now := rfl
@[simp] theorem advance_req (s : State) : (advance s).req = s.req := rfl
@[simp] theorem advance_rcode (s : State) : (advance s).rcode = s.rcode := rfl
@[simp] theorem advance_result (s : State) : (advance s).result = s.result := rfl
@[simp] theorem advance_fault (s : State) : (advance s).fault = s.fault := rfl
@[simp] theorem advance_rom (s : State) : (advance s).rom = s.rom := rfl
@[simp] theorem advance_port (s : State) : (advance s).port = s.port := rfl
@[simp] theorem advance_clock (s : State) : (advance s).clock = s.clock.read := rfl
@[simp] theorem advance_busy (s : State) : (advance s).busy = s.busy := rfl
@[simp] theorem advance_trace (s : State) : (advance s).trace = s.trace := rfl
@[simp] theorem advance_completed (s : State) : (advance s).completed = s.completed := rfl

/-! ## accept -/

@[simp] theorem accept_fb (r : RawRequest) (rest : List RawRequest) (s : State) : (accept r rest s).fb = s.fb := rfl
@[simp] theorem accept_fbLen (r : RawRequest) (rest : List RawRequest) (s : State) : (accept r rest s).fbLen = s.fbLen :=
  rfl
@[simp] theorem accept_rotation (r : RawRequest) (rest : List RawRequest) (s : State) : (accept r rest s).rotation = s.rotation :=
  rfl
@[simp] theorem accept_panelState (r : RawRequest) (rest : List RawRequest) (s : State) : (accept r rest s).panelState = s.panelState :=
  rfl
@[simp] theorem accept_rst (r : RawRequest) (rest : List RawRequest) (s : State) : (accept r rest s).rst = s.rst := rfl
@[simp] theorem accept_dc (r : RawRequest) (rest : List RawRequest) (s : State) : (accept r rest s).dc = s.dc := rfl
@[simp] theorem accept_cs (r : RawRequest) (rest : List RawRequest) (s : State) : (accept r rest s).cs = s.cs := rfl
@[simp] theorem accept_seq (r : RawRequest) (rest : List RawRequest) (s : State) : (accept r rest s).seq = s.seq := rfl
@[simp] theorem accept_upc (r : RawRequest) (rest : List RawRequest) (s : State) : (accept r rest s).upc = s.upc := rfl
@[simp] theorem accept_t0 (r : RawRequest) (rest : List RawRequest) (s : State) : (accept r rest s).t0 = s.t0 := rfl
@[simp] theorem accept_req (r : RawRequest) (rest : List RawRequest) (s : State) : (accept r rest s).req = some (ReqLatch.ofRaw r) :=
  rfl
@[simp] theorem accept_rcode (r : RawRequest) (rest : List RawRequest) (s : State) : (accept r rest s).rcode = s.rcode :=
  rfl
@[simp] theorem accept_result (r : RawRequest) (rest : List RawRequest) (s : State) : (accept r rest s).result = s.result :=
  rfl
@[simp] theorem accept_fault (r : RawRequest) (rest : List RawRequest) (s : State) : (accept r rest s).fault = s.fault :=
  rfl
@[simp] theorem accept_rom (r : RawRequest) (rest : List RawRequest) (s : State) : (accept r rest s).rom = s.rom := rfl
@[simp] theorem accept_port (r : RawRequest) (rest : List RawRequest) (s : State) : (accept r rest s).port = rest := rfl
@[simp] theorem accept_clock (r : RawRequest) (rest : List RawRequest) (s : State) : (accept r rest s).clock = s.clock :=
  rfl
@[simp] theorem accept_busy (r : RawRequest) (rest : List RawRequest) (s : State) : (accept r rest s).busy = s.busy := rfl
@[simp] theorem accept_trace (r : RawRequest) (rest : List RawRequest) (s : State) : (accept r rest s).trace = s.trace :=
  rfl
@[simp] theorem accept_completed (r : RawRequest) (rest : List RawRequest) (s : State) : (accept r rest s).completed = s.completed :=
  rfl

/-! ## nibbleWrite -/

@[simp] theorem nibbleWrite_fb (i : Nat) (sd : Side) (c : Nibble) (s : State) : (nibbleWrite i sd c s).fb = fbWrite s.fb i (mergeNibble (fbRead s.fb i) sd c) :=
  rfl
@[simp] theorem nibbleWrite_fbLen (i : Nat) (sd : Side) (c : Nibble) (s : State) : (nibbleWrite i sd c s).fbLen = s.fbLen :=
  rfl
@[simp] theorem nibbleWrite_rotation (i : Nat) (sd : Side) (c : Nibble) (s : State) : (nibbleWrite i sd c s).rotation = s.rotation :=
  rfl
@[simp] theorem nibbleWrite_panelState (i : Nat) (sd : Side) (c : Nibble) (s : State) : (nibbleWrite i sd c s).panelState = s.panelState :=
  rfl
@[simp] theorem nibbleWrite_rst (i : Nat) (sd : Side) (c : Nibble) (s : State) : (nibbleWrite i sd c s).rst = s.rst := rfl
@[simp] theorem nibbleWrite_dc (i : Nat) (sd : Side) (c : Nibble) (s : State) : (nibbleWrite i sd c s).dc = s.dc := rfl
@[simp] theorem nibbleWrite_cs (i : Nat) (sd : Side) (c : Nibble) (s : State) : (nibbleWrite i sd c s).cs = s.cs := rfl
@[simp] theorem nibbleWrite_seq (i : Nat) (sd : Side) (c : Nibble) (s : State) : (nibbleWrite i sd c s).seq = s.seq := rfl
@[simp] theorem nibbleWrite_upc (i : Nat) (sd : Side) (c : Nibble) (s : State) : (nibbleWrite i sd c s).upc = s.upc := rfl
@[simp] theorem nibbleWrite_t0 (i : Nat) (sd : Side) (c : Nibble) (s : State) : (nibbleWrite i sd c s).t0 = s.t0 := rfl
@[simp] theorem nibbleWrite_req (i : Nat) (sd : Side) (c : Nibble) (s : State) : (nibbleWrite i sd c s).req = s.req := rfl
@[simp] theorem nibbleWrite_rcode (i : Nat) (sd : Side) (c : Nibble) (s : State) : (nibbleWrite i sd c s).rcode = s.rcode :=
  rfl
@[simp] theorem nibbleWrite_result (i : Nat) (sd : Side) (c : Nibble) (s : State) : (nibbleWrite i sd c s).result = s.result :=
  rfl
@[simp] theorem nibbleWrite_fault (i : Nat) (sd : Side) (c : Nibble) (s : State) : (nibbleWrite i sd c s).fault = s.fault :=
  rfl
@[simp] theorem nibbleWrite_rom (i : Nat) (sd : Side) (c : Nibble) (s : State) : (nibbleWrite i sd c s).rom = s.rom := rfl
@[simp] theorem nibbleWrite_port (i : Nat) (sd : Side) (c : Nibble) (s : State) : (nibbleWrite i sd c s).port = s.port :=
  rfl
@[simp] theorem nibbleWrite_clock (i : Nat) (sd : Side) (c : Nibble) (s : State) : (nibbleWrite i sd c s).clock = s.clock :=
  rfl
@[simp] theorem nibbleWrite_busy (i : Nat) (sd : Side) (c : Nibble) (s : State) : (nibbleWrite i sd c s).busy = s.busy :=
  rfl
@[simp] theorem nibbleWrite_trace (i : Nat) (sd : Side) (c : Nibble) (s : State) : (nibbleWrite i sd c s).trace = s.trace :=
  rfl
@[simp] theorem nibbleWrite_completed (i : Nat) (sd : Side) (c : Nibble) (s : State) : (nibbleWrite i sd c s).completed = s.completed :=
  rfl

end Sys2Proof.Machine
end

