-- ==== Sys2Proof/Laws/Frame.lean ====
section
/-! SUPPORT. Everything a drawing request can leave, for any operands and colour: a framebuffer still in canonical form, and either
a completion or one of the faults ReservedColor and BitmapShort, with every other field as it was (spec/60 R226, R227). -/

namespace Sys2Proof.Machine

/-- The state a flow holds, whichever way it ended. -/
def Flow.state : Flow → State
  | .going s => s
  | .faulted s => s

/-- The end of a drawing request that started in `s`. -/
def Drew (s t : State) : Prop :=
  ∃ m, (Memory.wf s.fb = true → Memory.wf m = true) ∧
    (t = complete rcodeOk 0 { s with fb := m } ∨
      ∃ f : BitVec 4, (f = 2#4 ∨ f = 3#4) ∧ t = { s with fb := m, fault := f, seq := false })

/-- What each piece of a drawing loop does: going on, only the framebuffer may change; faulted, the fault is ReservedColor. -/
def Painting (b : State → Flow) : Prop :=
  ∀ s, ∃ m, (Memory.wf s.fb = true → Memory.wf m = true) ∧
    (b s = .going { s with fb := m } ∨ b s = .faulted { s with fb := m, fault := 2#4, seq := false })

theorem Painting.skip : Painting .going := fun s => ⟨s.fb, id, .inl rfl⟩

theorem Painting.putPixel (x y : Int) (c : Nibble) : Painting (putPixel x y c) := fun s => by
  cases hc : colorReserved c
  · exact ⟨_, wf_paint, .inl (putPixel_legal hc)⟩
  · exact ⟨s.fb, id, .inr (putPixel_reserved hc)⟩

theorem Painting.forUp {body : Nat → State → Flow} (n : Nat) (h : ∀ i, Painting (body i)) : Painting (forUp n body) := by
  intro s
  induction n with
  | zero => exact ⟨s.fb, id, .inl rfl⟩
  | succ n ih =>
    obtain ⟨m, hm, he | he⟩ := ih
    · obtain ⟨m', hm', he'⟩ := h n { s with fb := m }
      rw [forUp_succ, he]
      exact ⟨m', fun hw => hm' (hm hw), he'⟩
    · rw [forUp_succ, he]
      exact ⟨m, hm, .inr rfl⟩

/-- The end of a request that is a drawing loop. -/
theorem Painting.drew {b : State → Flow} (h : Painting b) (s : State) : Drew s (b s).finish := by
  obtain ⟨m, hm, he | he⟩ := h s
  · exact ⟨m, hm, .inl (by rw [he]; rfl)⟩
  · exact ⟨m, hm, .inr ⟨2#4, .inl rfl, by rw [he]; rfl⟩⟩

theorem drawHLine_painting (x y w : Int) (c : Nibble) : Painting (drawHLine x y w c) :=
  .forUp _ fun _ => .putPixel _ _ _

theorem drawVLine_painting (x y h : Int) (c : Nibble) : Painting (drawVLine x y h c) :=
  .forUp _ fun _ => .putPixel _ _ _

theorem drawRect_painting (x y w h : Int) (c : Nibble) : Painting (drawRect x y w h c) :=
  .forUp _ fun _ => .forUp _ fun _ => .putPixel _ _ _

theorem drawBits_painting (x y : Int) (data : List Byte) (w h : Int) (c : Nibble) : Painting (drawBits x y data w h c) :=
  .forUp _ fun j => .forUp _ fun i s => by
    by_cases hb : bitmapBit data (bitmapStride w.toNat) j i = true
    · simpa only [hb, if_true] using Painting.putPixel _ _ _ s
    · simpa only [hb, Bool.false_eq_true, if_false] using Painting.skip s

theorem drawBitmap_drew (x y : Int) (data : List Byte) (w h : Int) (c : Nibble) (s : State) :
    Drew s (drawBitmap x y data w h c s).finish := by
  unfold drawBitmap
  split
  · exact ⟨s.fb, id, .inl rfl⟩
  · split
    · exact ⟨s.fb, id, .inr ⟨3#4, .inr rfl, rfl⟩⟩
    · exact (drawBits_painting x y data w h c).drew s

/-- Everything a drawing request can leave. -/
theorem exec_draws {i : Instr} {s t : State} (hd : i.isDraw = true) (h : exec i s = .next t) : Drew s t := by
  cases i <;> cases hd <;> cases h
  · exact (Painting.putPixel _ _ _).drew s
  · exact (drawHLine_painting _ _ _ _).drew s
  · exact (drawVLine_painting _ _ _ _).drew s
  · exact (drawRect_painting _ _ _ _ _).drew s
  · exact drawBitmap_drew ..

end Sys2Proof.Machine
end

