-- ==== Sys2Proof/Laws/Ops.lean ====
section
/-! SUPPORT. What the shared operations can do, said once: the clock's readings, the events a transaction records, and the three
ways a poll step ends. -/

namespace Sys2Proof.Machine

/-! ## The clock -/

/-- Readings never decrease (R233). -/
theorem Clock.now_le_read (c : Clock) : c.now ≤ c.read.now := by
  unfold Clock.read
  split
  · exact Nat.le_add_right _ _
  · split
    · exact Nat.le_trans (Nat.le_succ _) (Nat.le_add_right _ _)
    · exact le_refl _

@[simp] theorem Clock.pass_now (c : Clock) (ms : Nat) : (c.pass ms).now = c.now + ms := rfl

/-- A scripted reading. -/
theorem Clock.read_script (n d : Nat) (ds : List Nat) (st dr : Nat) :
    Clock.read ⟨n, d :: ds, st, dr⟩ = ⟨n + d, ds, st, dr⟩ := rfl

/-- A free reading without progress, and one with. -/
theorem Clock.read_stall (n st dr : Nat) : Clock.read ⟨n, [], st + 1, dr⟩ = ⟨n, [], st, dr⟩ := rfl
theorem Clock.read_gap (n dr : Nat) :
    Clock.read ⟨n, [], 0, dr⟩ = ⟨n + 1 + Config.clockGap dr, [], Config.clockStall dr, dr + 1⟩ := rfl

/-! ## Events -/

@[simp] theorem kinds_append (t u : List Event) : kinds (t ++ u) = kinds t ++ kinds u := List.map_append
@[simp] theorem kinds_nil : kinds [] = [] := rfl
@[simp] theorem kinds_cons (e : Event) (t : List Event) : kinds (e :: t) = e.kind :: kinds t := rfl

/-- The four events of a command transaction (R100), each with its reading. -/
theorem sendCommand_trace (bs : List Byte) (s : State) :
    (sendCommand bs s).trace = s.trace ++
      [⟨s.clock.read.now, .line .cs false⟩, ⟨s.clock.read.read.now, .line .dc false⟩,
       ⟨s.clock.read.read.read.now, .write bs⟩, ⟨s.clock.read.read.read.read.now, .line .cs true⟩] := by
  simp [sendCommand]

/-- The four events of a data transaction (R101), each with its reading. -/
theorem sendData_trace (bs : List Byte) (s : State) :
    (sendData bs s).trace = s.trace ++
      [⟨s.clock.read.now, .line .cs false⟩, ⟨s.clock.read.read.now, .line .dc true⟩,
       ⟨s.clock.read.read.read.now, .write bs⟩, ⟨s.clock.read.read.read.read.now, .line .cs true⟩] := by
  simp [sendData]

theorem sendCommand_kinds (bs : List Byte) (s : State) :
    kinds (sendCommand bs s).trace = kinds s.trace ++ commandFrame bs := by
  simp [sendCommand_trace, commandFrame]

theorem sendData_kinds (bs : List Byte) (s : State) :
    kinds (sendData bs s).trace = kinds s.trace ++ dataFrame bs := by
  simp [sendData_trace, dataFrame]

/-- Equal fields are equal states. -/
theorem State.ext_fields {s t : State} (h1 : s.fb = t.fb) (h2 : s.fbLen = t.fbLen) (h3 : s.rotation = t.rotation)
    (h4 : s.panelState = t.panelState) (h5 : s.rst = t.rst) (h6 : s.dc = t.dc) (h7 : s.cs = t.cs) (h8 : s.seq = t.seq)
    (h9 : s.upc = t.upc) (h10 : s.t0 = t.t0) (h11 : s.req = t.req) (h12 : s.rcode = t.rcode)
    (h13 : s.result = t.result) (h14 : s.fault = t.fault) (h15 : s.rom = t.rom) (h16 : s.port = t.port)
    (h17 : s.clock = t.clock) (h18 : s.busy = t.busy) (h19 : s.trace = t.trace)
    (h20 : s.completed = t.completed) : s = t := by
  cases s; cases t; simp_all

/-- A command transaction whole (R100). -/
theorem sendCommand_eq (bs : List Byte) (s : State) : sendCommand bs s =
    { s with
      dc := false, cs := true, clock := s.clock.read.read.read.read,
      trace := s.trace ++
        [⟨s.clock.read.now, .line .cs false⟩, ⟨s.clock.read.read.now, .line .dc false⟩,
         ⟨s.clock.read.read.read.now, .write bs⟩, ⟨s.clock.read.read.read.read.now, .line .cs true⟩] } := by
  apply State.ext_fields <;> simp [sendCommand]

/-- A data transaction whole (R101). -/
theorem sendData_eq (bs : List Byte) (s : State) : sendData bs s =
    { s with
      dc := true, cs := true, clock := s.clock.read.read.read.read,
      trace := s.trace ++
        [⟨s.clock.read.now, .line .cs false⟩, ⟨s.clock.read.read.now, .line .dc true⟩,
         ⟨s.clock.read.read.read.now, .write bs⟩, ⟨s.clock.read.read.read.read.now, .line .cs true⟩] } := by
  apply State.ext_fields <;> simp [sendData]

/-! ## The panel's answers -/

/-- Samples taken in two parts. -/
theorem BusyInput.samples_add (m n : Nat) (b : BusyInput) :
    BusyInput.samples (m + n) b = BusyInput.samples m b ++ BusyInput.samples n (BusyInput.after m b) := by
  induction m generalizing b with
  | zero => simp [BusyInput.samples, BusyInput.after]
  | succ m ih => rw [Nat.succ_add]; simp [BusyInput.samples, BusyInput.after, ih]

theorem BusyInput.after_add (m n : Nat) (b : BusyInput) :
    BusyInput.after (m + n) b = BusyInput.after n (BusyInput.after m b) := by
  induction m generalizing b with
  | zero => simp [BusyInput.after]
  | succ m ih => rw [Nat.succ_add]; simp [BusyInput.after, ih]

@[simp] theorem BusyInput.samples_length (n : Nat) (b : BusyInput) : (BusyInput.samples n b).length = n := by
  induction n generalizing b with
  | zero => rfl
  | succ n ih => simp [BusyInput.samples, ih]

/-- A script answers first. -/
theorem BusyInput.samples_script (l bs : List Bool) (d : Nat) : BusyInput.samples l.length ⟨l ++ bs, d⟩ = l := by
  induction l with
  | nil => rfl
  | cons v l ih => simpa [BusyInput.samples, BusyInput.sample, BusyInput.next] using ih

theorem BusyInput.after_script (l bs : List Bool) (d : Nat) : BusyInput.after l.length ⟨l ++ bs, d⟩ = ⟨bs, d⟩ := by
  induction l with
  | nil => rfl
  | cons v l ih => simpa [BusyInput.after, BusyInput.next] using ih

/-! ## Polls -/

theorem initPoll_ready {ms : Nat} {s : State} (h : s.busy.sample = true) :
    initPoll ms s = advance (sampleBusy s) := by
  simp [initPoll, h]

theorem initPoll_timeout {ms : Nat} {s : State} (h : s.busy.sample = false)
    (ht : timedOut ms (readClock (sampleBusy s)) = true) :
    initPoll ms s = endSequence rcodeInitTimeout 0
      { readClock (sampleBusy s) with panelState := PanelState.uninitialized.code } := by
  simp [initPoll, h, ht]

theorem initPoll_wait {ms : Nat} {s : State} (h : s.busy.sample = false)
    (ht : timedOut ms (readClock (sampleBusy s)) = false) : initPoll ms s = readClock (sampleBusy s) := by
  simp [initPoll, h, ht]

theorem refreshPoll_seen {t : Option Nat} {want : Bool} {s : State} (h : s.busy.sample = want) :
    refreshPoll t want s = advance (sampleBusy s) := by
  simp [refreshPoll, h]

theorem refreshPoll_wait {want : Bool} {s : State} (h : s.busy.sample ≠ want) :
    refreshPoll none want s = sampleBusy s := by
  simp [refreshPoll, h]

end Sys2Proof.Machine
end

