-- ==== Sys2Proof/Laws/PerInstr.lean ====
section
/-! SUPPORT. Statements made of every instruction, one lemma per constructor: the word of each instruction has the fixed bits of its
row of spec/opcode_table.json (spec/30_encoding.md R76, R87). -/

namespace Sys2Proof.Laws

theorem append_and_append (a a' : BitVec 8) (b b' c c' : BitVec 4) (d d' e e' f f' g g' h h' : BitVec 16) :
    (a ++ b ++ c ++ d ++ e ++ f ++ g ++ h) &&& (a' ++ b' ++ c' ++ d' ++ e' ++ f' ++ g' ++ h') =
      (a &&& a') ++ (b &&& b') ++ (c &&& c') ++ (d &&& d') ++ (e &&& e') ++ (f &&& f') ++ (g &&& g') ++ (h &&& h') := by
  simp only [BitVec.and_append]

/-- The bits of a request word under a mask, field by field. -/
theorem toWord_and (f g : Fields) : f.toWord &&& g.toWord =
    Fields.toWord ⟨f.op &&& g.op, f.color &&& g.color, f.flags &&& g.flags, f.a &&& g.a, f.b &&& g.b, f.c &&& g.c,
      f.d &&& g.d, f.e &&& g.e⟩ :=
  append_and_append f.op g.op f.color g.color f.flags g.flags f.a g.a f.b g.b f.c g.c f.d g.d f.e g.e

/-- A word masked by a word given as a number. -/
theorem toWord_and_mask (f : Fields) (m : RequestWord) : f.toWord &&& m =
    Fields.toWord ⟨f.op &&& (Fields.ofWord m).op, f.color &&& (Fields.ofWord m).color, f.flags &&& (Fields.ofWord m).flags,
      f.a &&& (Fields.ofWord m).a, f.b &&& (Fields.ofWord m).b, f.c &&& (Fields.ofWord m).c, f.d &&& (Fields.ofWord m).d,
      f.e &&& (Fields.ofWord m).e⟩ := by
  rw [← toWord_and, Fields.toWord_ofWord]

namespace EncodeFixedBits

/-- The `mask` and `match` of each row of the opcode table. -/
def row : Instr → Nat × Nat
  | .writePixel .. => (0xFF0F00000000FFFFFFFFFFFF, 0x010000000000000000000000)
  | .writeFastHLine .. => (0xFF0F000000000000FFFFFFFF, 0x020000000000000000000000)
  | .writeFastVLine .. => (0xFF0F000000000000FFFFFFFF, 0x030000000000000000000000)
  | .writeFillRect .. => (0xFF0F0000000000000000FFFF, 0x040000000000000000000000)
  | .drawBitmap .. => (0xFF0F0000000000000000FFFF, 0x050000000000000000000000)
  | .width => (0xFFFFFFFFFFFFFFFFFFFFFFFF, 0x100000000000000000000000)
  | .height => (0xFFFFFFFFFFFFFFFFFFFFFFFF, 0x110000000000000000000000)
  | .setRotation _ => (0xFFFF0000FFFFFFFFFFFFFFFF, 0x120000000000000000000000)
  | .getRotation => (0xFFFFFFFFFFFFFFFFFFFFFFFF, 0x130000000000000000000000)
  | .clearDisplay => (0xFFFFFFFFFFFFFFFFFFFFFFFF, 0x200000000000000000000000)
  | .display => (0xFFFFFFFFFFFFFFFFFFFFFFFF, 0x300000000000000000000000)
  | .clean => (0xFFFFFFFFFFFFFFFFFFFFFFFF, 0x310000000000000000000000)
  | .getPanelState => (0xFFFFFFFFFFFFFFFFFFFFFFFF, 0x320000000000000000000000)
  | .setPanelState _ => (0xFFFEFFFFFFFFFFFFFFFFFFFF, 0x330000000000000000000000)
  | .uPin _ _ => (0xFFFFFCFE, 0x01000000)
  | .uWait _ => (0xFF000000, 0x02000000)
  | .uCmd _ => (0xFFFFFF00, 0x03000000)
  | .uData _ => (0xFFFFFF00, 0x04000000)
  | .uDataFb => (0xFFFFFFFF, 0x05000000)
  | .uDataBg => (0xFFFFFFFF, 0x06000000)
  | .uPollReadyTo _ => (0xFF000000, 0x07000000)
  | .uPollReady => (0xFFFFFFFF, 0x08000000)
  | .uPollNotReady => (0xFFFFFFFF, 0x09000000)
  | .uSetState _ => (0xFFFFFFFC, 0x0A000000)
  | .uEnd _ _ => (0xFFFF00F0, 0x0B000000)

/-- The encoded word, under the row's mask, is the row's match. -/
def fixedBits (e : Encoded) (mask val : Nat) : Prop :=
  match e with
  | .request r => r.word &&& BitVec.ofNat 96 mask = BitVec.ofNat 96 val
  | .uop u => u &&& BitVec.ofNat 32 mask = BitVec.ofNat 32 val

def Statement (i : Instr) : Prop := fixedBits (encode i) (row i).1 (row i).2

/-- A micro-op whose argument is free: only its opcode is fixed. -/
theorem uop_code_only (o : UopOp) (arg : BitVec 24) : UopOp.word o arg &&& 0xFF000000#32 = UopOp.word o 0#24 := by
  have h : (o.code ++ arg : BitVec 32) &&& ((0xFF#8 : BitVec 8) ++ (0#24 : BitVec 24)) = (o.code &&& 0xFF#8) ++ (arg &&& 0#24) :=
    BitVec.and_append
  have hc : o.code &&& 0xFF#8 = o.code := by cases o <;> rfl
  rw [hc, BitVec.and_zero] at h
  exact h

/-- The pieces of a `U_END` word under a mask. -/
theorem end_and_end (res : BitVec 8) (rc : BitVec 4) :
    (0x0B#8 ++ (0#8 ++ res ++ 0#4 ++ rc)) &&& (0xFF#8 ++ (0xFF#8 ++ 0x00#8 ++ 0xF#4 ++ 0x0#4)) =
      (0x0B#8 &&& 0xFF#8) ++ ((0#8 &&& 0xFF#8) ++ (res &&& 0x00#8) ++ (0#4 &&& 0xF#4) ++ (rc &&& 0x0#4)) := by
  simp only [BitVec.and_append]

theorem writePixel (x y : Int) (c : Nibble) : Statement (.writePixel x y c) := by
  simp only [Statement, encode, fixedBits, row, toWord_and_mask]
  simp [ReqOp.blank, ReqOp.code, Fields.ofWord]
  rfl

theorem writeFastHLine (x y w : Int) (c : Nibble) : Statement (.writeFastHLine x y w c) := by
  simp only [Statement, encode, fixedBits, row, toWord_and_mask]
  simp [ReqOp.blank, ReqOp.code, Fields.ofWord]
  rfl

theorem writeFastVLine (x y h : Int) (c : Nibble) : Statement (.writeFastVLine x y h c) := by
  simp only [Statement, encode, fixedBits, row, toWord_and_mask]
  simp [ReqOp.blank, ReqOp.code, Fields.ofWord]
  rfl

theorem writeFillRect (x y w h : Int) (c : Nibble) : Statement (.writeFillRect x y w h c) := by
  simp only [Statement, encode, fixedBits, row, toWord_and_mask]
  simp [ReqOp.blank, ReqOp.code, Fields.ofWord]
  rfl

theorem drawBitmap (x y : Int) (data : List Byte) (w h : Int) (c : Nibble) : Statement (.drawBitmap x y data w h c) := by
  simp only [Statement, encode, fixedBits, row, toWord_and_mask]
  simp [ReqOp.blank, ReqOp.code, Fields.ofWord]
  rfl

theorem width : Statement .width := by unfold Statement fixedBits; rfl
theorem height : Statement .height := by unfold Statement fixedBits; rfl

theorem setRotation (r : Int) : Statement (.setRotation r) := by
  simp only [Statement, encode, fixedBits, row, toWord_and_mask]
  simp [ReqOp.blank, ReqOp.code, Fields.ofWord]
  rfl

theorem getRotation : Statement .getRotation := by unfold Statement fixedBits; rfl
theorem clearDisplay : Statement .clearDisplay := by unfold Statement fixedBits; rfl
theorem display : Statement .display := by unfold Statement fixedBits; rfl
theorem clean : Statement .clean := by unfold Statement fixedBits; rfl
theorem getPanelState : Statement .getPanelState := by unfold Statement fixedBits; rfl
theorem setPanelState (active : Bool) : Statement (.setPanelState active) := by
  cases active <;> (unfold Statement fixedBits; rfl)
theorem uPin (l : Line) (v : Bool) : Statement (.uPin l v) := by
  cases l <;> cases v <;> (unfold Statement fixedBits; rfl)
theorem uWait (ms : Nat) : Statement (.uWait ms) :=
  show UopOp.word .uWait (BitVec.ofNat 24 ms) &&& 0xFF000000#32 = 0x02000000#32 from uop_code_only .uWait _
theorem uCmd (k : CmdSlot) : Statement (.uCmd k) := by cases k <;> (unfold Statement fixedBits; rfl)
theorem uData (p : PayloadSlot) : Statement (.uData p) := by cases p <;> (unfold Statement fixedBits; rfl)
theorem uDataFb : Statement .uDataFb := by unfold Statement fixedBits; rfl
theorem uDataBg : Statement .uDataBg := by unfold Statement fixedBits; rfl
theorem uPollReadyTo (ms : Nat) : Statement (.uPollReadyTo ms) :=
  show UopOp.word .uPollReadyTo (BitVec.ofNat 24 ms) &&& 0xFF000000#32 = 0x07000000#32 from uop_code_only .uPollReadyTo _
theorem uPollReady : Statement .uPollReady := by unfold Statement fixedBits; rfl
theorem uPollNotReady : Statement .uPollNotReady := by unfold Statement fixedBits; rfl
theorem uSetState (p : PanelState) : Statement (.uSetState p) := by cases p <;> (unfold Statement fixedBits; rfl)
theorem uEnd (rc : BitVec 4) (res : BitVec 8) : Statement (.uEnd rc res) := by
  have h := end_and_end res rc
  rw [BitVec.and_zero, BitVec.and_zero] at h
  show UopOp.word .uEnd (0#8 ++ res ++ 0#4 ++ rc) &&& 0xFFFF00F0#32 = 0x0B000000#32
  have hm : (0xFFFF00F0#32 : BitVec 32) = 0xFF#8 ++ (0xFF#8 ++ 0x00#8 ++ 0xF#4 ++ 0x0#4) := rfl
  have hv : (0x0B000000#32 : BitVec 32) =
      (0x0B#8 &&& 0xFF#8) ++ ((0#8 &&& 0xFF#8) ++ 0x00#8 ++ (0#4 &&& 0xF#4) ++ 0x0#4) := rfl
  rw [hm, hv]
  exact h

end EncodeFixedBits

end Sys2Proof.Laws
end

