-- ==== Sys2Proof/Laws/Rom.lean ====
section
/-! SUPPORT. What the micro-ROM decodes to, address by address (spec/41 R123). -/

namespace Sys2Proof.Machine

/-- INIT, 0x00 to 0x1D. -/
theorem rom_init {k : Nat} (h : k < 30) :
    decodeUop (romRead microRom (BitVec.ofNat 8 k)) = .ok (romInit.getD k .uDataFb) := by
  interval_cases k <;> rfl

/-- DISPLAY, 0x20 to 0x2B. -/
theorem rom_display {k : Nat} (h : k < 12) :
    decodeUop (romRead microRom (BitVec.ofNat 8 (0x20 + k))) = .ok ((romRefresh .uDataFb).getD k .uDataFb) := by
  interval_cases k <;> rfl

/-- CLEAN, 0x30 to 0x3B. -/
theorem rom_clean {k : Nat} (h : k < 12) :
    decodeUop (romRead microRom (BitVec.ofNat 8 (0x30 + k))) = .ok ((romRefresh .uDataBg).getD k .uDataFb) := by
  interval_cases k <;> rfl

/-- DSLP, 0x40 to 0x47. -/
theorem rom_dslp {k : Nat} (h : k < 8) :
    decodeUop (romRead microRom (BitVec.ofNat 8 (0x40 + k))) = .ok (romDslp.getD k .uDataFb) := by
  interval_cases k <;> rfl

end Sys2Proof.Machine
end

