-- ==== Sys2Proof/Laws/Step.lean ====
section
/-! SUPPORT. What one step can be: the inversion of `step` that later proofs cite instead of unfolding it. -/

namespace Sys2Proof.Machine

theorem step_running {s : State} (h : s.seq = true) : step s = sequencerStep s := by simp [step, pdcStep, h]

theorem step_idle {s : State} (h : s.seq = false) : step s = dispatcherStep s := by simp [step, pdcStep, h]

theorem sequencerStep_ok {s : State} {i : Instr} (h : decodeUop (romRead s.rom s.upc) = .ok i) :
    sequencerStep s = exec i s := by simp [sequencerStep, h]

theorem sequencerStep_error {s : State} {e : DecodeError} (h : decodeUop (romRead s.rom s.upc) = .error e) :
    sequencerStep s = .next (raiseFault .illegalUop s) := by simp [sequencerStep, h]

/-- Everything a step can be: a micro-op, an illegal micro-op word, a hold, an accepted request, or an illegal request. -/
theorem step_cases (s : State) :
    (s.seq = true ∧ ∃ i, i.isUop = true ∧ decodeUop (romRead s.rom s.upc) = .ok i ∧ step s = exec i s) ∨
    (s.seq = true ∧ (∃ e, decodeUop (romRead s.rom s.upc) = .error e) ∧ step s = .next (raiseFault .illegalUop s)) ∨
    (s.seq = false ∧ (s.fault ≠ 0#4 ∨ s.port = []) ∧ step s = .next s) ∨
    (s.seq = false ∧ s.fault = 0#4 ∧ ∃ r rest i, s.port = r :: rest ∧ i.isUop = false ∧ decodeRequest r = .ok i ∧
      step s = exec i (accept r rest s)) ∨
    (s.seq = false ∧ s.fault = 0#4 ∧ ∃ r rest e, s.port = r :: rest ∧ decodeRequest r = .error e ∧
      step s = .next (raiseFault .illegalRequest { s with port := rest })) := by
  cases hs : s.seq with
  | true =>
    rw [step_running hs]
    cases hd : decodeUop (romRead s.rom s.upc) with
    | ok i => exact .inl ⟨rfl, i, decodeUop_isUop hd, rfl, sequencerStep_ok hd⟩
    | error e => exact .inr (.inl ⟨rfl, ⟨e, rfl⟩, sequencerStep_error hd⟩)
  | false =>
    rw [step_idle hs]
    right; right
    by_cases hf : s.fault = 0#4
    · cases hp : s.port with
      | nil => exact .inl ⟨rfl, .inr rfl, by simp [dispatcherStep, hf, hp]⟩
      | cons r rest =>
        right
        cases hd : decodeRequest r with
        | ok i =>
          exact .inl ⟨rfl, hf, r, rest, i, rfl, decodeRequest_isRequest hd, hd, by simp [dispatcherStep, hf, hp, hd]⟩
        | error e => exact .inr ⟨rfl, hf, r, rest, e, rfl, hd, by simp [dispatcherStep, hf, hp, hd, hs]⟩
    · exact .inl ⟨rfl, .inl hf, by simp [dispatcherStep, hf]⟩

end Sys2Proof.Machine
end

