-- ==== Sys2Proof/Laws/Run.lean ====
section
/-! SUPPORT. A stretch of a micro-program, step after step: one judgement says what has been reached from a start state, and one
lemma for each micro-op extends it (spec/41 R122, R124 to R134). -/

namespace Sys2Proof.Machine

/-- A run whose first step is known. -/
theorem run_step {n : Nat} {s t : State} (h : step s = .next t) :
    Host.Core.run Sys2Proof.core (n + 1) s = Host.Core.run Sys2Proof.core n t := by
  have h' : Sys2Proof.core.step s = .next t := h
  simp only [Host.Core.run, h']

/-- A run of `n` steps goes on by one step. -/
theorem run_snoc {n : Nat} {s t u : State} (h : Host.Core.run Sys2Proof.core n s = .next t) (ht : step t = .next u) :
    Host.Core.run Sys2Proof.core (n + 1) s = .next u := by
  induction n generalizing s with
  | zero =>
    obtain rfl : s = t := Host.Outcome.next.inj h
    exact run_step ht
  | succ n ih =>
    cases hs : step s with
    | next v => rw [run_step hs] at h ⊢; exact ih h
    | fault r => exact absurd h (by simp only [Host.Core.run, show Sys2Proof.core.step s = .fault r from hs]; nofun)
    | refused r => exact absurd h (by simp only [Host.Core.run, show Sys2Proof.core.step s = .refused r from hs]; nofun)

/-- What the PDC shows beside its counters and its trace: the panel state, the lines, the BUSY input. -/
structure Shown where
  panel : BitVec 2
  rst : Bool
  dc : Bool
  cs : Bool
  busy : BusyInput

/-- `n` steps lead from `s` to `t`, a running state at `UPC = u` that shows `x`; meanwhile the events `ev` were recorded, at least
`ms` milliseconds passed, and nothing else changed. -/
structure Reached (s : State) (n : Nat) (u : BitVec 8) (ev : List EventKind) (ms : Nat) (x : Shown) (t : State) : Prop where
  run : Host.Core.run Sys2Proof.core n s = .next t
  seq : t.seq = true
  rom : t.rom = microRom
  upc : t.upc = u
  events : kinds t.trace = kinds s.trace ++ ev
  time : s.clock.now + ms ≤ t.clock.now
  latched : t.t0 ≤ t.clock.now
  panel : t.panelState = x.panel
  rst : t.rst = x.rst
  dc : t.dc = x.dc
  cs : t.cs = x.cs
  busy : t.busy = x.busy
  fb : t.fb = s.fb
  fbLen : t.fbLen = s.fbLen
  rotation : t.rotation = s.rotation
  port : t.port = s.port
  req : t.req = s.req
  fault : t.fault = s.fault
  completed : t.completed = s.completed

/-- A running state has reached itself. -/
theorem Reached.start {s : State} (hs : s.seq = true) (hr : s.rom = microRom) (ht : s.t0 ≤ s.clock.now) :
    Reached s 0 s.upc [] 0 ⟨s.panelState, s.rst, s.dc, s.cs, s.busy⟩ s :=
  ⟨rfl, hs, hr, rfl, by simp, by simp, ht, rfl, rfl, rfl, rfl, rfl, rfl, rfl, rfl, rfl, rfl, rfl, rfl⟩

variable {s t : State} {n ms : Nat} {u : BitVec 8} {ev : List EventKind} {x : Shown}

/-- The step from a state reached is the micro-op its address holds. -/
theorem Reached.step (h : Reached s n u ev ms x t) {i : Instr} (hi : decodeUop (romRead microRom u) = .ok i) :
    step t = exec i t := by
  rw [step_running h.seq, sequencerStep_ok (by rw [h.rom, h.upc]; exact hi)]

/-- One more micro-op that advances, given what it records and what it shows. -/
theorem Reached.advance (h : Reached s n u ev ms x t) {i : Instr} {v : State}
    (hi : decodeUop (romRead microRom u) = .ok i) (he : exec i t = .next (advance v))
    {ev' : List EventKind} {ms' : Nat} {y : Shown}
    (hev : kinds v.trace = kinds t.trace ++ ev') (htime : t.clock.now + ms' ≤ v.clock.now)
    (hy : y = ⟨v.panelState, v.rst, v.dc, v.cs, v.busy⟩)
    (hkeep : v.seq = t.seq ∧ v.rom = t.rom ∧ v.upc = t.upc ∧ v.fb = t.fb ∧ v.fbLen = t.fbLen ∧ v.rotation = t.rotation ∧
      v.port = t.port ∧ v.req = t.req ∧ v.fault = t.fault ∧ v.completed = t.completed) :
    Reached s (n + 1) (u + 1#8) (ev ++ ev') (ms + ms') y (Machine.advance v) := by
  obtain ⟨k1, k2, k3, k4, k5, k6, k7, k8, k9, k10⟩ := hkeep
  have hr := v.clock.now_le_read
  have ht := h.time
  subst hy
  refine ⟨run_snoc h.run ((h.step hi).trans he), ?_, ?_, ?_, ?_, ?_, ?_, ?_, ?_, ?_, ?_, ?_, ?_, ?_, ?_, ?_, ?_, ?_, ?_⟩ <;>
    simp only [advance_seq, advance_rom, advance_upc, advance_trace, advance_clock, advance_t0, advance_panelState, advance_rst,
      advance_dc, advance_cs, advance_busy, advance_fb, advance_fbLen, advance_rotation, advance_port, advance_req, advance_fault,
      advance_completed]
  · exact k1.trans h.seq
  · exact k2.trans h.rom
  · rw [k3, h.upc]
  · rw [hev, h.events, List.append_assoc]
  · omega
  · exact le_refl _
  · exact k4.trans h.fb
  · exact k5.trans h.fbLen
  · exact k6.trans h.rotation
  · exact k7.trans h.port
  · exact k8.trans h.req
  · exact k9.trans h.fault
  · exact k10.trans h.completed

theorem Reached.pin (h : Reached s n u ev ms x t) {l : Line} {v : Bool} (hi : decodeUop (romRead microRom u) = .ok (.uPin l v)) :
    ∃ t', Reached s (n + 1) (u + 1#8) (ev ++ [.line l v]) ms
      { x with rst := if l = .rst then v else x.rst, dc := if l = .dc then v else x.dc, cs := if l = .cs then v else x.cs } t' := by
  have hr := t.clock.now_le_read
  exact ⟨_, h.advance (ms' := 0) hi rfl (by simp) (by simpa using hr)
    (by cases l <;> simp [h.panel, h.rst, h.dc, h.cs, h.busy]) (by simp)⟩

theorem Reached.wait (h : Reached s n u ev ms x t) {d : Nat} (hi : decodeUop (romRead microRom u) = .ok (.uWait d)) :
    ∃ t', Reached s (n + 1) (u + 1#8) (ev ++ [.delay d]) (ms + d) x t' := by
  have hr := t.clock.now_le_read
  exact ⟨_, h.advance hi rfl (by simp) (by simpa using hr) (by simp [h.panel, h.rst, h.dc, h.cs, h.busy]) (by simp)⟩

theorem Reached.cmd (h : Reached s n u ev ms x t) {k : CmdSlot} (hi : decodeUop (romRead microRom u) = .ok (.uCmd k)) :
    ∃ t', Reached s (n + 1) (u + 1#8) (ev ++ cmdEvents k) ms { x with dc := false, cs := true } t' := by
  have hr : t.clock.now ≤ t.clock.read.read.read.read.now :=
    t.clock.now_le_read.trans ((Clock.now_le_read _).trans ((Clock.now_le_read _).trans (Clock.now_le_read _)))
  exact ⟨_, h.advance (ms' := 0) hi rfl (sendCommand_kinds _ _) (by simpa using hr)
    (by simp [h.panel, h.rst, h.busy]) (by simp)⟩

/-- A data transaction, from CS deasserted: it is deasserted again. -/
theorem Reached.sent (h : Reached s n u ev ms x t) {i : Instr} {bs : List Byte}
    (hi : decodeUop (romRead microRom u) = .ok i) (he : exec i t = .next (Machine.advance (sendData bs t))) :
    ∃ t', Reached s (n + 1) (u + 1#8) (ev ++ dataFrame bs) ms { x with dc := true, cs := true } t' := by
  have hr : t.clock.now ≤ t.clock.read.read.read.read.now :=
    t.clock.now_le_read.trans ((Clock.now_le_read _).trans ((Clock.now_le_read _).trans (Clock.now_le_read _)))
  exact ⟨_, h.advance (ms' := 0) hi he (sendData_kinds _ _) (by simpa using hr)
    (by simp [h.panel, h.rst, h.busy]) (by simp)⟩

/-- A payload, empty or not. What DC is left at depends on that. -/
theorem Reached.data (h : Reached s n u ev ms x t) {p : PayloadSlot} (hi : decodeUop (romRead microRom u) = .ok (.uData p)) :
    ∃ t' dc, Reached s (n + 1) (u + 1#8) (ev ++ datEvents p) ms
      { x with dc := dc, cs := if (Config.payloadTable p).length > 0 then true else x.cs } t' := by
  by_cases hp : (Config.payloadTable p).length > 0
  · obtain ⟨t', h'⟩ := h.sent (bs := Config.payloadTable p) hi (by simp only [exec, execUData, if_pos hp])
    simp only [datEvents, if_pos hp]
    exact ⟨t', true, h'⟩
  · simp only [datEvents, if_neg hp]
    exact ⟨_, x.dc, h.advance (v := t) (ms' := 0) hi (by simp only [exec, execUData, if_neg hp]) (by simp) (by simp)
      (by simp [h.panel, h.rst, h.dc, h.cs, h.busy]) (by simp)⟩

theorem Reached.setState (h : Reached s n u ev ms x t) {p : PanelState}
    (hi : decodeUop (romRead microRom u) = .ok (.uSetState p)) :
    ∃ t', Reached s (n + 1) (u + 1#8) ev ms { x with panel := p.code } t' := by
  have := h.advance (v := { t with panelState := p.code }) (ms' := 0) (ev' := []) hi rfl (by simp) (by simp)
    (y := { x with panel := p.code }) (by simp [h.rst, h.dc, h.cs, h.busy]) (by simp)
  rw [List.append_nil] at this
  exact ⟨_, this⟩

/-- A register write: its command, then its payload. CS is deasserted after it, whether the payload is empty or not. -/
theorem Reached.write (h : Reached s n u ev ms x t) {k : CmdSlot} {p : PayloadSlot}
    (hk : decodeUop (romRead microRom u) = .ok (.uCmd k)) (hp : decodeUop (romRead microRom (u + 1#8)) = .ok (.uData p)) :
    ∃ t' dc, Reached s (n + 2) (u + 1#8 + 1#8) (ev ++ (cmdEvents k ++ datEvents p)) ms ⟨x.panel, x.rst, dc, true, x.busy⟩ t' := by
  obtain ⟨_, h⟩ := h.cmd hk
  obtain ⟨t', dc, h⟩ := h.data hp
  refine ⟨t', dc, ?_⟩
  simpa [List.append_assoc] using h

/-- Register writes one after the other. -/
theorem Reached.writes (l : List (CmdSlot × PayloadSlot)) {a : Nat} (h : Reached s n (BitVec.ofNat 8 a) ev ms x t) (hl : l ≠ [])
    (hi : ∀ j w, l[j]? = some w → decodeUop (romRead microRom (BitVec.ofNat 8 (a + 2 * j))) = .ok (.uCmd w.1) ∧
      decodeUop (romRead microRom (BitVec.ofNat 8 (a + 2 * j + 1))) = .ok (.uData w.2)) :
    ∃ t' dc, Reached s (n + 2 * l.length) (BitVec.ofNat 8 (a + 2 * l.length))
      (ev ++ l.flatMap fun w => cmdEvents w.1 ++ datEvents w.2) ms ⟨x.panel, x.rst, dc, true, x.busy⟩ t' := by
  induction l generalizing a n ev x t with
  | nil => exact absurd rfl hl
  | cons w l ih =>
    have hw := hi 0 w rfl
    have e1 : BitVec.ofNat 8 a + 1#8 = BitVec.ofNat 8 (a + 1) := by rw [BitVec.ofNat_add]
    have e2 : BitVec.ofNat 8 a + 1#8 + 1#8 = BitVec.ofNat 8 (a + 2) := by rw [e1, ← BitVec.ofNat_add]
    obtain ⟨t', dc, h⟩ := h.write hw.1 (by rw [e1]; exact hw.2)
    rw [e2] at h
    by_cases hn : l = []
    · subst hn
      exact ⟨t', dc, by simpa using h⟩
    · obtain ⟨t', dc, h⟩ := ih h hn fun j v hj => by
        have := hi (j + 1) v hj
        rwa [show a + 2 * (j + 1) = a + 2 + 2 * j by omega] at this
      refine ⟨t', dc, ?_⟩
      rw [show n + 2 + 2 * l.length = n + 2 * (w :: l).length by simp; omega,
        show a + 2 + 2 * l.length = a + 2 * (w :: l).length by simp; omega] at h
      simpa [List.append_assoc] using h

/-- One awaited sample of a poll within a refresh (R131, R132). -/
theorem Reached.polled (h : Reached s n u ev ms x t) {want : Bool}
    (hi : decodeUop (romRead microRom u) = .ok (if want then .uPollReady else .uPollNotReady)) (hb : x.busy.sample = want) :
    ∃ t', Reached s (n + 1) (u + 1#8) (ev ++ [.busy want]) ms { x with busy := x.busy.next } t' := by
  have hr := t.clock.now_le_read
  have hs : t.busy.sample = want := by rw [h.busy, hb]
  exact ⟨_, h.advance (v := sampleBusy t) (ms' := 0) hi
    (by cases want <;> simp [exec, execUPollReady, execUPollNotReady, refreshPoll, hs])
    (by simp [hs]) (by simpa using hr) (by simp [h.panel, h.rst, h.dc, h.cs, h.busy]) (by simp)⟩

/-- A ready sample of the init poll (R130). -/
theorem Reached.polledInit (h : Reached s n u ev ms x t) {d : Nat}
    (hi : decodeUop (romRead microRom u) = .ok (.uPollReadyTo d)) (hb : x.busy.sample = true) :
    ∃ t', Reached s (n + 1) (u + 1#8) (ev ++ [.busy true]) ms { x with busy := x.busy.next } t' := by
  have hr := t.clock.now_le_read
  have hs : t.busy.sample = true := by rw [h.busy, hb]
  exact ⟨_, h.advance (v := sampleBusy t) (ms' := 0) hi (by simp [exec, execUPollReadyTo, initPoll, hs])
    (by simp [hs]) (by simpa using hr) (by simp [h.panel, h.rst, h.dc, h.cs, h.busy]) (by simp)⟩

/-- A sample that is not awaited, with `REFRESH_TIMEOUT_MS = none`: the poll stays (R131, R132). -/
theorem Reached.waiting (h : Reached s n u ev ms x t) {want : Bool}
    (hi : decodeUop (romRead microRom u) = .ok (if want then .uPollReady else .uPollNotReady)) (hb : x.busy.sample = !want) :
    Reached s (n + 1) u (ev ++ [.busy (!want)]) ms { x with busy := x.busy.next } (sampleBusy t) := by
  have hr := t.clock.now_le_read
  have ht := h.time
  have hl := h.latched
  have hs : t.busy.sample = !want := by rw [h.busy, hb]
  have he : exec (if want then .uPollReady else .uPollNotReady) t = .next (sampleBusy t) := by
    cases want <;> simp [exec, execUPollReady, execUPollNotReady, refreshPoll, hs, Config.refreshTimeoutMs]
  refine ⟨run_snoc h.run ((h.step hi).trans he), ?_, ?_, ?_, ?_, ?_, ?_, ?_, ?_, ?_, ?_, ?_, ?_, ?_, ?_, ?_, ?_, ?_, ?_⟩ <;>
    simp only [sampleBusy_seq, sampleBusy_rom, sampleBusy_upc, sampleBusy_trace, sampleBusy_clock, sampleBusy_t0,
      sampleBusy_panelState, sampleBusy_rst, sampleBusy_dc, sampleBusy_cs, sampleBusy_busy, sampleBusy_fb, sampleBusy_fbLen,
      sampleBusy_rotation, sampleBusy_port, sampleBusy_req, sampleBusy_fault, sampleBusy_completed]
  · exact h.seq
  · exact h.rom
  · exact h.upc
  · simp [h.events, hs]
  · omega
  · omega
  · exact h.panel
  · exact h.rst
  · exact h.dc
  · exact h.cs
  · rw [h.busy]
  · exact h.fb
  · exact h.fbLen
  · exact h.rotation
  · exact h.port
  · exact h.req
  · exact h.fault
  · exact h.completed

/-- `a` samples that are not awaited and one that is: the poll waits and then advances. -/
theorem Reached.poll (h : Reached s n u ev ms x t) {want : Bool} (a : Nat)
    (hi : decodeUop (romRead microRom u) = .ok (if want then .uPollReady else .uPollNotReady))
    (hb : x.busy.samples (a + 1) = List.replicate a (!want) ++ [want]) :
    ∃ t', Reached s (n + a + 1) (u + 1#8) (ev ++ (List.replicate a (.busy (!want)) ++ [.busy want])) ms
      { x with busy := x.busy.after (a + 1) } t' := by
  induction a generalizing n ev x t with
  | zero =>
    simp only [BusyInput.samples, List.replicate_zero, List.nil_append, List.cons.injEq, and_true] at hb
    simpa [BusyInput.after] using h.polled hi hb
  | succ a ih =>
    rw [BusyInput.samples, List.replicate_succ, List.cons_append, List.cons.injEq] at hb
    obtain ⟨t', h'⟩ := ih (h.waiting hi hb.1) hb.2
    refine ⟨t', ?_⟩
    rw [show n + 1 + a + 1 = n + (a + 1) + 1 by omega] at h'
    simpa [List.replicate_succ, BusyInput.after] using h'

/-- The ten register writes of INIT, in order (R137). -/
def initRegisters : List (CmdSlot × PayloadSlot) :=
  [(.psr, .psrData), (.pwr, .pwrData), (.pfs, .pfsData), (.btst, .btstData), (.pll, .pllData), (.tse, .tseData), (.cdi, .cdiData),
   (.vsr, .vsrData), (.tres, .tresData), (.cal, .calData)]

theorem rom_initRegisters (j : Nat) (w : CmdSlot × PayloadSlot) (h : initRegisters[j]? = some w) :
    decodeUop (romRead microRom (BitVec.ofNat 8 (5 + 2 * j))) = .ok (.uCmd w.1) ∧
    decodeUop (romRead microRom (BitVec.ofNat 8 (5 + 2 * j + 1))) = .ok (.uData w.2) := by
  have hj : j < 10 := by
    have := (List.getElem?_eq_some_iff.mp h).1
    simpa [initRegisters] using this
  rw [rom_init (by omega), show 5 + 2 * j + 1 = 6 + 2 * j by omega, rom_init (by omega)]
  interval_cases j <;> (cases h; exact ⟨rfl, rfl⟩)

/-- INIT from behind its poll to its last micro-op: everything the panel is sent (R136, R137). -/
theorem Reached.initRest (h : Reached s n (BitVec.ofNat 8 5) ev ms x t) :
    ∃ t' dc, Reached s (n + 24) (BitVec.ofNat 8 29) (ev ++ initWrites) (ms + 100) ⟨1#2, x.rst, dc, true, x.busy⟩ t' := by
  obtain ⟨_, _, h⟩ := h.writes initRegisters (by decide) rom_initRegisters
  rw [show 2 * initRegisters.length = 20 from rfl] at h
  obtain ⟨_, h⟩ := h.wait (d := 100) (rom_init (k := 25) (by decide))
  rw [show BitVec.ofNat 8 (5 + 20) + 1#8 = BitVec.ofNat 8 26 from rfl] at h
  obtain ⟨t', dc, h⟩ := h.write (k := .cdi) (p := .vcomData) (rom_init (k := 26) (by decide))
    (by rw [show BitVec.ofNat 8 26 + 1#8 = BitVec.ofNat 8 27 from rfl]; exact rom_init (k := 27) (by decide))
  rw [show BitVec.ofNat 8 26 + 1#8 + 1#8 = BitVec.ofNat 8 28 from rfl] at h
  obtain ⟨t', h⟩ := h.setState (p := .active) (rom_init (k := 28) (by decide))
  refine ⟨t', dc, ?_⟩
  have he : ev ++ initRegisters.flatMap (fun w => cmdEvents w.1 ++ datEvents w.2) ++ [.delay 100] ++
      (cmdEvents .cdi ++ datEvents .vcomData) = ev ++ initWrites := by
    unfold initWrites initRegisters
    generalize cmdEvents = c
    generalize datEvents = d
    simp
  rw [he] at h
  exact h

/-- The end of a sequence (R134). -/
theorem Reached.ended (h : Reached s n u ev ms x t) {rc : BitVec 4} {res : BitVec 8}
    (hi : decodeUop (romRead microRom u) = .ok (.uEnd rc res)) :
    Host.Core.run Sys2Proof.core (n + 1) s = .next (endSequence rc res.toNat t) :=
  run_snoc h.run ((h.step hi).trans rfl)

end Sys2Proof.Machine
end

