-- ==== Sys2Proof/Laws/Trace.lean ====
section
/-! SUPPORT. What every micro-op keeps, said once for all eleven: whole transactions (spec/20 R83, spec/40 R103), events in the order
of time (spec/20 R62), and the fields that no micro-op writes (spec/10 R34). -/

namespace Sys2Proof.Machine

theorem framed_dc {v : Bool} {l : List EventKind} : framed (.line .dc v :: l) = framed l := by
  rw [framed] <;> intros <;> simp_all

/-- Framed traces one after the other are a framed trace. -/
theorem framed_append {a b : List EventKind} (ha : framed a = true) (hb : framed b = true) :
    framed (a ++ b) = true := by
  induction a using framed.induct with
  | case1 => exact hb
  | case2 v w rest ih => simp only [framed] at ha; simpa only [List.cons_append, framed] using ih ha
  | case3 w rest => simp [framed] at ha
  | case4 x rest h1 h2 ih =>
    rw [framed] at ha
    · have hr := ih ha
      rw [List.cons_append]
      by_cases hx : ∃ v w l, x = .line .cs false ∧ rest ++ b = .line .dc v :: .write w :: .line .cs true :: l
      · obtain ⟨v, w, l, rfl, e⟩ := hx
        rw [e, framed_dc] at hr
        simp [framed] at hr
      · rw [framed]
        · exact hr
        · intro v w l h1 h2; exact hx ⟨v, w, l, h1, h2⟩
        · intro w h; exact h2 w h
    · exact h1
    · exact h2

/-- Events are recorded in the order of time, none after the last reading. -/
structure TimeOk (s : State) : Prop where
  ordered : s.trace.Pairwise fun e e' => e.time ≤ e'.time
  past : ∀ e ∈ s.trace, e.time ≤ s.clock.now

theorem TimeOk.record {s : State} (k : EventKind) (h : TimeOk s) : TimeOk (record k s) where
  ordered := by
    simp only [record_trace]
    rw [List.pairwise_append]
    refine ⟨h.ordered, by simp, ?_⟩
    intro a ha b hb
    simp at hb; subst hb
    exact (h.past a ha).trans (Clock.now_le_read _)
  past := by
    intro e he
    simp only [record_trace, List.mem_append, List.mem_singleton] at he
    rcases he with he | rfl
    · exact (h.past e he).trans (Clock.now_le_read _)
    · exact le_rfl

theorem TimeOk.of {s t : State} (h : TimeOk s) (h1 : t.trace = s.trace) (h2 : s.clock.now ≤ t.clock.now) : TimeOk t where
  ordered := h1 ▸ h.ordered
  past := fun e he => (h.past e (h1 ▸ he)).trans h2

theorem TimeOk.drive {s : State} (l : Line) (v : Bool) (h : TimeOk s) : TimeOk (driveLine l v s) :=
  TimeOk.record _ (h.of (by simp) (by simp))

theorem TimeOk.cmd {s : State} (bs : List Byte) (h : TimeOk s) : TimeOk (sendCommand bs s) :=
  TimeOk.drive _ _ (TimeOk.record _ (TimeOk.drive _ _ (TimeOk.drive _ _ h)))

theorem TimeOk.dat {s : State} (bs : List Byte) (h : TimeOk s) : TimeOk (sendData bs s) :=
  TimeOk.drive _ _ (TimeOk.record _ (TimeOk.drive _ _ (TimeOk.drive _ _ h)))

theorem TimeOk.adv {s : State} (h : TimeOk s) : TimeOk (advance s) := h.of (by simp) (by simpa using Clock.now_le_read _)

theorem TimeOk.rd {s : State} (h : TimeOk s) : TimeOk (readClock s) := h.of (by simp) (by simpa using Clock.now_le_read _)

theorem TimeOk.smp {s : State} (h : TimeOk s) : TimeOk (sampleBusy s) := TimeOk.record _ (h.of rfl le_rfl)

theorem TimeOk.del {s : State} (ms : Nat) (h : TimeOk s) : TimeOk (delay ms s) := (TimeOk.record (.delay ms) h).of rfl (by simp [delay])

/-- Every micro-op keeps the order of time. -/
theorem uop_time {i : Instr} {s t : State} (hu : i.isUop = true) (he : exec i s = .next t) (h : TimeOk s) :
    TimeOk t := by
  cases i <;> simp [Instr.isUop] at hu <;>
    simp only [exec, execUPin, execUWait, execUCmd, execUData, execUDataFb, execUDataBg,
      execUPollReadyTo, execUPollReady, execUPollNotReady, execUSetState, execUEnd, Host.Outcome.next.injEq, initPoll,
      refreshPoll, Config.refreshTimeoutMs] at he <;> subst he
  · exact (h.drive _ _).adv
  · exact (h.del _).adv
  · exact (h.cmd _).adv
  · split
    · exact (h.dat _).adv
    · exact h.adv
  · split
    · exact (h.dat _).adv
    · exact h.of rfl le_rfl
  · exact (h.dat _).adv
  · split
    · exact h.smp.adv
    · split
      · exact h.smp.rd.of (by simp) (by simp)
      · exact h.smp.rd
  · split
    · exact h.smp.adv
    · exact h.smp
  · split
    · exact h.smp.adv
    · exact h.smp
  · exact TimeOk.adv (h.of rfl le_rfl)
  · exact h.of (by simp) (by simp)

/-- Every micro-op keeps the framing of transactions. -/
theorem uop_framed {i : Instr} {s t : State} (hu : i.isUop = true) (he : exec i s = .next t)
    (h : framed (kinds s.trace) = true) : framed (kinds t.trace) = true := by
  cases i <;> simp [Instr.isUop] at hu <;>
    simp only [exec, execUPin, execUWait, execUCmd, execUData, execUDataFb, execUDataBg,
      execUPollReadyTo, execUPollReady, execUPollNotReady, execUSetState, execUEnd, Host.Outcome.next.injEq, initPoll,
      refreshPoll, Config.refreshTimeoutMs] at he <;> subst he
  · simp; exact framed_append h (by simp [framed])
  · simp; exact framed_append h (by simp [framed])
  · simp only [advance_trace, sendCommand_kinds]; exact framed_append h (by simp [framed, commandFrame])
  · split
    · simp only [advance_trace, sendData_kinds]; exact framed_append h (by simp [framed, dataFrame])
    · simpa using h
  · split
    · simp only [advance_trace, sendData_kinds]; exact framed_append h (by simp [framed, dataFrame])
    · simpa using h
  · simp only [advance_trace, sendData_kinds]; exact framed_append h (by simp [framed, dataFrame])
  · split
    · simp; exact framed_append h (by simp [framed])
    · split
      · simp; exact framed_append h (by simp [framed])
      · simp; exact framed_append h (by simp [framed])
  · split
    · simp; exact framed_append h (by simp [framed])
    · simp; exact framed_append h (by simp [framed])
  · split
    · simp; exact framed_append h (by simp [framed])
    · simp; exact framed_append h (by simp [framed])
  · simpa using h
  · simpa using h


theorem clk2 (c : Clock) : c.now ≤ c.read.now ∧ c.read.now ≤ c.read.read.now := ⟨Clock.now_le_read _, Clock.now_le_read _⟩

theorem clk4 (c : Clock) : c.now ≤ c.read.read.read.read.now := (Clock.now_le_read _).trans ((Clock.now_le_read _).trans ((Clock.now_le_read _).trans (Clock.now_le_read _)))

/-- What a micro-op leaves alone, with the framebuffer's length right. -/
structure Rest (s t : State) : Prop where
  fb : t.fb = s.fb
  fbLen : t.fbLen = s.fbLen
  rom : t.rom = s.rom
  fault : t.fault = s.fault
  last : lastResultOk s → lastResultOk t
  lat : s.t0 ≤ s.clock.now → t.t0 ≤ t.clock.now

theorem Rest.of {s t : State} (h1 : t.fb = s.fb) (h2 : t.fbLen = s.fbLen) (h3 : t.rom = s.rom) (h4 : t.fault = s.fault) (h5 : t.completed = s.completed) (h6 : t.rcode = s.rcode)
   (h7 : t.result = s.result) (h8 : s.t0 ≤ s.clock.now → t.t0 ≤ t.clock.now) : Rest s t :=
  ⟨h1, h2, h3, h4, by unfold lastResultOk; rw [h5, h6, h7]; exact id, h8⟩

theorem Rest.adv {s t : State} (h : Rest s t) : Rest s (advance t) :=
  ⟨by simpa using h.fb, by simpa using h.fbLen, by simpa using h.rom, by simpa using h.fault, by simpa [lastResultOk] using h.last, fun _ => by simp⟩

theorem Rest.fin {s t : State} (rc : BitVec 4) (res : Nat) (h : Rest s t) : Rest s (endSequence rc res t) :=
  ⟨by simpa using h.fb, by simpa using h.fbLen, by simpa using h.rom, by simpa using h.fault, fun _ => by simp [lastResultOk], by simpa using h.lat⟩

theorem rest_dat (bs : List Byte) (s : State) : Rest s (sendData bs s) := by
  apply Rest.of <;> simp
  exact fun h => h.trans (clk4 _)

theorem rest_cmd (bs : List Byte) (s : State) : Rest s (sendCommand bs s) := by
  apply Rest.of <;> simp
  exact fun h => h.trans (clk4 _)

theorem rest_smp (s : State) : Rest s (sampleBusy s) := by
  apply Rest.of <;> simp
  exact fun h => h.trans (clk2 _).1

theorem rest_rd_smp (s : State) : Rest s (readClock (sampleBusy s)) := by
  apply Rest.of <;> simp
  exact fun h => h.trans ((clk2 _).1.trans (clk2 _).2)
/-- What no micro-op writes (R34), and that `RCODE` and `RESULT` stay those of the last completion. -/
theorem uop_rest {i : Instr} {s t : State} (hu : i.isUop = true) (he : exec i s = .next t) (hl : s.fbLen = 134400) :
    Rest s t := by
  have hd : s.fbLen = Config.fbBytes := by rw [fbBytes_eq, hl]
  cases i <;> simp [Instr.isUop] at hu <;>
    simp only [exec, execUPin, execUWait, execUCmd, execUData, execUDataFb, execUDataBg,
      execUPollReadyTo, execUPollReady, execUPollNotReady, execUSetState, execUEnd, Host.Outcome.next.injEq, initPoll,
      refreshPoll, Config.refreshTimeoutMs, hd, if_true] at he <;> subst he
  · refine Rest.adv (Rest.of ?_ ?_ ?_ ?_ ?_ ?_ ?_ ?_) <;> simp
    exact fun h => h.trans (clk2 _).1
  · refine Rest.adv (Rest.of ?_ ?_ ?_ ?_ ?_ ?_ ?_ ?_) <;> simp
    exact fun h => h.trans ((clk2 _).1.trans (by omega))
  · exact (rest_cmd _ _).adv
  · split
    · exact (rest_dat _ _).adv
    · exact (Rest.of rfl rfl rfl rfl rfl rfl rfl id).adv
  · exact (rest_dat _ _).adv
  · exact (rest_dat _ _).adv
  · split
    · exact (rest_smp _).adv
    · split
      · refine Rest.fin _ _ ?_
        have := rest_rd_smp s
        exact Rest.of this.fb this.fbLen this.rom this.fault rfl rfl rfl this.lat
      · exact rest_rd_smp s
  · split
    · exact (rest_smp _).adv
    · exact rest_smp _
  · split
    · exact (rest_smp _).adv
    · exact rest_smp _
  · exact Rest.adv (Rest.of rfl hd.symm rfl rfl rfl rfl rfl id)
  · exact Rest.fin _ _ (Rest.of rfl rfl rfl rfl rfl rfl rfl id)

end Sys2Proof.Machine
end

