-- ==== Sys2Proof/Machine/Asm.lean ====
section
/-! DEFINITION. The assembler's text of an instruction: requests as spec/30_encoding.md R88 writes them, micro-ops as R90 does. -/

namespace Sys2Proof

namespace Asm

/-- A colour operand: its name, or its number if it is reserved (R80, R88). -/
def color (c : Nibble) : String :=
  match c.toNat with
  | 0 => "BLACK" | 1 => "WHITE" | 2 => "GREEN" | 3 => "BLUE" | 4 => "RED" | 5 => "YELLOW" | 6 => "ORANGE"
  | n => toString n

/-- A byte of a bitmap operand (R88). -/
def byte (b : Byte) : String :=
  String.ofList ['0', 'x', Nat.digitChar (b.toNat / 16), Nat.digitChar (b.toNat % 16)]

/-- Operands separated by commas (R88). -/
def commas (parts : List String) : String := ", ".intercalate parts

/-- A mnemonic with operands. -/
def line (mnemonic : String) (parts : List String) : String :=
  if parts.isEmpty then mnemonic else mnemonic ++ " " ++ commas parts

/-- A level or a boolean operand (R88, R90; log 22). -/
def bit (b : Bool) : String := if b then "1" else "0"

/-- The line names of R90. -/
def lineName : Line → String
  | .rst => "RST" | .dc => "DC" | .cs => "CS"

/-- The slot names of R84. -/
def cmdName : CmdSlot → String
  | .psr => "PSR" | .pwr => "PWR" | .pfs => "PFS" | .btst => "BTST" | .pll => "PLL" | .tse => "TSE" | .cdi => "CDI"
  | .vsr => "VSR" | .tres => "TRES" | .cal => "CAL" | .dtm => "DTM" | .pof => "POF" | .drf => "DRF" | .dslp => "DSLP"

/-- The slot names of R85. -/
def payloadName : PayloadSlot → String
  | .psrData => "PSR_DATA" | .pwrData => "PWR_DATA" | .pfsData => "PFS_DATA" | .btstData => "BTST_DATA"
  | .pllData => "PLL_DATA" | .tseData => "TSE_DATA" | .cdiData => "CDI_DATA" | .vsrData => "VSR_DATA"
  | .tresData => "TRES_DATA" | .calData => "CAL_DATA" | .vcomData => "VCOM_DATA" | .dslpData => "DSLP_DATA"

/-- The panel states of R90. -/
def panelName : PanelState → String
  | .uninitialized => "Uninitialized" | .active => "Active" | .sleeping => "Sleeping"

end Asm

/-- The assembler's line of an instruction (R88, R90; log 22). -/
def Instr.text : Instr → String
  | .writePixel x y c => Asm.line "writePixel" [toString x, toString y, Asm.color c]
  | .writeFastHLine x y w c => Asm.line "writeFastHLine" [toString x, toString y, toString w, Asm.color c]
  | .writeFastVLine x y h c => Asm.line "writeFastVLine" [toString x, toString y, toString h, Asm.color c]
  | .writeFillRect x y w h c =>
    Asm.line "writeFillRect" [toString x, toString y, toString w, toString h, Asm.color c]
  | .drawBitmap x y data w h c =>
    Asm.line "drawBitmap" [toString x, toString y, "[" ++ Asm.commas (data.map Asm.byte) ++ "]", toString w, toString h,
      Asm.color c]
  | .width => "width"
  | .height => "height"
  | .setRotation r => Asm.line "setRotation" [toString r]
  | .getRotation => "getRotation"
  | .clearDisplay => "clearDisplay"
  | .display => "display"
  | .clean => "clean"
  | .getPanelState => "getPanelState"
  | .setPanelState active => Asm.line "setPanelState" [Asm.bit active]
  | .uPin l v => Asm.line "U_PIN" [Asm.lineName l, Asm.bit v]
  | .uWait ms => Asm.line "U_WAIT" [toString ms]
  | .uCmd k => Asm.line "U_CMD" [Asm.cmdName k]
  | .uData p => Asm.line "U_DATA" [Asm.payloadName p]
  | .uDataFb => "U_DATA_FB"
  | .uDataBg => "U_DATA_BG"
  | .uPollReadyTo ms => Asm.line "U_POLL_READY_TO" [toString ms]
  | .uPollReady => "U_POLL_READY"
  | .uPollNotReady => "U_POLL_NOTREADY"
  | .uSetState p => Asm.line "U_SETSTATE" [Asm.panelName p]
  | .uEnd rc res => Asm.line "U_END" [toString rc.toNat, toString res.toNat]

end Sys2Proof
end

