-- ==== Sys2Proof/Tests/Slice0.lean ====
section
/-! SUPPORT. The model's own tests: ill-formed terms that WellFormed refuses, words written out from spec/30_encoding.md, single steps
with the values of spec/95_test_vectors.md, and for each statement a concrete input that meets its hypotheses. -/

namespace Sys2Proof.Tests

open Sys2Proof.Machine

/-! ## Helpers -/

/-- The next state of an outcome. -/
def nextOf : Host.Outcome State Fault Refusal → Option State
  | .next s => some s
  | .fault _ => none
  | .refused _ => none

/-- An idle, unfaulted PDC after CLEAR_DISPLAY at rotation 2, in a given panel state, with a clock that stands still for eight
readings. -/
def bare (panel : BitVec 2) : State where
  fb := []
  fbLen := 134400
  rotation := 2#2
  panelState := panel
  rst := true
  dc := false
  cs := true
  seq := false
  upc := 0#8
  t0 := 0
  req := none
  rcode := 0#4
  result := 0
  fault := 0#4
  rom := microRom
  port := []
  clock := { now := 0, script := [0, 0, 0, 0, 0, 0, 0, 0], stall := 0, drawn := 0 }
  busy := { script := [], drawn := 0 }
  trace := []
  completed := []

/-- A request waiting at the port of `bare`. -/
def waiting (panel : BitVec 2) (r : RawRequest) : State := { bare panel with port := [r] }

/-- A micro-program running at `upc`. -/
def running (panel : BitVec 2) (upc : BitVec 8) (bs : List Bool) : State :=
  { bare panel with seq := true, upc := upc, busy := { script := bs, drawn := 0 } }

/-- A micro-program running at address 0 of a ROM that holds one word. -/
def onWord (u : UopWord) : State := { bare 1#2 with seq := true, rom := [(0, u)] }

/-- A byte of the framebuffer after one instruction at rotation `r`. -/
def byteAfter (i : Instr) (r : BitVec 2) (k : Nat) : Option Byte :=
  (nextOf (exec i { bare 0#2 with rotation := r })).map fun t => fbRead t.fb k

/-- The result code and result after one instruction. -/
def resultAfter (i : Instr) (s : State) : Option (BitVec 4 × Nat) :=
  (nextOf (exec i s)).map fun t => (t.rcode, t.result)

/-! ## Ill-formed terms (R71, R86) -/

theorem test_wf_refuses_pixel :
    Instr.wf (.writePixel 32768 0 0#4) = false ∧ Instr.wf (.writePixel 0 (-32769) 0#4) = false := by decide

theorem test_wf_refuses_hline :
    Instr.wf (.writeFastHLine 32768 0 0 0#4) = false ∧ Instr.wf (.writeFastHLine 0 32768 0 0#4) = false ∧
    Instr.wf (.writeFastHLine 0 0 32768 0#4) = false := by decide

theorem test_wf_refuses_vline :
    Instr.wf (.writeFastVLine (-32769) 0 0 0#4) = false ∧ Instr.wf (.writeFastVLine 0 (-32769) 0 0#4) = false ∧
    Instr.wf (.writeFastVLine 0 0 (-32769) 0#4) = false := by decide

theorem test_wf_refuses_rect :
    Instr.wf (.writeFillRect 32768 0 0 0 0#4) = false ∧ Instr.wf (.writeFillRect 0 32768 0 0 0#4) = false ∧
    Instr.wf (.writeFillRect 0 0 32768 0 0#4) = false ∧ Instr.wf (.writeFillRect 0 0 0 32768 0#4) = false := by decide

theorem test_wf_refuses_bitmap :
    Instr.wf (.drawBitmap 32768 0 [] 0 0 0#4) = false ∧ Instr.wf (.drawBitmap 0 32768 [] 0 0 0#4) = false ∧
    Instr.wf (.drawBitmap 0 0 [] 32768 0 0#4) = false ∧ Instr.wf (.drawBitmap 0 0 [] 0 32768 0#4) = false := by decide

theorem test_wf_refuses_rotation :
    Instr.wf (.setRotation 32768) = false ∧ Instr.wf (.setRotation (-32769)) = false := by decide

theorem test_wf_refuses_wait :
    Instr.wf (.uWait 16777216) = false ∧ Instr.wf (.uWait 16777215) = true := by decide

theorem test_wf_refuses_poll :
    Instr.wf (.uPollReadyTo 16777216) = false ∧ Instr.wf (.uPollReadyTo 16777215) = true := by decide

theorem test_wf_refuses_reserved_rcode :
    Instr.wf (.uEnd 3#4 0#8) = false ∧ Instr.wf (.uEnd 15#4 0#8) = false ∧ Instr.wf (.uEnd 2#4 255#8) = true := by decide

theorem test_wf_takes_bounds :
    Instr.wf (.writePixel (-32768) 32767 15#4) = true ∧ Instr.wf (.setRotation (-32768)) = true := by decide

/-! ## Words written out from the encoding (T-E1, R92, R123) -/

theorem test_decode_pixel :
    decodeRequest ⟨0x0120025701BF000000000000#96, []⟩ = .ok (.writePixel 599 447 2#4) ∧
    decodeRequest ⟨0x0130FFFF0005000000000000#96, []⟩ = .ok (.writePixel (-1) 5 3#4) := by decide

theorem test_decode_hline :
    decodeRequest ⟨0x0240FFFE0000000400000000#96, []⟩ = .ok (.writeFastHLine (-2) 0 4 4#4) := by decide

theorem test_decode_vline :
    decodeRequest ⟨0x033000010000000200000000#96, []⟩ = .ok (.writeFastVLine 1 0 2 3#4) := by decide

theorem test_decode_rect :
    decodeRequest ⟨0x0430025601BE000200020000#96, []⟩ = .ok (.writeFillRect 598 446 2 2 3#4) ∧
    decodeRequest ⟨0x04600000000001C002580000#96, []⟩ = .ok (.writeFillRect 0 0 448 600 6#4) := by decide

theorem test_decode_width :
    decodeRequest ⟨0x100000000000000000000000#96, []⟩ = .ok (.width) := by decide

theorem test_decode_height :
    decodeRequest ⟨0x110000000000000000000000#96, []⟩ = .ok (.height) := by decide

theorem test_decode_set_rotation :
    decodeRequest ⟨0x1200FFFF0000000000000000#96, []⟩ = .ok (.setRotation (-1)) ∧
    decodeRequest ⟨0x120080000000000000000000#96, []⟩ = .ok (.setRotation (-32768)) ∧
    decodeRequest ⟨0x12007FFF0000000000000000#96, []⟩ = .ok (.setRotation 32767) := by decide

theorem test_decode_get_rotation :
    decodeRequest ⟨0x130000000000000000000000#96, []⟩ = .ok (.getRotation) := by decide

theorem test_decode_clear :
    decodeRequest ⟨0x200000000000000000000000#96, []⟩ = .ok (.clearDisplay) := by decide

theorem test_decode_display :
    decodeRequest ⟨0x300000000000000000000000#96, []⟩ = .ok (.display) := by decide

theorem test_decode_clean :
    decodeRequest ⟨0x310000000000000000000000#96, []⟩ = .ok (.clean) := by decide

theorem test_decode_get_panel :
    decodeRequest ⟨0x320000000000000000000000#96, []⟩ = .ok (.getPanelState) := by decide

theorem test_decode_set_panel :
    decodeRequest ⟨0x330000000000000000000000#96, []⟩ = .ok (.setPanelState false) ∧
    decodeRequest ⟨0x330100000000000000000000#96, []⟩ = .ok (.setPanelState true) := by decide

theorem test_decode_bitmap :
    decodeRequest ⟨0x054000000000000A00020000#96, [0x80#8, 0x40#8, 0x00#8, 0x80#8]⟩ = .ok (.drawBitmap 0 0 [0x80#8, 0x40#8, 0x00#8, 0x80#8] 10 2 4#4) := by decide

/-- T-E3: a reserved colour is no decode error. -/
theorem test_decode_reserved_color :
    decodeRequest ⟨0x0170000A000A000000000000#96, []⟩ = .ok (.writePixel 10 10 7#4) := by decide

theorem test_decode_u_pin :
    decodeUop 0x01000000#32 = .ok (.uPin .rst false) ∧
    decodeUop 0x01000101#32 = .ok (.uPin .dc true) ∧
    decodeUop 0x01000201#32 = .ok (.uPin .cs true) := by decide

theorem test_decode_u_wait :
    decodeUop 0x020000C8#32 = .ok (.uWait 200) ∧
    decodeUop 0x02FFFFFF#32 = .ok (.uWait 16777215) := by decide

theorem test_decode_u_cmd :
    decodeUop 0x0300000D#32 = .ok (.uCmd .dslp) ∧
    decodeUop 0x03000006#32 = .ok (.uCmd .cdi) := by decide

theorem test_decode_u_data :
    decodeUop 0x0400000A#32 = .ok (.uData .vcomData) ∧
    decodeUop 0x0400000B#32 = .ok (.uData .dslpData) := by decide

theorem test_decode_u_data_fb :
    decodeUop 0x05000000#32 = .ok (.uDataFb) := by decide

theorem test_decode_u_data_bg :
    decodeUop 0x06000000#32 = .ok (.uDataBg) := by decide

theorem test_decode_u_poll_ready_to :
    decodeUop 0x07002710#32 = .ok (.uPollReadyTo 10000) := by decide

theorem test_decode_u_poll_ready :
    decodeUop 0x08000000#32 = .ok (.uPollReady) := by decide

theorem test_decode_u_poll_notready :
    decodeUop 0x09000000#32 = .ok (.uPollNotReady) := by decide

theorem test_decode_u_setstate :
    decodeUop 0x0A000001#32 = .ok (.uSetState .active) ∧
    decodeUop 0x0A000002#32 = .ok (.uSetState .sleeping) := by decide

theorem test_decode_u_end :
    decodeUop 0x0B000100#32 = .ok (.uEnd 0#4 1#8) ∧
    decodeUop 0x0B00FF02#32 = .ok (.uEnd 2#4 255#8) := by decide

/-- T-E2. -/
theorem test_illegal_words :
    decodeRequest ⟨0x000000000000000000000000#96, []⟩ = .error .reservedOpcode ∧
    decodeRequest ⟨0x069000000000000000000000#96, []⟩ = .error .reservedOpcode ∧
    decodeRequest ⟨0xFF0000000000000000000000#96, []⟩ = .error .reservedOpcode ∧
    decodeRequest ⟨0x101000000000000000000000#96, []⟩ = .error .unusedNotZero ∧
    decodeRequest ⟨0x010000000000000000000001#96, []⟩ = .error .unusedNotZero ∧
    decodeRequest ⟨0x024000000000000300010000#96, []⟩ = .error .unusedNotZero ∧
    decodeRequest ⟨0x330200000000000000000000#96, []⟩ = .error .unusedNotZero ∧
    decodeRequest ⟨0x300000000000000000000000#96, [0x00#8]⟩ = .error .unusedNotZero ∧
    decodeRequest ⟨0x010100000000000000000000#96, []⟩ = .error .unusedNotZero := by decide

/-- R87: reserved micro-opcodes and reserved arguments. -/
theorem test_illegal_uops :
    decodeUop 0x00000000#32 = .error .reservedUop ∧
    decodeUop 0x0C000000#32 = .error .reservedUop ∧
    decodeUop 0xFF000000#32 = .error .reservedUop ∧
    decodeUop 0x01000300#32 = .error .reservedArgument ∧
    decodeUop 0x01000002#32 = .error .reservedArgument ∧
    decodeUop 0x01000400#32 = .error .reservedArgument ∧
    decodeUop 0x0300000E#32 = .error .reservedArgument ∧
    decodeUop 0x03000100#32 = .error .reservedArgument ∧
    decodeUop 0x0400000C#32 = .error .reservedArgument ∧
    decodeUop 0x05000001#32 = .error .reservedArgument ∧
    decodeUop 0x06000001#32 = .error .reservedArgument ∧
    decodeUop 0x08000001#32 = .error .reservedArgument ∧
    decodeUop 0x09800000#32 = .error .reservedArgument ∧
    decodeUop 0x0A000003#32 = .error .reservedArgument ∧
    decodeUop 0x0A000004#32 = .error .reservedArgument ∧
    decodeUop 0x0B000010#32 = .error .reservedArgument ∧
    decodeUop 0x0B000003#32 = .error .reservedArgument ∧
    decodeUop 0x0B00000F#32 = .error .reservedArgument ∧
    decodeUop 0x0B010000#32 = .error .reservedArgument := by decide

/-- R92 and R123. -/
theorem test_encode_examples :
    encode (.writePixel (-1) 5 3#4) = .request ⟨0x0130FFFF0005000000000000#96, []⟩ ∧
    encode (.writeFillRect 10 20 30 40 5#4) = .request ⟨0x0450000A0014001E00280000#96, []⟩ ∧
    encode (.drawBitmap 0 0 [0xB0#8] 8 1 0#4) = .request ⟨0x050000000000000800010000#96, [0xB0#8]⟩ ∧
    encode (.uPollReadyTo 10000) = .uop 0x07002710#32 := by decide

/-! ## The table's numbering and the first step after reset -/

/-- The `match` words of spec/opcode_table.json, every operand bit zero. -/
def tableWords : List (Nat × Nat) :=
  [(96, 0x010000000000000000000000), (96, 0x020000000000000000000000), (96, 0x030000000000000000000000), (96, 0x040000000000000000000000), (96, 0x050000000000000000000000)]
  ++[(96, 0x100000000000000000000000), (96, 0x110000000000000000000000), (96, 0x120000000000000000000000), (96, 0x130000000000000000000000), (96, 0x200000000000000000000000)]
  ++[(96, 0x300000000000000000000000), (96, 0x310000000000000000000000), (96, 0x320000000000000000000000), (96, 0x330000000000000000000000), (32, 0x01000000)]
  ++[(32, 0x02000000), (32, 0x03000000), (32, 0x04000000), (32, 0x05000000), (32, 0x06000000)]
  ++[(32, 0x07000000), (32, 0x08000000), (32, 0x09000000), (32, 0x0A000000), (32, 0x0B000000)]

/-- The instruction of a table row is decoded, and it runs as the first instruction after reset. -/
def runsFirst (p : Nat × Nat) : Bool :=
  (decodeTableWord p.1 p.2).isSome && (nextOf (step (State.reset.withFetchWord p.1 p.2))).isSome

theorem test_table_rows_run :
    tableWords.all runsFirst = true := by decide

theorem test_table_word_decodes :
    decodeTableWord 96 0x0120025701BF000000000000 = some (.writePixel 599 447 2#4) ∧
    decodeTableWord 32 0x0B00FF02 = some (.uEnd 2#4 255#8) ∧ decodeTableWord 96 0x060000000000000000000000 = none := by decide

theorem test_placed_uop_is_fetched :
    step (State.reset.withFetchWord 32 0x0A000001) =
    exec (.uSetState .active) (State.reset.withFetchWord 32 0x0A000001) := rfl

/-! ## The micro-ROM, word for word (R123) -/

theorem test_rom_init :
    ((List.range 30).map fun k => romRead microRom (BitVec.ofNat 8 (0x0 + k))) =
      [0x01000000#32, 0x02000001#32, 0x01000001#32, 0x02000001#32, 0x07002710#32, 0x03000000#32, 0x04000000#32, 0x03000001#32]
      ++ [0x04000001#32, 0x03000002#32, 0x04000002#32, 0x03000003#32, 0x04000003#32, 0x03000004#32, 0x04000004#32, 0x03000005#32]
      ++ [0x04000005#32, 0x03000006#32, 0x04000006#32, 0x03000007#32, 0x04000007#32, 0x03000008#32, 0x04000008#32, 0x03000009#32]
      ++ [0x04000009#32, 0x02000064#32, 0x03000006#32, 0x0400000A#32, 0x0A000001#32, 0x0B000100#32] := by decide

theorem test_rom_display :
    ((List.range 12).map fun k => romRead microRom (BitVec.ofNat 8 (0x20 + k))) =
      [0x03000008#32, 0x04000008#32, 0x0300000A#32, 0x05000000#32, 0x0300000B#32, 0x08000000#32, 0x0300000C#32, 0x08000000#32]
      ++ [0x0300000B#32, 0x09000000#32, 0x020000C8#32, 0x0B000000#32] := by decide

theorem test_rom_clean :
    ((List.range 12).map fun k => romRead microRom (BitVec.ofNat 8 (0x30 + k))) =
      [0x03000008#32, 0x04000008#32, 0x0300000A#32, 0x06000000#32, 0x0300000B#32, 0x08000000#32, 0x0300000C#32, 0x08000000#32]
      ++ [0x0300000B#32, 0x09000000#32, 0x020000C8#32, 0x0B000000#32] := by decide

theorem test_rom_dslp :
    ((List.range 8).map fun k => romRead microRom (BitVec.ofNat 8 (0x40 + k))) =
      [0x0300000D#32, 0x0400000B#32, 0x02000064#32, 0x01000000#32, 0x01000100#32, 0x01000200#32, 0x0A000002#32, 0x0B000000#32] := by decide

theorem test_rom_elsewhere :
    romRead microRom 0x1E#8 = 0#32 ∧ romRead microRom 0x2C#8 = 0#32 ∧ romRead microRom 0x48#8 = 0#32 ∧
    romRead microRom 0xFF#8 = 0#32 := by decide

/-! ## Single steps, drawing (T-W2, T-S5, T-H1, T-B1, T-X2 to T-X5) -/

theorem test_pixel_side :
    byteAfter (.writePixel 3 1 2#4) 2#2 301 = some 0x12#8 ∧ byteAfter (.writePixel 0 0 4#4) 0#2 134399 = some 0x14#8 := by decide

theorem test_pixel_rotated :
    byteAfter (.writePixel 0 448 4#4) 1#2 134324 = some 0x41#8 ∧ byteAfter (.writePixel 448 0 4#4) 1#2 134324 = some 0x11#8 := by decide

theorem test_hline :
    byteAfter (.writeFastHLine (-2) 0 4 4#4) 2#2 0 = some 0x44#8 ∧ byteAfter (.writeFastHLine 598 0 5 4#4) 2#2 299 = some 0x44#8 := by decide

theorem test_vline :
    byteAfter (.writeFastVLine 1 0 2 3#4) 2#2 300 = some 0x13#8 ∧ byteAfter (.writeFastVLine 0 0 2 3#4) 1#2 134100 = some 0x33#8 := by decide

theorem test_rect :
    byteAfter (.writeFillRect 0 0 3 2 5#4) 1#2 133500 = some 0x55#8 ∧ byteAfter (.writeFillRect (-1) (-1) 2 2 0#4) 2#2 0 = some 0x01#8 := by decide

theorem test_bitmap :
    byteAfter (.drawBitmap 0 0 [0xB0#8] 8 1 0#4) 2#2 0 = some 0x01#8 ∧
    byteAfter (.drawBitmap 0 0 [0x80#8, 0x40#8, 0x00#8, 0x80#8] 10 2 4#4) 2#2 304 = some 0x41#8 := by decide

theorem test_bitmap_short_before_color :
    (nextOf (exec (.drawBitmap 0 0 [0xFF#8] 8 2 7#4) (bare 0#2))).map (fun t => t.fault) = some 3#4 := by decide

theorem test_color_before_bounds :
    (nextOf (exec (.writePixel (-1) (-1) 15#4) (bare 0#2))).map (fun t => t.fault) = some 2#4 ∧
    (nextOf (exec (.writeFastHLine (-5) 0 3 8#4) (bare 0#2))).map (fun t => t.fault) = some 2#4 := by decide

theorem test_no_pixel_no_color_check :
    resultAfter (.writeFastHLine 0 0 0 9#4) (bare 0#2) = some (0#4, 0) ∧
    (nextOf (exec (.drawBitmap 0 0 [0x00#8] 8 1 7#4) (bare 0#2))).map (fun t => t.fault) = some 0#4 := by decide

theorem test_clear :
    (nextOf (exec .clearDisplay { bare 0#2 with fb := [(0, 0x41#8)] })).map (fun t => t.fb) = some [] := by decide

/-- T-M1. -/
theorem test_nibble_write :
    mergeNibble 0xAB#8 .high 2#4 = 0x2B#8 ∧ mergeNibble 0xAB#8 .low 2#4 = 0xA2#8 ∧ mergeNibble 0xF3#8 .low 0#4 = 0xF0#8 := by decide

/-- T-M2. -/
theorem test_index :
    indexOf 0 0 = 0 ∧ indexOf 599 0 = 299 ∧ indexOf 0 1 = 300 ∧ indexOf 599 447 = 134399 := by decide

/-! ## Single steps, queries (T-S1, T-Q1, T-Q2) -/

theorem test_width :
    resultAfter .width { bare 0#2 with rotation := 0#2 } = some (0#4, 600) ∧
    resultAfter .width { bare 0#2 with rotation := 1#2 } = some (0#4, 448) := by decide

theorem test_height :
    resultAfter .height { bare 0#2 with rotation := 0#2 } = some (0#4, 448) ∧
    resultAfter .height { bare 0#2 with rotation := 3#2 } = some (0#4, 600) := by decide

theorem test_set_rotation :
    (nextOf (exec (.setRotation (-5)) (bare 0#2))).map (fun t => t.rotation) = some 3#2 ∧
    (nextOf (exec (.setRotation (-32768)) (bare 0#2))).map (fun t => t.rotation) = some 0#2 := by decide

theorem test_get_rotation :
    resultAfter .getRotation { bare 0#2 with rotation := 3#2 } = some (0#4, 3) := by decide

theorem test_get_panel_state :
    resultAfter .getPanelState (bare 2#2) = some (0#4, 2) ∧ resultAfter .getPanelState (bare 0#2) = some (0#4, 0) := by decide

/-! ## Single steps, protocol requests (T-P1, T-S10, R121) -/

theorem test_display_gated :
    resultAfter .display { bare 0#2 with result := 5 } = some (0#4, 0) ∧
    (nextOf (exec .display (bare 1#2))).map (fun t => (t.seq, t.upc)) = some (true, 0x20#8) := by decide

theorem test_clean_gated :
    (nextOf (exec .clean (bare 2#2))).map (fun t => (t.seq, t.trace)) = some (false, []) ∧
    (nextOf (exec .clean (bare 1#2))).map (fun t => (t.seq, t.upc)) = some (true, 0x30#8) := by decide

theorem test_set_panel_state_noop :
    resultAfter (.setPanelState true) (bare 1#2) = some (0#4, 1) ∧ resultAfter (.setPanelState false) (bare 2#2) = some (0#4, 0) := by decide

theorem test_set_panel_state_starts :
    (nextOf (exec (.setPanelState true) (bare 2#2))).map (fun t => (t.seq, t.upc)) = some (true, 0x00#8) ∧
    (nextOf (exec (.setPanelState false) (bare 1#2))).map (fun t => (t.seq, t.upc)) = some (true, 0x40#8) := by decide

/-! ## Single steps, micro-ops (T-P2 to T-P6, T-T1) -/

theorem test_pin :
    (nextOf (exec (.uPin .rst false) (bare 0#2))).map (fun t => (t.rst, t.dc, t.cs, kinds t.trace)) =
    some (false, false, true, [.line .rst false]) := by decide

theorem test_wait :
    (nextOf (exec (.uWait 100) (bare 0#2))).map (fun t => (t.clock.now, t.t0, kinds t.trace)) = some (100, 100, [.delay 100]) := by decide

theorem test_command :
    (nextOf (exec (.uCmd .psr) (bare 0#2))).map (fun t => (t.upc, t.dc, t.cs, kinds t.trace)) =
    some (1#8, false, true, commandFrame [Config.cmdTable .psr]) := rfl

theorem test_data_bg :
    (nextOf (exec .uDataBg (bare 1#2))).map (fun t => (t.upc, t.dc, t.cs)) = some (1#8, true, true) := by decide

theorem test_data_fb :
    (nextOf (exec .uDataFb (bare 1#2))).map (fun t => (t.upc, t.dc, t.fault)) = some (1#8, true, 0#4) ∧
    (nextOf (exec .uDataFb { bare 1#2 with fbLen := 134399 })).map (fun t => (t.upc, t.fault)) = some (0#8, 4#4) := by decide

theorem test_data :
    (nextOf (exec (.uData .psrData) (bare 0#2))).map (fun t => t.upc) = some 1#8 := by
  simp only [exec, execUData]
  split <;> rfl

/-- T-P4: not ready at 9999 polls on, at 10000 it ends. -/
theorem test_init_poll_boundary :
    (nextOf (exec (.uPollReadyTo 10000)
        { bare 2#2 with seq := true, busy := ⟨[false], 0⟩, clock := ⟨9999, [0, 0], 0, 0⟩ })).map
      (fun t => (t.seq, t.rcode, t.panelState)) = some (true, 0#4, 2#2) ∧
    (nextOf (exec (.uPollReadyTo 10000)
        { bare 2#2 with seq := true, busy := ⟨[false], 0⟩, clock := ⟨9999, [1, 0], 0, 0⟩ })).map
      (fun t => (t.seq, t.rcode, t.panelState)) = some (false, 1#4, 0#2) := by decide

theorem test_init_poll_ready_first :
    (nextOf (exec (.uPollReadyTo 10000)
        { bare 0#2 with seq := true, busy := ⟨[true], 0⟩, clock := ⟨10003, [0, 0], 0, 0⟩ })).map
      (fun t => (t.seq, t.upc)) = some (true, 1#8) := by decide

theorem test_poll_ready :
    (nextOf (exec .uPollReady (running 1#2 0x25#8 [true]))).map (fun t => t.upc) = some 0x26#8 ∧
    (nextOf (exec .uPollReady (running 1#2 0x25#8 [false]))).map (fun t => t.upc) = some 0x25#8 := by decide

theorem test_poll_notready :
    (nextOf (exec .uPollNotReady (running 1#2 0x29#8 [false]))).map (fun t => t.upc) = some 0x2A#8 ∧
    (nextOf (exec .uPollNotReady (running 1#2 0x29#8 [true]))).map (fun t => t.upc) = some 0x29#8 := by decide

theorem test_set_state :
    (nextOf (exec (.uSetState .sleeping) (running 1#2 0x46#8 []))).map (fun t => (t.panelState, t.upc)) = some (2#2, 0x47#8) := by decide

theorem test_end :
    (nextOf (exec (.uEnd 0#4 1#8) (running 1#2 0x1D#8 []))).map (fun t => (t.seq, t.rcode, t.result)) = some (false, 0#4, 1) := by decide

/-! ## Single steps, the dispatcher (T-X1, T-X6, T-X7) -/

theorem test_illegal_request :
    (nextOf (step (waiting 0#2 ⟨0x101000000000000000000000#96, []⟩))).map (fun t => (t.fault, t.req, t.trace)) = some (1#4, none, []) := by decide

theorem test_held_after_fault :
    step { waiting 0#2 ⟨0x100000000000000000000000#96, []⟩ with fault := 3#4 } =
    .next { waiting 0#2 ⟨0x100000000000000000000000#96, []⟩ with fault := 3#4 } := rfl

theorem test_held_while_running :
    (nextOf (step { running 1#2 0x25#8 [false] with port := [⟨0x010000000000000000000000#96, []⟩] })).map
      (fun t => (t.port.length, t.fb)) = some (1, []) := by decide

theorem test_accepted :
    (nextOf (step (waiting 0#2 ⟨0x01400000FFFF000000000000#96, []⟩))).map (fun t => (t.port, t.req)) =
    some ([], some ⟨0x01#8, 0, -1, 0, 0, 4#4, false, []⟩) := by decide

theorem test_illegal_uop_word :
    (nextOf (step (onWord 0x00000000#32))).map (fun t => (t.seq, t.fault)) = some (false, 5#4) := by decide

/-! ## The constraints on the parameters (R8) -/

theorem test_parameters :
    Config.cols % 2 = 0 ∧ 2 ≤ Config.cols ∧ 1 ≤ Config.rows ∧ 2 * Config.fbBytes = Config.cols * Config.rows ∧
    (nibbleAt Config.bgByte .high).toNat ≤ 6 ∧ (nibbleAt Config.bgByte .low).toNat ≤ 6 := by decide

/-! ## The assembler's text (R88, R90) and the pseudo-requests (R89) -/

theorem test_text :
    (Instr.writePixel (-1) 5 3#4).text = "writePixel -1, 5, BLUE" ∧
    (Instr.drawBitmap 0 0 [0x80#8, 0x40#8] 8 2 7#4).text = "drawBitmap 0, 0, [0x80, 0x40], 8, 2, 7" ∧
    (Instr.uPin .rst false).text = "U_PIN RST, 0" ∧ (Instr.uEnd 0#4 1#8).text = "U_END 0, 1" := by decide

theorem test_pseudo :
    expandPseudo 1#2 (.fillScreen 6#4) = .writeFillRect 0 0 448 600 6#4 ∧ expandPseudo 0#2 .sleep = .setPanelState false ∧
    expandPseudo 0#2 .init = .setPanelState true ∧ expandPseudo 0#2 .wake = .setPanelState true := by decide

theorem test_wire_bits :
    wireBits ⟨false, false, true⟩ 0xB0#8 = [true, false, true, true, false, false, false, false] ∧
    wireBits ⟨false, false, false⟩ 0xB0#8 = [false, false, false, false, true, true, false, true] := by decide

/-! ## Witnesses: inputs that meet the hypotheses of each statement, at the ends of each range

A state that meets the invariant is built by `running_inv` (a sequence runs) or `bare_inv` (idle). -/

/-- A running state meets the invariant when its program counter, panel state and lines go together. -/
theorem running_inv {panel : BitVec 2} {upc : BitVec 8} {bs : List Bool} (rst dc cs : Bool) (hp : panel.toNat ≤ 2)
    (hq : sequencerOk upc.toNat panel.toNat) (hl : runningLinesOk upc.toNat rst dc cs) :
    State.Inv { running panel upc bs with rst := rst, dc := dc, cs := cs } where
  fbWf := rfl
  fbLen := rfl
  rom := rfl
  panel := hp
  rcode := Nat.zero_le 2
  result := Nat.zero_le _
  fault := Nat.zero_le 3
  idleAfterFault := fun h => absurd rfl h
  sequencer := fun _ => hq
  runningLines := fun _ => hl
  idleLines := fun h => nomatch h
  framing := rfl
  ordered := List.Pairwise.nil
  past := fun _ h => nomatch h
  latched := fun _ => Nat.le_refl 0
  lastResult := ⟨rfl, rfl⟩

/-- An idle state outside `Sleeping` with a request waiting meets the invariant. -/
theorem waiting_inv {panel : BitVec 2} {r : RawRequest} (hp : panel.toNat ≤ 1) : State.Inv (waiting panel r) where
  fbWf := rfl
  fbLen := rfl
  rom := rfl
  panel := Nat.le_succ_of_le hp
  rcode := Nat.zero_le 2
  result := Nat.zero_le _
  fault := Nat.zero_le 3
  idleAfterFault := fun h => absurd rfl h
  sequencer := fun h => nomatch h
  runningLines := fun h => nomatch h
  idleLines := fun _ => ⟨fun _ => rfl, fun _ => ⟨rfl, rfl⟩, fun h => by
    have h2 : panel.toNat = 2 := h
    omega⟩
  framing := rfl
  ordered := List.Pairwise.nil
  past := fun _ h => nomatch h
  latched := fun h => nomatch h
  lastResult := ⟨rfl, rfl⟩

theorem witness_DecodeOfEncode : Instr.wf (.writeFillRect (-32768) 32767 0 1 15#4) = true ∧ Instr.wf (.uWait 16777215) = true := by
  decide

theorem witness_EncodeOfDecode : decode (.request ⟨0x0130FFFF0005000000000000#96, []⟩) = .ok (.writePixel (-1) 5 3#4) ∧
    decode (.uop 0x02FFFFFF#32) = .ok (.uWait 16777215) := by decide

/-- A request whose opcode byte is `op` and whose other bits are `rest`. -/
def withOp (op rest : Nat) : RawRequest := ⟨BitVec.ofNat 96 (op * 2 ^ 88 + rest), []⟩

theorem witness_ReservedOpcodeFaults :
    ∀ op ∈ [0x00, 0x06, 0x0F, 0x14, 0x1F, 0x21, 0x2F, 0x34, 0xFF],
      (waiting 0#2 (withOp op 1)).seq = false ∧ (waiting 0#2 (withOp op 1)).fault = 0#4 ∧
      (waiting 0#2 (withOp op 1)).port = [withOp op 1] ∧ op = (withOp op 1).word.toNat / 2 ^ 88 ∧
      (op = 0x00 ∨ (0x06 ≤ op ∧ op ≤ 0x0F) ∨ (0x14 ≤ op ∧ op ≤ 0x1F) ∨ (0x21 ≤ op ∧ op ≤ 0x2F) ∨ 0x34 ≤ op) := by
  decide

/-- For each opcode the mask of its unused bits, and a word with the lowest of them set. -/
def unusedCases : List (Nat × RequestWord × Nat) :=
  [(0x01, 0x000F00000000FFFFFFFFFFFF#96, 1), (0x02, 0x000F000000000000FFFFFFFF#96, 1),
   (0x03, 0x000F000000000000FFFFFFFF#96, 0x80000000), (0x04, 0x000F0000000000000000FFFF#96, 1),
   (0x05, 0x000F0000000000000000FFFF#96, 0x8000), (0x10, 0x00FFFFFFFFFFFFFFFFFFFFFF#96, 1),
   (0x12, 0x00FF0000FFFFFFFFFFFFFFFF#96, 1)]
  ++ [(0x11, 0x00FFFFFFFFFFFFFFFFFFFFFF#96, 1), (0x13, 0x00FFFFFFFFFFFFFFFFFFFFFF#96, 1),
   (0x20, 0x00FFFFFFFFFFFFFFFFFFFFFF#96, 1), (0x30, 0x00FFFFFFFFFFFFFFFFFFFFFF#96, 1),
   (0x31, 0x00FFFFFFFFFFFFFFFFFFFFFF#96, 1), (0x32, 0x00FFFFFFFFFFFFFFFFFFFFFF#96, 2 ^ 87),
   (0x33, 0x00FEFFFFFFFFFFFFFFFFFFFF#96, 2 ^ 81)]

theorem witness_UnusedPartFaults :
    ∀ c ∈ unusedCases,
      (waiting 0#2 (withOp c.1 c.2.2)).port = [withOp c.1 c.2.2] ∧ c.1 = (withOp c.1 c.2.2).word.toNat / 2 ^ 88 ∧
      (c.1 = 0x01 ∧ c.2.1 = 0x000F00000000FFFFFFFFFFFF#96 ∨
       (c.1 = 0x02 ∨ c.1 = 0x03) ∧ c.2.1 = 0x000F000000000000FFFFFFFF#96 ∨
       (c.1 = 0x04 ∨ c.1 = 0x05) ∧ c.2.1 = 0x000F0000000000000000FFFF#96 ∨
       (c.1 = 0x10 ∨ c.1 = 0x11 ∨ c.1 = 0x13 ∨ c.1 = 0x20 ∨ c.1 = 0x30 ∨ c.1 = 0x31 ∨ c.1 = 0x32) ∧
         c.2.1 = 0x00FFFFFFFFFFFFFFFFFFFFFF#96 ∨
       c.1 = 0x12 ∧ c.2.1 = 0x00FF0000FFFFFFFFFFFFFFFF#96 ∨
       c.1 = 0x33 ∧ c.2.1 = 0x00FEFFFFFFFFFFFFFFFFFFFF#96) ∧
      (withOp c.1 c.2.2).word &&& c.2.1 ≠ 0#96 := by
  decide

/-- The other clause: an attachment where none is used. -/
theorem witness_UnusedPartFaults_data :
    (waiting 0#2 ⟨0x300000000000000000000000#96, [0x00#8]⟩).port = [⟨0x300000000000000000000000#96, [0x00#8]⟩] ∧
    (0x300000000000000000000000#96).toNat / 2 ^ 88 = 0x30 ∧ (0x30 : Nat) ≠ 0x05 ∧ ([0x00#8] : List Byte) ≠ [] := by
  decide

/-- What IllegalUopFaults asks of the word `u` at `ROM[UPC]`, its opcode and the mask. -/
abbrev illegalUopCase (u : UopWord) (op : Nat) (mask : UopWord) : Prop :=
  (onWord u).seq = true ∧ u = romRead (onWord u).rom (onWord u).upc ∧ op = u.toNat / 2 ^ 24 ∧
  (op = 0x01 ∧ mask = 0x00FFFCFE#32 ∨
   (op = 0x03 ∨ op = 0x04) ∧ mask = 0x00FFFF00#32 ∨
   (op = 0x05 ∨ op = 0x06 ∨ op = 0x08 ∨ op = 0x09) ∧ mask = 0x00FFFFFF#32 ∨
   op = 0x0A ∧ mask = 0x00FFFFFC#32 ∨
   op = 0x0B ∧ mask = 0x00FF00F0#32 ∨
   (op = 0x00 ∨ op = 0x02 ∨ op = 0x07 ∨ 0x0C ≤ op) ∧ mask = 0#32) ∧
  (op = 0x00 ∨ 0x0C ≤ op ∨ u &&& mask ≠ 0#32 ∨
   (op = 0x01 ∧ u.toNat / 2 ^ 8 % 4 = 3) ∨
   (op = 0x03 ∧ 13 < u.toNat % 2 ^ 8) ∨
   (op = 0x04 ∧ 11 < u.toNat % 2 ^ 8) ∨
   (op = 0x0A ∧ u.toNat % 4 = 3) ∨
   (op = 0x0B ∧ 3 ≤ u.toNat % 16))

theorem witness_IllegalUopFaults :
    illegalUopCase 0x00FFFFFF#32 0x00 0#32 ∧ illegalUopCase 0x0C000000#32 0x0C 0#32 ∧ illegalUopCase 0xFF000000#32 0xFF 0#32 := by
  refine ⟨?_, ?_, ?_⟩ <;> decide

/-- One bit set that the map fixes at zero. -/
theorem witness_IllegalUopFaults_zeros :
    illegalUopCase 0x01000002#32 0x01 0x00FFFCFE#32 ∧ illegalUopCase 0x01800000#32 0x01 0x00FFFCFE#32 ∧
    illegalUopCase 0x03000100#32 0x03 0x00FFFF00#32 ∧ illegalUopCase 0x04800000#32 0x04 0x00FFFF00#32 ∧
    illegalUopCase 0x05000001#32 0x05 0x00FFFFFF#32 ∧ illegalUopCase 0x06800000#32 0x06 0x00FFFFFF#32 ∧
    illegalUopCase 0x08000001#32 0x08 0x00FFFFFF#32 ∧ illegalUopCase 0x09800000#32 0x09 0x00FFFFFF#32 ∧
    illegalUopCase 0x0A000004#32 0x0A 0x00FFFFFC#32 ∧ illegalUopCase 0x0B000010#32 0x0B 0x00FF00F0#32 ∧
    illegalUopCase 0x0B010000#32 0x0B 0x00FF00F0#32 := by
  refine ⟨?_, ?_, ?_, ?_, ?_, ?_, ?_, ?_, ?_, ?_, ?_⟩ <;> decide

/-- A reserved line, slot, panel state or result code. -/
theorem witness_IllegalUopFaults_codes :
    illegalUopCase 0x01000300#32 0x01 0x00FFFCFE#32 ∧ illegalUopCase 0x0300000E#32 0x03 0x00FFFF00#32 ∧
    illegalUopCase 0x0400000C#32 0x04 0x00FFFF00#32 ∧ illegalUopCase 0x0A000003#32 0x0A 0x00FFFFFC#32 ∧
    illegalUopCase 0x0B000003#32 0x0B 0x00FF00F0#32 := by
  refine ⟨?_, ?_, ?_, ?_, ?_⟩ <;> decide

theorem witness_StepRunsAcceptedRequest :
    (waiting 1#2 ⟨0x330100000000000000000000#96, []⟩).seq = false ∧
    (waiting 1#2 ⟨0x330100000000000000000000#96, []⟩).fault = 0#4 ∧
    (waiting 1#2 ⟨0x330100000000000000000000#96, []⟩).port = [⟨0x330100000000000000000000#96, []⟩] ∧
    decodeRequest ⟨0x330100000000000000000000#96, []⟩ = .ok (.setPanelState true) := by
  decide

theorem witness_StepRunsMicroOp :
    (running 0#2 0x04#8 [true]).seq = true ∧
    decodeUop (romRead (running 0#2 0x04#8 [true]).rom 0x04#8) = .ok (.uPollReadyTo 10000) := by
  decide

theorem witness_FaultHoldsPort : ({ bare 0#2 with fault := 1#4 } : State).seq = false ∧
    ({ bare 0#2 with fault := 1#4 } : State).fault ≠ 0#4 := by
  decide

theorem witness_SequenceHoldsPort : ∃ t, (running 1#2 0x25#8 [false]).seq = true ∧ step (running 1#2 0x25#8 [false]) = .next t :=
  ⟨_, rfl, rfl⟩

theorem witness_WidthReturnsLogicalWidth :
    (bare 0#2).rotation.toNat % 2 = 0 ∧ ({ bare 0#2 with rotation := 3#2 } : State).rotation.toNat % 2 = 1 := by
  decide

theorem witness_HeightReturnsLogicalHeight :
    ({ bare 0#2 with rotation := 0#2 } : State).rotation.toNat % 2 = 0 ∧
    ({ bare 0#2 with rotation := 1#2 } : State).rotation.toNat % 2 = 1 := by
  decide

theorem witness_TransformBijective :
    inBounds 0#2 599 447 = true ∧ inBounds 1#2 447 599 = true ∧ inBounds 2#2 0 0 = true ∧ inBounds 3#2 0 599 = true ∧
    inBounds 1#2 448 0 = false ∧ inBounds 2#2 600 0 = false := by
  decide

theorem witness_NibbleOwnedByOnePixel : 134399 < 134400 ∧ inBounds 0#2 0 0 = true ∧ pixelIndex 0#2 0 0 = 134399 := by
  decide

theorem witness_NibbleWriteKeepsOtherNibble : Memory.wf (bare 0#2).fb = true ∧ Memory.wf [(0, 0x41#8), (134399, 0x14#8)] = true := by
  decide

theorem witness_WritePixelRoundTrip :
    Memory.wf (bare 0#2).fb = true ∧ inBounds (bare 0#2).rotation 599 447 = true ∧ (6#4 : Nibble).toNat ≤ 6 ∧
    (0#4 : Nibble).toNat ≤ 6 := by
  decide

theorem witness_WritePixelOutOfBoundsDropped :
    inBounds (bare 0#2).rotation 600 0 = false ∧ inBounds (bare 0#2).rotation (-1) 0 = false ∧
    inBounds (bare 0#2).rotation 0 448 = false ∧ inBounds (bare 0#2).rotation 0 (-1) = false ∧ (6#4 : Nibble).toNat ≤ 6 := by
  decide

theorem witness_HLinePaintsRun : Memory.wf (bare 0#2).fb = true ∧ (6#4 : Nibble).toNat ≤ 6 ∧
    inBounds (bare 0#2).rotation 599 0 = true := by
  decide

theorem witness_VLinePaintsRun : Memory.wf (bare 0#2).fb = true ∧ (0#4 : Nibble).toNat ≤ 6 ∧
    inBounds (bare 0#2).rotation 0 447 = true := by
  decide

theorem witness_FillRectPaintsRectangle : Memory.wf [(300, 0x55#8)] = true ∧ (5#4 : Nibble).toNat ≤ 6 ∧
    inBounds (bare 0#2).rotation 0 0 = true := by
  decide

theorem witness_BitmapPaintsSetBits :
    Memory.wf (bare 0#2).fb = true ∧ (4#4 : Nibble).toNat ≤ 6 ∧
    (((10 : Int).toNat + 7) / 8) * (2 : Int).toNat ≤ [0x80#8, 0x40#8, 0x00#8, 0x80#8].length ∧
    (0 < (0 : Int) → (((0 : Int).toNat + 7) / 8) * (5 : Int).toNat ≤ ([] : List Byte).length) := by
  decide

theorem witness_ReservedColorFaults :
    7 ≤ (7#4 : Nibble).toNat ∧ 7 ≤ (15#4 : Nibble).toNat ∧ ((7 : Nat) : Int) < 8 ∧ ((1 : Nat) : Int) < 2 ∧
    (((8 : Int).toNat + 7) / 8) * (2 : Int).toNat ≤ [0x00#8, 0x01#8].length ∧
    ([0x00#8, 0x01#8].getD (1 * (((8 : Int).toNat + 7) / 8) + 7 / 8) 0#8).getLsbD (7 - 7 % 8) = true := by
  decide

/-- An empty run, and a bitmap of 3 by 1 whose only set bits are padding or lie in the byte beyond it. -/
theorem witness_EmptyPrimitivesComplete :
    (0 : Int) ≤ 0 ∧ (-1 : Int) ≤ 0 ∧ (((3 : Int).toNat + 7) / 8) * (1 : Int).toNat ≤ [0x1F#8, 0xFF#8].length ∧
    (∀ i j : Nat, (i : Int) < 3 → (j : Int) < 1 →
      ([0x1F#8, 0xFF#8].getD (j * (((3 : Int).toNat + 7) / 8) + i / 8) 0#8).getLsbD (7 - i % 8) = false) := by
  refine ⟨by decide, by decide, by decide, fun i j hi hj => ?_⟩
  obtain rfl : j = 0 := by omega
  obtain rfl | rfl | rfl : i = 0 ∨ i = 1 ∨ i = 2 := by omega
  all_goals decide

theorem witness_BitmapShortFaults : (1 : Int) ≤ 8 ∧ (1 : Int) ≤ 2 ∧ [0xFF#8].length < (((8 : Int).toNat + 7) / 8) * (2 : Int).toNat := by
  decide

theorem witness_RectangleLoopOrderIrrelevant : Memory.wf (bare 0#2).fb = true := by decide

theorem witness_PrimitivesEqualPixelRequests : (6#4 : Nibble).toNat ≤ 6 ∧
    (0 < (8 : Int) → 0 < (1 : Int) → (((8 : Int).toNat + 7) / 8) * (1 : Int).toNat ≤ [0xB0#8].length) ∧
    (0 < (0 : Int) → 0 < (5 : Int) → (((0 : Int).toNat + 7) / 8) * (5 : Int).toNat ≤ ([] : List Byte).length) := by
  decide

theorem witness_reserved_arguments :
    (onWord 0x01000300#32).seq = true ∧
    ((romRead (onWord 0x01000300#32).rom 0#8).toNat / 2 ^ 24 = 0x01 ∧
      (romRead (onWord 0x01000300#32).rom 0#8).toNat / 2 ^ 8 % 4 = 3) ∧
    ((romRead (onWord 0x0300000E#32).rom 0#8).toNat / 2 ^ 24 = 0x03 ∧
      13 < (romRead (onWord 0x0300000E#32).rom 0#8).toNat % 2 ^ 8) ∧
    ((romRead (onWord 0x0400000C#32).rom 0#8).toNat / 2 ^ 24 = 0x04 ∧
      11 < (romRead (onWord 0x0400000C#32).rom 0#8).toNat % 2 ^ 8) ∧
    ((romRead (onWord 0x0A000003#32).rom 0#8).toNat / 2 ^ 24 = 0x0A ∧
      (romRead (onWord 0x0A000003#32).rom 0#8).toNat % 4 = 3) ∧
    ((romRead (onWord 0x0B000003#32).rom 0#8).toNat / 2 ^ 24 = 0x0B ∧
      3 ≤ (romRead (onWord 0x0B000003#32).rom 0#8).toNat % 16) ∧
    (2#4 : BitVec 4).toNat ≤ 2 := by
  decide

theorem witness_FramebufferStreamsWhole : (bare 1#2).fbLen = 134400 ∧ ({ bare 1#2 with fbLen := 134399 } : State).fbLen ≠ 134400 := by
  decide

theorem witness_InitPollThreeOutcomes :
    (10000 : Nat) < 2 ^ 24 ∧ (running 0#2 0x04#8 [true]).busy.sample = true ∧
    (running 0#2 0x04#8 [false]).busy.sample = false ∧
    (running 0#2 0x04#8 [false]).t0 + 0 ≤ (running 0#2 0x04#8 [false]).clock.read.read.now ∧
    (running 0#2 0x04#8 [false]).clock.read.read.now < (running 0#2 0x04#8 [false]).t0 + 1 := by
  decide

theorem witness_RefreshPollAwaitsReady : (running 1#2 0x25#8 [true]).busy.sample = true ∧
    (running 1#2 0x25#8 [false]).busy.sample = false := by
  decide

theorem witness_RefreshPollAwaitsNotReady : (running 1#2 0x29#8 [false]).busy.sample = false ∧
    (running 1#2 0x29#8 [true]).busy.sample = true := by
  decide

theorem witness_RefreshTimeoutWhenSet :
    (running 1#2 0x25#8 [false]).busy.sample = !true ∧ (running 1#2 0x29#8 [true]).busy.sample = !false ∧
    (running 1#2 0x25#8 [false]).t0 + 0 ≤ (running 1#2 0x25#8 [false]).clock.read.read.now ∧
    (running 1#2 0x25#8 [false]).clock.read.read.now < (running 1#2 0x25#8 [false]).t0 + 5000 := by
  decide

theorem witness_WaitLetsTimePass : (16777215 : Nat) < 2 ^ 24 := by decide

theorem witness_RefreshPollWaitsUnbounded :
    ((running 1#2 0x25#8 [false, false, true]).seq = true ∧
      decodeUop (romRead (running 1#2 0x25#8 [false, false, true]).rom 0x25#8) = .ok .uPollReady ∧
      (running 1#2 0x25#8 [false, false, true]).busy.samples 2 = List.replicate 2 (!true)) ∧
    ((running 1#2 0x29#8 [true, true, false]).seq = true ∧
      decodeUop (romRead (running 1#2 0x29#8 [true, true, false]).rom 0x29#8) = .ok .uPollNotReady ∧
      (running 1#2 0x29#8 [true, true, false]).busy.samples 2 = List.replicate 2 (!false)) := by
  decide

/-- A drawn sample, whichever level it has, is not what one of the two polls awaits. -/
theorem witness_RefreshPollWaitsUnbounded_drawn : ∃ want upc,
    decodeUop (romRead (running 1#2 upc []).rom upc) = .ok (if want then .uPollReady else .uPollNotReady) ∧
    (running 1#2 upc []).busy.samples 1 = List.replicate 1 (!want) := by
  cases h : Config.busySample 0
  · exact ⟨true, 0x25#8, by decide, congrArg (· :: []) h⟩
  · exact ⟨false, 0x29#8, by decide, congrArg (· :: []) h⟩

theorem witness_RefreshRequestsGatedByActive : (bare 1#2).panelState = 1#2 ∧ (bare 0#2).panelState ≠ 1#2 ∧ (bare 2#2).panelState ≠ 1#2 := by
  decide

theorem witness_SetPanelStateCases : (bare 1#2).panelState = 1#2 ∧ (bare 0#2).panelState ≠ 1#2 ∧ (bare 2#2).panelState ≠ 1#2 := by
  decide

/-- A request at the port with a BUSY script. -/
def waitingWith (panel : BitVec 2) (w : RequestWord) (bs : List Bool) : State :=
  { waiting panel ⟨w, []⟩ with busy := { script := bs, drawn := 0 } }

theorem witness_InitSequenceSucceeds :
    (waitingWith 0#2 0x330100000000000000000000#96 [true]).seq = false ∧
    (waitingWith 0#2 0x330100000000000000000000#96 [true]).fault = 0#4 ∧
    (waitingWith 0#2 0x330100000000000000000000#96 [true]).rom = microRom ∧
    (waitingWith 2#2 0x330100000000000000000000#96 [true]).panelState ≠ 1#2 ∧
    (waitingWith 0#2 0x330100000000000000000000#96 [true]).panelState ≠ 1#2 ∧
    (waitingWith 0#2 0x330100000000000000000000#96 [true]).port = [⟨0x330100000000000000000000#96, []⟩] ∧
    decodeRequest ⟨0x330100000000000000000000#96, []⟩ = .ok (.setPanelState true) ∧
    (waitingWith 0#2 0x330100000000000000000000#96 [true]).busy.sample = true := by
  decide

theorem witness_InitAlwaysEnds : State.Inv { running 2#2 0x04#8 [false] with rst := true, dc := false, cs := false } ∧
    (running 2#2 0x04#8 [false]).seq = true ∧ (running 2#2 0x04#8 [false]).upc.toNat ≤ 0x1D ∧
    State.Inv { running 0#2 0x00#8 [] with rst := true, dc := false, cs := true } ∧
    State.Inv { running 1#2 0x1D#8 [] with rst := true, dc := true, cs := true } :=
  ⟨running_inv _ _ _ (by decide) (by decide) (by decide), rfl, by decide, running_inv _ _ _ (by decide) (by decide) (by decide),
    running_inv _ _ _ (by decide) (by decide) (by decide)⟩

theorem witness_DisplaySequenceCompletes :
    (waitingWith 1#2 0x300000000000000000000000#96 [false, true, true, true, true, false]).seq = false ∧
    (waitingWith 1#2 0x300000000000000000000000#96 [false, true, true, true, true, false]).fault = 0#4 ∧
    (waitingWith 1#2 0x300000000000000000000000#96 [false, true, true, true, true, false]).fbLen = 134400 ∧
    (waitingWith 1#2 0x300000000000000000000000#96 [false, true, true, true, true, false]).panelState = 1#2 ∧
    (waitingWith 1#2 0x300000000000000000000000#96 []).rom = microRom ∧
    (waitingWith 1#2 0x300000000000000000000000#96 []).port = [⟨0x300000000000000000000000#96, []⟩] ∧
    decodeRequest ⟨0x300000000000000000000000#96, []⟩ = .ok .display ∧
    (waitingWith 1#2 0x300000000000000000000000#96 [false, true, true, true, true, false]).busy.samples (3 + 1 + 0 + 2) =
      List.replicate 1 false ++ true :: (List.replicate 0 false ++ true :: (List.replicate 2 true ++ [false])) := by
  decide

theorem witness_CleanSequenceCompletes :
    (waitingWith 1#2 0x310000000000000000000000#96 [true, true, false]).seq = false ∧
    (waitingWith 1#2 0x310000000000000000000000#96 [true, true, false]).fault = 0#4 ∧
    (waitingWith 1#2 0x310000000000000000000000#96 [true, true, false]).rom = microRom ∧
    (waitingWith 1#2 0x310000000000000000000000#96 [true, true, false]).panelState = 1#2 ∧
    (waitingWith 1#2 0x310000000000000000000000#96 [true, true, false]).port = [⟨0x310000000000000000000000#96, []⟩] ∧
    decodeRequest ⟨0x310000000000000000000000#96, []⟩ = .ok .clean ∧
    (waitingWith 1#2 0x310000000000000000000000#96 [true, true, false]).busy.samples (3 + 0 + 0 + 0) =
      List.replicate 0 false ++ true :: (List.replicate 0 false ++ true :: (List.replicate 0 true ++ [false])) := by
  decide

theorem witness_DeepSleepSequence :
    (waiting 1#2 ⟨0x330000000000000000000000#96, []⟩).seq = false ∧
    (waiting 1#2 ⟨0x330000000000000000000000#96, []⟩).fault = 0#4 ∧
    (waiting 1#2 ⟨0x330000000000000000000000#96, []⟩).rom = microRom ∧
    (waiting 1#2 ⟨0x330000000000000000000000#96, []⟩).panelState = 1#2 ∧
    (waiting 1#2 ⟨0x330000000000000000000000#96, []⟩).port = [⟨0x330000000000000000000000#96, []⟩] ∧
    decodeRequest ⟨0x330000000000000000000000#96, []⟩ = .ok (.setPanelState false) := by
  decide

theorem witness_WriteMap :
    (∃ t, exec (.writePixel 0 0 4#4) (bare 1#2) = .next t ∧ t.fb ≠ (bare 1#2).fb) ∧
    (∃ t, exec (.setRotation 5) (bare 1#2) = .next t ∧ t.rotation ≠ (bare 1#2).rotation) ∧
    (∃ t, exec (.uSetState .sleeping) (bare 1#2) = .next t ∧ t.panelState ≠ (bare 1#2).panelState ∧ t.upc ≠ (bare 1#2).upc) ∧
    (∃ t, exec (.uPin .rst false) (bare 1#2) = .next t ∧ t.rst ≠ (bare 1#2).rst ∧ t.trace ≠ (bare 1#2).trace) ∧
    (∃ t, exec (.uPin .cs false) (bare 1#2) = .next t ∧ t.cs ≠ (bare 1#2).cs) ∧
    (∃ t, exec .uDataBg (bare 1#2) = .next t ∧ t.dc ≠ (bare 1#2).dc) :=
  ⟨⟨_, rfl, by decide⟩, ⟨_, rfl, by decide⟩, ⟨_, rfl, by decide, by decide⟩, ⟨_, rfl, by decide, nofun⟩, ⟨_, rfl, by decide⟩,
    ⟨_, rfl, by decide⟩⟩

theorem witness_WriteMap_outputs :
    (∃ t, exec .display (bare 1#2) = .next t ∧ t.seq ≠ (bare 1#2).seq ∧ t.upc ≠ (bare 1#2).upc) ∧
    (∃ t, exec .width (bare 1#2) = .next t ∧ t.result ≠ (bare 1#2).result) ∧
    (∃ t, exec (.writePixel 0 0 7#4) (bare 1#2) = .next t ∧ t.fault ≠ (bare 1#2).fault) ∧
    (∃ t, exec (.uEnd 2#4 0#8) (bare 1#2) = .next t ∧ t.rcode ≠ (bare 1#2).rcode) ∧
    (∃ t, exec .uPollReady (running 1#2 0x25#8 [true]) = .next t ∧ t.busy ≠ (running 1#2 0x25#8 [true]).busy) :=
  ⟨⟨_, rfl, by decide, by decide⟩, ⟨_, rfl, by decide⟩, ⟨_, rfl, by decide⟩, ⟨_, rfl, by decide⟩, ⟨_, rfl, by decide⟩⟩

theorem witness_StepKeepsInvariant :
    (State.Inv (waiting 1#2 ⟨0x330000000000000000000000#96, []⟩) ∧
      ∃ t, step (waiting 1#2 ⟨0x330000000000000000000000#96, []⟩) = .next t) ∧
    (State.Inv { running 1#2 0x23#8 [] with rst := true, dc := false, cs := true } ∧
      ∃ t, step (running 1#2 0x23#8 []) = .next t) :=
  ⟨⟨waiting_inv (by decide), _, rfl⟩, running_inv _ _ _ (by decide) (by decide) (by decide), _, rfl⟩

theorem witness_PanelStateTransitions_up :
    State.Inv { running 2#2 0x1C#8 [] with rst := true, dc := true, cs := true } ∧
    ∃ t, step { running 2#2 0x1C#8 [] with rst := true, dc := true, cs := true } = .next t ∧ t.panelState ≠ 2#2 :=
  ⟨running_inv _ _ _ (by decide) (by decide) (by decide), _, rfl, by decide⟩

/-- A wake whose poll times out: the clock of `running` stands at 0, so `T0` is taken 10000 ms earlier by moving the clock. -/
theorem witness_PanelStateTransitions_failed_wake :
    State.Inv { running 2#2 0x04#8 [false] with
      rst := true, dc := false, cs := false, clock := { now := 10000, script := [0, 0], stall := 0, drawn := 0 } } ∧
    ∃ t, step { running 2#2 0x04#8 [false] with
      rst := true, dc := false, cs := false, clock := { now := 10000, script := [0, 0], stall := 0, drawn := 0 } } = .next t ∧
      t.panelState ≠ 2#2 :=
  ⟨{ running_inv (panel := 2#2) (upc := 0x04#8) (bs := [false]) true false false (by decide) (by decide) (by decide) with
      past := fun _ h => nomatch h
      latched := fun _ => Nat.zero_le _ }, _, rfl, by decide⟩

theorem witness_PanelStateTransitions_sleep :
    State.Inv { running 1#2 0x46#8 [] with rst := false, dc := false, cs := false } ∧
    ∃ t, step { running 1#2 0x46#8 [] with rst := false, dc := false, cs := false } = .next t ∧ t.panelState ≠ 1#2 :=
  ⟨running_inv _ _ _ (by decide) (by decide) (by decide), _, rfl, by decide⟩

end Sys2Proof.Tests
end

section
/-! SUPPORT. The orientation queries and CLEAR_DISPLAY (spec/42_framebuffer_transform.md R170, R171, R173, R178): one equation per
instruction, the logical bounds by the parity of the rotation, and what a filled framebuffer reads as. -/

namespace Sys2Proof.Machine

/-! ## The instructions -/

theorem exec_width (s : State) : exec .width s = .next (complete rcodeOk (logicalWidth s.rotation) s) := rfl

theorem exec_height (s : State) : exec .height s = .next (complete rcodeOk (logicalHeight s.rotation) s) := rfl

theorem exec_getRotation (s : State) : exec .getRotation s = .next (complete rcodeOk s.rotation.toNat s) := rfl

theorem exec_clearDisplay (s : State) :
    exec .clearDisplay s = .next (complete rcodeOk 0 { s with fb := fbFill Config.bgByte }) := rfl

/-! ## The logical bounds by the parity of the rotation -/

theorem logicalWidth_of_even {r : BitVec 2} (h : r.toNat % 2 = 0) : logicalWidth r = 600 := if_pos h

theorem logicalWidth_of_odd {r : BitVec 2} (h : r.toNat % 2 = 1) : logicalWidth r = 448 := if_neg (by omega)

theorem logicalHeight_of_even {r : BitVec 2} (h : r.toNat % 2 = 0) : logicalHeight r = 448 := if_pos h

theorem logicalHeight_of_odd {r : BitVec 2} (h : r.toNat % 2 = 1) : logicalHeight r = 600 := if_neg (by omega)

/-! ## A filled framebuffer -/

/-- Every in-bounds pixel of a filled framebuffer is the fill byte's nibble on the pixel's side. -/
theorem pixelAt_fbFill {b : Byte} {r : BitVec 2} {x y : Int} (h : inBounds r x y = true) :
    pixelAt (fbFill b) r x y = nibbleAt b (pixelSide r x y) := by
  rw [pixelAt, fbRead_fbFill (pixelIndex_lt h)]

/-- Both nibbles of the background byte are WHITE (R7, R80). -/
theorem nibbleAt_bgByte (sd : Side) : nibbleAt Config.bgByte sd = Color.white.code := by
  cases sd <;> decide

/-! ## The statements -/

/-- Settles O13: WIDTH completes with the logical width, which the parity of the rotation decides. -/
theorem widthReturnsLogicalWidth : Obligations.WidthReturnsLogicalWidth := by
  refine ⟨by decide, fun s h => ?_, fun s h => ?_⟩
  · rw [exec_width, logicalWidth_of_even h]
    rfl
  · rw [exec_width, logicalWidth_of_odd h]
    rfl

/-- Settles O14: HEIGHT completes with the logical height, which the parity of the rotation decides. -/
theorem heightReturnsLogicalHeight : Obligations.HeightReturnsLogicalHeight := by
  refine ⟨by decide, fun s h => ?_, fun s h => ?_⟩
  · rw [exec_height, logicalHeight_of_even h]
    rfl
  · rw [exec_height, logicalHeight_of_odd h]
    rfl

/-- Settles O17: GET_ROTATION completes with the stored rotation, a 2-bit value and so at most 3. -/
theorem getRotationReturnsRotation : Obligations.GetRotationReturnsRotation :=
  ⟨by decide, fun s => ⟨exec_getRotation s, Nat.le_of_lt_succ s.rotation.isLt⟩, rfl⟩

/-- Settles O25: CLEAR_DISPLAY leaves the framebuffer filled with the background byte, whose two nibbles are WHITE. -/
theorem clearDisplayFillsBackground : Obligations.ClearDisplayFillsBackground := by
  have hwf := wf_fbFill Config.bgByte
  refine ⟨by decide, fun s => ⟨fbFill Config.bgByte, exec_clearDisplay s, hwf, ?_, ?_, ?_⟩⟩
  · exact fun i hi => fbRead_fbFill hi
  · exact fun i hi => fbRead_outside hwf hi
  · exact fun x y h => (pixelAt_fbFill h).trans (nibbleAt_bgByte _)

end Sys2Proof.Machine
end

section
/-! SUPPORT. The encoding (spec/30_encoding.md R70 to R92): what a decoded word's unused parts are, decoding and encoding as
inverses, and the words that name no instruction. -/

namespace Sys2Proof

/-! ## The unused parts of a request -/

/-- R78, part by part: a part the row does not use is zero, and so are the upper flags and field E. -/
theorem unusedZero_iff {u : Uses} {f : Fields} {data : List Byte} :
    unusedZero u f data = true ↔
      (u.a = false → f.a = 0#16) ∧ (u.b = false → f.b = 0#16) ∧ (u.c = false → f.c = 0#16) ∧
      (u.d = false → f.d = 0#16) ∧ (u.color = false → f.color = 0#4) ∧
      (u.active = false → f.flags.extractLsb' 0 1 = 0#1) ∧ f.flags.extractLsb' 1 3 = 0#3 ∧ f.e = 0#16 ∧
      (u.data = false → data = []) := by
  simp only [unusedZero, Bool.and_eq_true, Bool.or_eq_true, beq_iff_eq, List.isEmpty_iff, and_assoc,
    ← Bool.not_eq_true, ← or_iff_not_imp_left]

/-- Flags whose four bits are unused are zero. -/
theorem flags_eq_zero {v : BitVec 4} (h : v.extractLsb' 0 1 = 0#1) (h' : v.extractLsb' 1 3 = 0#3) : v = 0#4 := by
  revert v; decide

/-- Flags whose upper three bits are unused are the active bit (R74). -/
theorem flags_eq_active {v : BitVec 4} (h : v.extractLsb' 1 3 = 0#3) : v = 0#3 ++ BitVec.ofBool (v.getLsbD 0) := by
  revert v; decide

@[simp] theorem flags_active_bit (on : Bool) : (0#3 ++ BitVec.ofBool on : BitVec 4)[0] = on := by
  cases on <;> rfl

/-! ## Decoding and encoding of requests -/

/-- A word whose opcode is `o` and whose unused parts are zero decodes to `o` with its operands. -/
theorem decodeRequest_build {o : ReqOp} {f : Fields} {data : List Byte} (hop : f.op = o.code)
    (hz : unusedZero o.uses f data = true) : decodeRequest ⟨f.toWord, data⟩ = .ok (o.build f data) := by
  rw [decodeRequest_toWord, hop, ReqOp.ofCode_code]
  simp only [hz, if_true]

/-- What an accepted request word is: an opcode of the table, unused parts that are zero, and the operands. -/
theorem decodeRequest_ok {r : RawRequest} {i : Instr} (h : decodeRequest r = .ok i) :
    ∃ o : ReqOp, (Fields.ofWord r.word).op = o.code ∧ unusedZero o.uses (Fields.ofWord r.word) r.data = true ∧
      i = o.build (Fields.ofWord r.word) r.data := by
  unfold decodeRequest at h
  split at h
  · cases h
  · next o ho =>
    split at h
    · next hz => exact ⟨o, (ReqOp.code_of_ofCode ho).symm, hz, (Except.ok.inj h).symm⟩
    · cases h

/-- The operands of a field record always fit their fields (R71). -/
theorem ReqOp.build_wf (o : ReqOp) (f : Fields) (data : List Byte) : (o.build f data).wf = true := by
  cases o <;> simp [ReqOp.build, Instr.wf]

/-- The encoder gives a built request its field record back (R78). -/
theorem ReqOp.encode_build {o : ReqOp} {f : Fields} {data : List Byte} (hop : f.op = o.code)
    (hz : unusedZero o.uses f data = true) : encode (o.build f data) = .request ⟨f.toWord, data⟩ := by
  obtain ⟨ha, hb, hc, hd, hcolor, hactive, hflags, he, hdata⟩ := unusedZero_iff.mp hz
  obtain ⟨op, color, flags, a, b, c, d, e⟩ := f
  dsimp only at *
  subst hop he
  cases o
  case setPanelState =>
    obtain ⟨v, rfl⟩ : ∃ v, flags = 0#3 ++ BitVec.ofBool v := ⟨_, flags_eq_active hflags⟩
    simp_all [ReqOp.build, ReqOp.uses, encode, ReqOp.blank]
  all_goals
    obtain rfl := flags_eq_zero (hactive rfl) hflags
    simp_all [ReqOp.build, ReqOp.uses, encode, ReqOp.blank]

/-! ## Decoding and encoding of micro-ops -/

/-- Decoding the word of a micro-op whose argument is legal. -/
theorem decodeUop_build {o : UopOp} {arg : BitVec 24} {i : Instr} (h : o.build arg = some i) :
    decodeUop (UopOp.word o arg) = .ok i := by
  rw [decodeUop_word, h]

/-- What an accepted micro-op word is: an opcode of the map and a legal argument. -/
theorem decodeUop_ok {u : UopWord} {i : Instr} (h : decodeUop u = .ok i) :
    ∃ (o : UopOp) (arg : BitVec 24), u = UopOp.word o arg ∧ o.build arg = some i := by
  unfold decodeUop at h
  split at h
  · cases h
  · next o ho =>
    split at h
    · cases h
    · next j hj =>
      cases h
      refine ⟨o, _, ?_, hj⟩
      rw [UopOp.word, UopOp.code_of_ofCode ho, uop_split]

/-- The argument of `U_PIN` is a line and a level (R87). -/
theorem UopOp.build_uPin (l : Line) (v : Bool) :
    UopOp.build .uPin (0#14 ++ l.code ++ 0#7 ++ BitVec.ofBool v) = some (.uPin l v) := by
  cases l <;> cases v <;> rfl

theorem UopOp.build_uCmd (k : CmdSlot) : UopOp.build .uCmd (0#16 ++ k.code) = some (.uCmd k) := by
  cases k <;> rfl

theorem UopOp.build_uData (p : PayloadSlot) : UopOp.build .uData (0#16 ++ p.code) = some (.uData p) := by
  cases p <;> rfl

theorem UopOp.build_uSetState (p : PanelState) : UopOp.build .uSetState (0#22 ++ p.code) = some (.uSetState p) := by
  cases p <;> rfl

theorem ofNat24_toNat {ms : Nat} (h : ms < 2 ^ 24) : (BitVec.ofNat 24 ms).toNat = ms := by
  rw [BitVec.toNat_ofNat, Nat.mod_eq_of_lt h]

theorem UopOp.build_uWait {ms : Nat} (h : ms < 2 ^ 24) : UopOp.build .uWait (BitVec.ofNat 24 ms) = some (.uWait ms) := by
  rw [UopOp.build, ofNat24_toNat h]

theorem UopOp.build_uPollReadyTo {ms : Nat} (h : ms < 2 ^ 24) :
    UopOp.build .uPollReadyTo (BitVec.ofNat 24 ms) = some (.uPollReadyTo ms) := by
  rw [UopOp.build, ofNat24_toNat h]

/-- The four parts of the argument of `U_END` (R87). -/
theorem endArgument_parts (res : BitVec 8) (rc : BitVec 4) (arg : BitVec 24) (h : arg = 0#8 ++ res ++ 0#4 ++ rc) :
    arg.extractLsb' 16 8 = 0#8 ∧ arg.extractLsb' 4 4 = 0#4 ∧ arg.extractLsb' 0 4 = rc ∧ arg.extractLsb' 8 8 = res := by
  have := res.isLt; have := rc.isLt
  subst h
  refine ⟨?_, ?_, ?_, ?_⟩ <;> apply BitVec.eq_of_toNat_eq <;> rw [extract_toNat] <;> simp only [append_toNat] <;>
    simp only [BitVec.toNat_ofNat] <;> omega

/-- The argument of `U_END` is a result and a result code that is not reserved (R87; log 10). -/
theorem UopOp.build_uEnd {rc : BitVec 4} (res : BitVec 8) (h : legalRcode rc = true) :
    UopOp.build .uEnd (0#8 ++ res ++ 0#4 ++ rc) = some (.uEnd rc res) := by
  obtain ⟨h1, h2, h3, h4⟩ := endArgument_parts res rc _ rfl
  rw [UopOp.build, h1, h2, h3, h4, if_pos ⟨rfl, rfl, h⟩]

/-- An argument is its parts: those at zero and the code. -/
theorem argument_eq_append {m n : Nat} {arg : BitVec (m + n)} {v : BitVec n} (hz : arg.extractLsb' n m = 0#m)
    (hv : v = arg.extractLsb' 0 n) : 0#m ++ v = arg := by
  apply BitVec.eq_of_toNat_eq
  have h := congrArg BitVec.toNat hz
  subst hv
  have hlt := arg.isLt
  rw [Nat.pow_add, Nat.mul_comm] at hlt
  have hdiv : arg.toNat / 2 ^ n < 2 ^ m := Nat.div_lt_of_lt_mul hlt
  rw [extract_toNat, Nat.mod_eq_of_lt hdiv, BitVec.toNat_ofNat, Nat.zero_mod] at h
  rw [append_toNat, extract_toNat, BitVec.toNat_ofNat, Nat.zero_mod, Nat.zero_mul, Nat.zero_add, pow_zero, Nat.div_one]
  exact Nat.mod_eq_of_lt ((Nat.div_eq_zero_iff_lt (Nat.two_pow_pos n)).mp h)

/-- The argument of `U_PIN` from its four parts. -/
theorem pinArgument_eq {arg : BitVec 24} (h1 : arg.extractLsb' 10 14 = 0#14) (h2 : arg.extractLsb' 1 7 = 0#7) :
    0#14 ++ arg.extractLsb' 8 2 ++ 0#7 ++ BitVec.ofBool (arg.getLsbD 0) = arg := by
  have e1 := congrArg BitVec.toNat h1
  have e2 := congrArg BitVec.toNat h2
  have e3 : (BitVec.ofBool (arg.getLsbD 0)).toNat = arg.toNat % 2 := by
    rw [BitVec.toNat_ofBool, BitVec.getLsbD, Nat.testBit_zero]
    rcases Nat.mod_two_eq_zero_or_one arg.toNat with h | h <;> simp [h]
  apply BitVec.eq_of_toNat_eq
  simp only [append_toNat, extract_toNat, BitVec.toNat_ofNat] at e1 e2 ⊢
  have := arg.isLt
  omega

/-- The argument of `U_END` from its four parts. -/
theorem endArgument_eq {arg : BitVec 24} (h1 : arg.extractLsb' 16 8 = 0#8) (h2 : arg.extractLsb' 4 4 = 0#4) :
    0#8 ++ arg.extractLsb' 8 8 ++ 0#4 ++ arg.extractLsb' 0 4 = arg := by
  have e1 := congrArg BitVec.toNat h1
  have e2 := congrArg BitVec.toNat h2
  apply BitVec.eq_of_toNat_eq
  simp only [append_toNat, extract_toNat, BitVec.toNat_ofNat] at e1 e2 ⊢
  have := arg.isLt
  omega

/-- A built micro-op is well formed, and the encoder gives its argument back (R87). -/
theorem UopOp.encode_build {o : UopOp} {arg : BitVec 24} {i : Instr} (h : o.build arg = some i) :
    i.wf = true ∧ encode i = .uop (UopOp.word o arg) := by
  cases o <;> simp only [UopOp.build, Option.ite_none_right_eq_some, Option.map_eq_some_iff, Option.some.injEq] at h
  case uPin =>
    obtain ⟨⟨h1, h2⟩, l, hl, rfl⟩ := h
    simp only [encode, Instr.wf, Line.code_of_ofCode hl, pinArgument_eq h1 h2, and_self]
  case uWait =>
    subst h
    simp [encode, Instr.wf, fits24, arg.isLt]
  case uCmd =>
    obtain ⟨hz, k, hk, rfl⟩ := h
    simp only [encode, Instr.wf, argument_eq_append hz (CmdSlot.code_of_ofCode hk), and_self]
  case uData =>
    obtain ⟨hz, p, hp, rfl⟩ := h
    simp only [encode, Instr.wf, argument_eq_append hz (PayloadSlot.code_of_ofCode hp), and_self]
  case uPollReadyTo =>
    subst h
    simp [encode, Instr.wf, fits24, arg.isLt]
  case uSetState =>
    obtain ⟨hz, p, hp, rfl⟩ := h
    simp only [encode, Instr.wf, argument_eq_append hz (PanelState.code_of_ofCode hp), and_self]
  case uEnd =>
    obtain ⟨⟨h1, h2, hrc⟩, rfl⟩ := h
    simp only [encode, Instr.wf, endArgument_eq h1 h2, hrc, and_self]
  all_goals
    obtain ⟨rfl, rfl⟩ := h
    exact ⟨rfl, rfl⟩

/-! ## The round trips -/

/-- Decoding a request's encoding, given that the encoder writes the operands `f` under the opcode `o`. -/
theorem decode_encode_request {i : Instr} {o : ReqOp} {f : Fields} {data : List Byte}
    (he : encode i = .request ⟨f.toWord, data⟩) (hop : f.op = o.code) (hb : o.build f data = i)
    (hz : unusedZero o.uses f data = true := by simp [unusedZero, ReqOp.uses, ReqOp.blank]) : decode (encode i) = .ok i := by
  rw [he, decode, decodeRequest_build hop hz, hb]

theorem decode_encode_uop {i : Instr} {o : UopOp} {arg : BitVec 24} (he : encode i = .uop (UopOp.word o arg))
    (hb : o.build arg = some i) : decode (encode i) = .ok i := by
  rw [he, decode, decodeUop_build hb]

/-- Settles O1: an operand that fits its field comes back from it, and the encoder writes zero into every unused part. -/
theorem decodeOfEncode : Obligations.DecodeOfEncode := by
  intro i h
  cases i <;> simp only [Instr.wf, Bool.and_eq_true] at h
  case writePixel x y c =>
    exact decode_encode_request (o := .writePixel) rfl rfl (by simp [ReqOp.build, operand_toInt h.1, operand_toInt h.2])
  case writeFastHLine x y w c =>
    obtain ⟨⟨hx, hy⟩, hw⟩ := h
    exact decode_encode_request (o := .writeFastHLine) rfl rfl
      (by simp [ReqOp.build, operand_toInt hx, operand_toInt hy, operand_toInt hw])
  case writeFastVLine x y v c =>
    obtain ⟨⟨hx, hy⟩, hw⟩ := h
    exact decode_encode_request (o := .writeFastVLine) rfl rfl
      (by simp [ReqOp.build, operand_toInt hx, operand_toInt hy, operand_toInt hw])
  case writeFillRect x y w v c =>
    obtain ⟨⟨⟨hx, hy⟩, hw⟩, hh⟩ := h
    exact decode_encode_request (o := .writeFillRect) rfl rfl
      (by simp [ReqOp.build, operand_toInt hx, operand_toInt hy, operand_toInt hw, operand_toInt hh])
  case drawBitmap x y data w v c =>
    obtain ⟨⟨⟨hx, hy⟩, hw⟩, hh⟩ := h
    exact decode_encode_request (o := .drawBitmap) rfl rfl
      (by simp [ReqOp.build, operand_toInt hx, operand_toInt hy, operand_toInt hw, operand_toInt hh])
  case setRotation r =>
    exact decode_encode_request (o := .setRotation) rfl rfl (by simp [ReqOp.build, operand_toInt h])
  case setPanelState on =>
    exact decode_encode_request (o := .setPanelState) rfl rfl (by simp [ReqOp.build]) (by cases on <;> rfl)
  case width => exact decode_encode_request (o := .width) rfl rfl rfl
  case height => exact decode_encode_request (o := .height) rfl rfl rfl
  case getRotation => exact decode_encode_request (o := .getRotation) rfl rfl rfl
  case clearDisplay => exact decode_encode_request (o := .clearDisplay) rfl rfl rfl
  case display => exact decode_encode_request (o := .display) rfl rfl rfl
  case clean => exact decode_encode_request (o := .clean) rfl rfl rfl
  case getPanelState => exact decode_encode_request (o := .getPanelState) rfl rfl rfl
  case uPin l v => exact decode_encode_uop rfl (UopOp.build_uPin l v)
  case uWait ms => exact decode_encode_uop rfl (UopOp.build_uWait (by simpa [fits24] using h))
  case uCmd k => exact decode_encode_uop rfl (UopOp.build_uCmd k)
  case uData p => exact decode_encode_uop rfl (UopOp.build_uData p)
  case uDataFb => exact decode_encode_uop (o := .uDataFb) rfl rfl
  case uDataBg => exact decode_encode_uop (o := .uDataBg) rfl rfl
  case uPollReadyTo ms => exact decode_encode_uop rfl (UopOp.build_uPollReadyTo (by simpa [fits24] using h))
  case uPollReady => exact decode_encode_uop (o := .uPollReady) rfl rfl
  case uPollNotReady => exact decode_encode_uop (o := .uPollNotReady) rfl rfl
  case uSetState p => exact decode_encode_uop rfl (UopOp.build_uSetState p)
  case uEnd rc res => exact decode_encode_uop rfl (UopOp.build_uEnd res h)

/-- Settles O2: what the decoder accepts has its unused parts at zero, so the encoder writes the same word again. -/
theorem encodeOfDecode : Obligations.EncodeOfDecode := by
  intro e i h
  cases e with
  | request r =>
    obtain ⟨o, hop, hz, rfl⟩ := decodeRequest_ok h
    refine ⟨ReqOp.build_wf .., ?_⟩
    rw [ReqOp.encode_build hop hz, Fields.toWord_ofWord]
  | uop u =>
    obtain ⟨o, arg, rfl, hb⟩ := decodeUop_ok h
    exact UopOp.encode_build hb

/-! ## Words by the arithmetic of their fields -/

/-- A request word is the sum of its fields at their positions (R70). -/
theorem Fields.toWord_eq_ofNat (f : Fields) :
    f.toWord = BitVec.ofNat 96 (f.op.toNat * 2 ^ 88 + f.color.toNat * 2 ^ 84 + f.flags.toNat * 2 ^ 80 + f.a.toNat * 2 ^ 64 +
      f.b.toNat * 2 ^ 48 + f.c.toNat * 2 ^ 32 + f.d.toNat * 2 ^ 16 + f.e.toNat) := by
  have := f.op.isLt; have := f.color.isLt; have := f.flags.isLt; have := f.a.isLt
  have := f.b.isLt; have := f.c.isLt; have := f.d.isLt; have := f.e.isLt
  apply BitVec.eq_of_toNat_eq
  simp only [Fields.toWord, append_toNat, BitVec.toNat_ofNat]
  omega

/-- Decoding a word given by its fields at their positions. -/
theorem decodeRequest_ofNat {o : ReqOp} {f : Fields} {n : Nat} {data : List Byte} (hop : f.op = o.code)
    (hn : n = f.op.toNat * 2 ^ 88 + f.color.toNat * 2 ^ 84 + f.flags.toNat * 2 ^ 80 + f.a.toNat * 2 ^ 64 +
      f.b.toNat * 2 ^ 48 + f.c.toNat * 2 ^ 32 + f.d.toNat * 2 ^ 16 + f.e.toNat)
    (hz : unusedZero o.uses f data = true := by simp [unusedZero, ReqOp.uses]) :
    decodeRequest ⟨BitVec.ofNat 96 n, data⟩ = .ok (o.build f data) := by
  rw [hn, ← Fields.toWord_eq_ofNat]
  exact decodeRequest_build hop hz

/-- Settles O3: the seven words are closed terms. -/
theorem specWordsDecode : Obligations.SpecWordsDecode := by
  refine ⟨?_, ?_, ?_, ?_, ?_, ?_, ?_⟩ <;> decide

/-- Settles O4: each word is the sum of the fields of one record, and every part its opcode does not use is zero. -/
theorem operandFieldsDecode : Obligations.OperandFieldsDecode := by
  intro a b c d k on data
  refine ⟨?_, ?_, ?_, ?_, ?_, ?_, ?_⟩
  · exact decodeRequest_ofNat (o := .writePixel) (f := ⟨_, k, 0#4, a, b, 0#16, 0#16, 0#16⟩) rfl (by simp)
  · exact decodeRequest_ofNat (o := .writeFastHLine) (f := ⟨_, k, 0#4, a, b, c, 0#16, 0#16⟩) rfl (by simp)
  · exact decodeRequest_ofNat (o := .writeFastVLine) (f := ⟨_, k, 0#4, a, b, c, 0#16, 0#16⟩) rfl (by simp)
  · exact decodeRequest_ofNat (o := .writeFillRect) (f := ⟨_, k, 0#4, a, b, c, d, 0#16⟩) rfl (by simp)
  · exact decodeRequest_ofNat (o := .drawBitmap) (f := ⟨_, k, 0#4, a, b, c, d, 0#16⟩) rfl (by simp)
  · exact decodeRequest_ofNat (o := .setRotation) (f := ⟨_, 0#4, 0#4, a, 0#16, 0#16, 0#16, 0#16⟩) rfl (by simp)
  · have h := decodeRequest_ofNat (o := .setPanelState)
      (f := ⟨_, 0#4, 0#3 ++ BitVec.ofBool on, 0#16, 0#16, 0#16, 0#16, 0#16⟩) (data := []) rfl rfl (by cases on <;> rfl)
    cases on <;> exact h

/-- A micro-op word is its opcode and its argument, as numbers (R86). -/
theorem UopOp.word_eq_ofNat (o : UopOp) (arg : BitVec 24) :
    UopOp.word o arg = BitVec.ofNat 32 (o.code.toNat * 2 ^ 24 + arg.toNat) := by
  have := o.code.isLt; have := arg.isLt
  apply BitVec.eq_of_toNat_eq
  rw [UopOp.word, append_toNat, BitVec.toNat_ofNat]
  omega

/-- Decoding a micro-op word given by its opcode and its argument as numbers. -/
theorem decodeUop_ofNat {o : UopOp} {arg : BitVec 24} {i : Instr} {n : Nat} (hb : o.build arg = some i)
    (hn : n = o.code.toNat * 2 ^ 24 + arg.toNat) : decodeUop (BitVec.ofNat 32 n) = .ok i := by
  rw [hn, ← UopOp.word_eq_ofNat]
  exact decodeUop_build hb

/-! ## Words that name no instruction -/

theorem ofWord_op_toNat (w : RequestWord) : (Fields.ofWord w).op.toNat = w.toNat / 2 ^ 88 := by
  have := w.isLt
  rw [Fields.ofWord, extract_toNat]
  omega

/-- R77: the opcodes outside the table are reserved. -/
theorem ReqOp.ofCode_reserved {v : Byte} (h : v.toNat = 0x00 ∨ (0x06 ≤ v.toNat ∧ v.toNat ≤ 0x0F) ∨
    (0x14 ≤ v.toNat ∧ v.toNat ≤ 0x1F) ∨ (0x21 ≤ v.toNat ∧ v.toNat ≤ 0x2F) ∨ 0x34 ≤ v.toNat) : ReqOp.ofCode v = none := by
  cases hv : ReqOp.ofCode v with
  | none => rfl
  | some o =>
    have ho := ReqOp.code_of_ofCode hv
    subst ho
    cases o <;> simp [ReqOp.code] at h

theorem decodeRequest_reserved {r : RawRequest} (h : ReqOp.ofCode (Fields.ofWord r.word).op = none) :
    decodeRequest r = .error .reservedOpcode := by
  rw [decodeRequest, h]

/-- The bits of the word that a row of R76 fixes at zero. -/
def Uses.zeroMask (u : Uses) : Fields where
  op := 0#8
  color := if u.color then 0#4 else 0xF#4
  flags := if u.active then 0xE#4 else 0xF#4
  a := if u.a then 0#16 else 0xFFFF#16
  b := if u.b then 0#16 else 0xFFFF#16
  c := if u.c then 0#16 else 0xFFFF#16
  d := if u.d then 0#16 else 0xFFFF#16
  e := 0xFFFF#16

/-- A part is zero under its mask if it is used or zero. -/
theorem and_mask_eq_zero {n : Nat} {used : Bool} {v m : BitVec n} (h : used = false → v = 0#n) :
    v &&& (if used then 0#n else m) = 0#n := by
  cases used with
  | true => exact BitVec.and_zero
  | false => rw [h rfl]; exact BitVec.zero_and

/-- Flags are zero under their mask if the unused ones are zero. -/
theorem flags_and_mask_eq_zero {v : BitVec 4} {active : Bool} (h : active = false → v.extractLsb' 0 1 = 0#1)
    (h' : v.extractLsb' 1 3 = 0#3) : v &&& (if active then 0xE#4 else 0xF#4) = 0#4 := by
  revert v active; decide

/-- A word whose unused parts are zero is zero under the mask of its row (R78). -/
theorem and_zeroMask {u : Uses} {f : Fields} {data : List Byte} (h : unusedZero u f data = true) :
    f.toWord &&& u.zeroMask.toWord = 0#96 := by
  obtain ⟨ha, hb, hc, hd, hcolor, hactive, hflags, he, -⟩ := unusedZero_iff.mp h
  rw [Laws.toWord_and, Uses.zeroMask]
  simp only [and_mask_eq_zero ha, and_mask_eq_zero hb, and_mask_eq_zero hc, and_mask_eq_zero hd, and_mask_eq_zero hcolor,
    flags_and_mask_eq_zero hactive hflags, he, BitVec.and_zero, BitVec.zero_and]
  rfl

/-- A word with a bit set under its row's mask, or an attachment no row but DRAW_BITMAP uses, is illegal (R78). -/
theorem decodeRequest_unused {r : RawRequest} {o : ReqOp} (hop : (Fields.ofWord r.word).op = o.code)
    (h : r.word &&& o.uses.zeroMask.toWord ≠ 0#96 ∨ (o.uses.data = false ∧ r.data ≠ [])) :
    decodeRequest r = .error .unusedNotZero := by
  have hz : ¬ unusedZero o.uses (Fields.ofWord r.word) r.data = true := by
    intro hz
    rcases h with h | ⟨hu, hd⟩
    · have hmask := and_zeroMask hz
      rw [Fields.toWord_ofWord] at hmask
      exact h hmask
    · obtain ⟨-, -, -, -, -, -, -, -, hdata⟩ := unusedZero_iff.mp hz
      exact hd (hdata hu)
  rw [decodeRequest, hop, ReqOp.ofCode_code]
  exact if_neg hz

/-- The bits of a micro-op's argument that its row of R87 fixes at zero. -/
def UopOp.zeroMask : UopOp → UopWord
  | .uPin => 0x00FFFCFE#32
  | .uCmd => 0x00FFFF00#32
  | .uData => 0x00FFFF00#32
  | .uDataFb => 0x00FFFFFF#32
  | .uDataBg => 0x00FFFFFF#32
  | .uPollReady => 0x00FFFFFF#32
  | .uPollNotReady => 0x00FFFFFF#32
  | .uSetState => 0x00FFFFFC#32
  | .uEnd => 0x00FF00F0#32
  | .uWait => 0#32
  | .uPollReadyTo => 0#32

/-- Bits fixed by a wider mask are fixed by a narrower one. -/
theorem and_eq_zero_of_fixed {u mask val m : UopWord} (h : u &&& mask = val) (hm : mask &&& m = m) (hv : val &&& m = 0#32) :
    u &&& m = 0#32 := by
  rw [← hm, ← BitVec.and_assoc, h, hv]

open Laws.EncodeFixedBits in
/-- A legal argument is zero under its row's mask (R87): the encoder's words have these bits fixed. -/
theorem uop_and_zeroMask {o : UopOp} {arg : BitVec 24} {i : Instr} (h : o.build arg = some i) :
    UopOp.word o arg &&& o.zeroMask = 0#32 := by
  obtain ⟨-, he⟩ := UopOp.encode_build h
  have fixed (m v : Nat) (hr : row i = (m, v)) (hs : Statement i) :
      UopOp.word o arg &&& BitVec.ofNat 32 m = BitVec.ofNat 32 v := by
    rwa [Statement, he, fixedBits, hr] at hs
  cases o <;> simp only [UopOp.build, Option.ite_none_right_eq_some, Option.map_eq_some_iff, Option.some.injEq] at h
  case uPin => obtain ⟨-, l, -, rfl⟩ := h; exact and_eq_zero_of_fixed (fixed _ _ rfl (uPin _ _)) rfl rfl
  case uCmd => obtain ⟨-, k, -, rfl⟩ := h; exact and_eq_zero_of_fixed (fixed _ _ rfl (uCmd _)) rfl rfl
  case uData => obtain ⟨-, p, -, rfl⟩ := h; exact and_eq_zero_of_fixed (fixed _ _ rfl (uData _)) rfl rfl
  case uDataFb => obtain ⟨-, rfl⟩ := h; exact and_eq_zero_of_fixed (fixed _ _ rfl uDataFb) rfl rfl
  case uDataBg => obtain ⟨-, rfl⟩ := h; exact and_eq_zero_of_fixed (fixed _ _ rfl uDataBg) rfl rfl
  case uPollReady => obtain ⟨-, rfl⟩ := h; exact and_eq_zero_of_fixed (fixed _ _ rfl uPollReady) rfl rfl
  case uPollNotReady => obtain ⟨-, rfl⟩ := h; exact and_eq_zero_of_fixed (fixed _ _ rfl uPollNotReady) rfl rfl
  case uSetState => obtain ⟨-, p, -, rfl⟩ := h; exact and_eq_zero_of_fixed (fixed _ _ rfl (uSetState _)) rfl rfl
  case uEnd => obtain ⟨-, rfl⟩ := h; exact and_eq_zero_of_fixed (fixed _ _ rfl (uEnd _ _)) rfl rfl
  all_goals exact BitVec.and_zero

/-- The reserved codes of the arguments: a line 3, a command slot above 13, a payload slot above 11, a panel state 3, a result code
above 2 (R84, R85, R87; log 10). -/
def UopOp.reservedCode (o : UopOp) (arg : Nat) : Prop :=
  match o with
  | .uPin => arg / 2 ^ 8 % 4 = 3
  | .uCmd => 13 < arg % 2 ^ 8
  | .uData => 11 < arg % 2 ^ 8
  | .uSetState => arg % 4 = 3
  | .uEnd => 3 ≤ arg % 16
  | _ => False

theorem Line.code_le (l : Line) : l.code.toNat ≤ 2 := by cases l <;> decide
theorem CmdSlot.code_le (k : CmdSlot) : k.code.toNat ≤ 13 := by cases k <;> decide
theorem PayloadSlot.code_le (p : PayloadSlot) : p.code.toNat ≤ 11 := by cases p <;> decide
theorem PanelState.code_le (p : PanelState) : p.code.toNat ≤ 2 := by cases p <;> decide

/-- A legal argument has no reserved code (R87). -/
theorem UopOp.not_reservedCode {o : UopOp} {arg : BitVec 24} {i : Instr} (h : o.build arg = some i) :
    ¬ o.reservedCode arg.toNat := by
  cases o <;> simp only [UopOp.build, Option.ite_none_right_eq_some, Option.map_eq_some_iff, Option.some.injEq] at h <;>
    simp only [reservedCode, not_false_eq_true]
  case uPin =>
    obtain ⟨-, l, hl, -⟩ := h
    have hle := l.code_le
    rw [Line.code_of_ofCode hl, extract_toNat] at hle
    omega
  case uCmd =>
    obtain ⟨-, k, hk, -⟩ := h
    have hle := k.code_le
    rw [CmdSlot.code_of_ofCode hk, extract_toNat] at hle
    omega
  case uData =>
    obtain ⟨-, p, hp, -⟩ := h
    have hle := p.code_le
    rw [PayloadSlot.code_of_ofCode hp, extract_toNat] at hle
    omega
  case uSetState =>
    obtain ⟨-, p, hp, -⟩ := h
    have hle := p.code_le
    rw [PanelState.code_of_ofCode hp, extract_toNat] at hle
    omega
  case uEnd =>
    obtain ⟨⟨-, -, hrc⟩, -⟩ := h
    have hle : (arg.extractLsb' 0 4).toNat ≤ 2 := of_decide_eq_true hrc
    rw [extract_toNat] at hle
    omega

/-- The codes lie within the argument, so they may be read from the whole word. -/
theorem UopOp.reservedCode_mod (o : UopOp) (n : Nat) : o.reservedCode (n % 2 ^ 24) ↔ o.reservedCode n := by
  cases o <;> simp only [reservedCode] <;> omega

theorem UopOp.code_inj {o o' : UopOp} (h : o.code = o'.code) : o = o' :=
  Option.some.inj (by rw [← UopOp.ofCode_code o, h, UopOp.ofCode_code])

theorem UopOp.code_range (o : UopOp) : 0 < o.code.toNat ∧ o.code.toNat < 0x0C := by
  cases o <;> decide

/-- What an accepted micro-op word is, as the map of R87 has it: a listed opcode, zeros where its row says so, no reserved code. -/
theorem decodeUop_ok_bits {u : UopWord} {i : Instr} (h : decodeUop u = .ok i) :
    ∃ o : UopOp, u.toNat / 2 ^ 24 = o.code.toNat ∧ u &&& o.zeroMask = 0#32 ∧ ¬ o.reservedCode u.toNat := by
  obtain ⟨o, arg, rfl, hb⟩ := decodeUop_ok h
  have hop := congrArg BitVec.toNat (uop_op o arg)
  have harg := congrArg BitVec.toNat (uop_arg o arg)
  have hlt := (UopOp.word o arg).isLt
  rw [extract_toNat] at hop harg
  refine ⟨o, by omega, uop_and_zeroMask hb, ?_⟩
  rw [← UopOp.reservedCode_mod, show (UopOp.word o arg).toNat % 2 ^ 24 = arg.toNat by omega]
  exact UopOp.not_reservedCode hb

end Sys2Proof
end

section
/-! SUPPORT. The step (spec/30_encoding.md R77 to R79, spec/41 R122, spec/60 R227): illegal words, the latch, the hold after a fault,
and what a running sequence leaves alone. -/

namespace Sys2Proof.Machine

/-! ## Illegal words -/

/-- An illegal request leaves the port and faults; SEQ was 0 already (R77, R78; log 7). -/
theorem step_illegalRequest {s : State} {r : RawRequest} {rest : List RawRequest} {e : DecodeError} (hs : s.seq = false)
    (hf : s.fault = 0#4) (hp : s.port = r :: rest) (hd : decodeRequest r = .error e) :
    step s = .next { s with port := rest, fault := 1#4 } := by
  rw [step_idle hs]
  simp only [dispatcherStep, hf, hp, hd, if_true]
  rw [raiseFault, ← hs]
  rfl

/-- An illegal micro-op word faults and stops the sequence (R87). -/
theorem step_illegalUop {s : State} {e : DecodeError} (hs : s.seq = true)
    (hd : decodeUop (romRead s.rom s.upc) = .error e) : step s = .next { s with fault := 5#4, seq := false } := by
  rw [step_running hs, sequencerStep_error hd]
  rfl

/-- A micro-op word that cannot be decoded faults. -/
theorem step_illegalUop_of_forall {s : State} (hs : s.seq = true) (h : ∀ i, decodeUop (romRead s.rom s.upc) ≠ .ok i) :
    step s = .next { s with fault := 5#4, seq := false } := by
  cases hd : decodeUop (romRead s.rom s.upc) with
  | ok i => exact absurd hd (h i)
  | error e => exact step_illegalUop hs hd

/-- A micro-op word with a reserved code in its argument faults (R84, R85, R87; log 10). -/
theorem step_reservedCode {s : State} (o : UopOp) (hs : s.seq = true)
    (hop : (romRead s.rom s.upc).toNat / 2 ^ 24 = o.code.toNat)
    (h : o.reservedCode (romRead s.rom s.upc).toNat) : step s = .next { s with fault := 5#4, seq := false } := by
  refine step_illegalUop_of_forall hs fun i hd => ?_
  obtain ⟨o', hop', -, hcode⟩ := decodeUop_ok_bits hd
  obtain rfl : o = o' := UopOp.code_inj (BitVec.eq_of_toNat_eq (hop.symm.trans hop'))
  exact hcode h

/-- Settles O5: an opcode outside the table has no row. -/
theorem reservedOpcodeFaults : Obligations.ReservedOpcodeFaults := by
  rintro s r rest op hs hf hp rfl hop
  rw [← ofWord_op_toNat] at hop
  exact step_illegalRequest hs hf hp (decodeRequest_reserved (ReqOp.ofCode_reserved hop))

/-- The masks the statement gives are those of the rows, and only DRAW_BITMAP uses the attachment. -/
theorem zeroMask_of_opcode {op : Nat} {mask : RequestWord}
    (h : op = 0x01 ∧ mask = 0x000F00000000FFFFFFFFFFFF#96 ∨
      (op = 0x02 ∨ op = 0x03) ∧ mask = 0x000F000000000000FFFFFFFF#96 ∨
      (op = 0x04 ∨ op = 0x05) ∧ mask = 0x000F0000000000000000FFFF#96 ∨
      (op = 0x10 ∨ op = 0x11 ∨ op = 0x13 ∨ op = 0x20 ∨ op = 0x30 ∨ op = 0x31 ∨ op = 0x32) ∧
        mask = 0x00FFFFFFFFFFFFFFFFFFFFFF#96 ∨
      op = 0x12 ∧ mask = 0x00FF0000FFFFFFFFFFFFFFFF#96 ∨
      op = 0x33 ∧ mask = 0x00FEFFFFFFFFFFFFFFFFFFFF#96) :
    ∃ o : ReqOp, op = o.code.toNat ∧ mask = o.uses.zeroMask.toWord ∧ (op ≠ 0x05 → o.uses.data = false) := by
  rcases h with ⟨rfl, rfl⟩ | ⟨rfl | rfl, rfl⟩ | ⟨rfl | rfl, rfl⟩ |
    ⟨rfl | rfl | rfl | rfl | rfl | rfl | rfl, rfl⟩ | ⟨rfl, rfl⟩ | ⟨rfl, rfl⟩
  · exact ⟨.writePixel, rfl, rfl, fun _ => rfl⟩
  · exact ⟨.writeFastHLine, rfl, rfl, fun _ => rfl⟩
  · exact ⟨.writeFastVLine, rfl, rfl, fun _ => rfl⟩
  · exact ⟨.writeFillRect, rfl, rfl, fun _ => rfl⟩
  · exact ⟨.drawBitmap, rfl, rfl, fun h => absurd rfl h⟩
  · exact ⟨.width, rfl, rfl, fun _ => rfl⟩
  · exact ⟨.height, rfl, rfl, fun _ => rfl⟩
  · exact ⟨.getRotation, rfl, rfl, fun _ => rfl⟩
  · exact ⟨.clearDisplay, rfl, rfl, fun _ => rfl⟩
  · exact ⟨.display, rfl, rfl, fun _ => rfl⟩
  · exact ⟨.clean, rfl, rfl, fun _ => rfl⟩
  · exact ⟨.getPanelState, rfl, rfl, fun _ => rfl⟩
  · exact ⟨.setRotation, rfl, rfl, fun _ => rfl⟩
  · exact ⟨.setPanelState, rfl, rfl, fun _ => rfl⟩

/-- Settles O6: the decoder accepts only words that are zero under the mask of their row. -/
theorem unusedPartFaults : Obligations.UnusedPartFaults := by
  rintro s r rest op mask hs hf hp hop hrow hbad
  obtain ⟨o, ho, rfl, hdata⟩ := zeroMask_of_opcode hrow
  have hcode : (Fields.ofWord r.word).op = o.code := BitVec.eq_of_toNat_eq (by rw [ofWord_op_toNat, ← hop, ho])
  exact step_illegalRequest hs hf hp
    (decodeRequest_unused hcode (hbad.imp_right fun ⟨hne, hd⟩ => ⟨hdata hne, hd⟩))

/-- The mask the statement gives is that of the opcode's row. -/
theorem uop_zeroMask_of_opcode {o : UopOp} {op : Nat} {mask : UopWord} (ho : op = o.code.toNat)
    (h : op = 0x01 ∧ mask = 0x00FFFCFE#32 ∨
      (op = 0x03 ∨ op = 0x04) ∧ mask = 0x00FFFF00#32 ∨
      (op = 0x05 ∨ op = 0x06 ∨ op = 0x08 ∨ op = 0x09) ∧ mask = 0x00FFFFFF#32 ∨
      op = 0x0A ∧ mask = 0x00FFFFFC#32 ∨
      op = 0x0B ∧ mask = 0x00FF00F0#32 ∨
      (op = 0x00 ∨ op = 0x02 ∨ op = 0x07 ∨ 0x0C ≤ op) ∧ mask = 0#32) : mask = o.zeroMask := by
  subst ho
  cases o <;> simpa [UopOp.code, UopOp.zeroMask] using h

/-- Settles O7: an accepted micro-op word has a listed opcode, is zero under its row's mask and has no reserved code. -/
theorem illegalUopFaults : Obligations.IllegalUopFaults := by
  rintro s u op mask hs rfl hop hrow hbad
  refine step_illegalUop_of_forall hs fun i hd => ?_
  obtain ⟨o, ho, hmask, hcode⟩ := decodeUop_ok_bits hd
  have hrange := UopOp.code_range o
  have reserved (o' : UopOp) (h : op = o'.code.toNat) : ¬ o'.reservedCode (romRead s.rom s.upc).toNat := by
    obtain rfl : o' = o := UopOp.code_inj (BitVec.eq_of_toNat_eq (h.symm.trans (hop.trans ho)))
    exact hcode
  obtain h | h | h | ⟨h, hc⟩ | ⟨h, hc⟩ | ⟨h, hc⟩ | ⟨h, hc⟩ | ⟨h, hc⟩ := hbad
  · omega
  · omega
  · exact h (uop_zeroMask_of_opcode (hop.trans ho) hrow ▸ hmask)
  · exact reserved .uPin h hc
  · exact reserved .uCmd h hc
  · exact reserved .uData h hc
  · exact reserved .uSetState h hc
  · exact reserved .uEnd h hc

/-! ## The step's branches -/

theorem step_accepts {s : State} {r : RawRequest} {rest : List RawRequest} {i : Instr} (hs : s.seq = false)
    (hf : s.fault = 0#4) (hp : s.port = r :: rest) (hd : decodeRequest r = .ok i) : step s = exec i (accept r rest s) := by
  rw [step_idle hs]
  simp only [dispatcherStep, hf, hp, hd, if_true]

/-- The latch, each operand read from its bits (R70, R71 to R75). -/
theorem ReqLatch.ofRaw_eq (r : RawRequest) : ReqLatch.ofRaw r =
    { opcode := r.word.extractLsb' 88 8
      opA := (r.word.extractLsb' 64 16).toInt
      opB := (r.word.extractLsb' 48 16).toInt
      opC := (r.word.extractLsb' 32 16).toInt
      opD := (r.word.extractLsb' 16 16).toInt
      opCOLOR := r.word.extractLsb' 84 4
      opACTIVE := r.word.getLsbD 80
      opDATA := r.data } := by
  simp [ReqLatch.ofRaw, Fields.ofWord]

/-- Settles O8: the dispatcher's accepting branch, with the latch written out. -/
theorem stepRunsAcceptedRequest : Obligations.StepRunsAcceptedRequest := by
  intro s r rest i hs hf hp hd
  rw [step_accepts hs hf hp hd, accept, ReqLatch.ofRaw_eq]

/-- Settles O9: the sequencer's branch for a legal word. -/
theorem stepRunsMicroOp : Obligations.StepRunsMicroOp := fun _ _ hs hd =>
  (step_running hs).trans (sequencerStep_ok hd)

/-- No instruction stops the machine or is refused (log 14). -/
theorem exec_next (i : Instr) (s : State) : ∃ t, exec i s = .next t := by
  cases i <;> exact ⟨_, rfl⟩

/-- Settles O10: each thing a step can be answers a next state. -/
theorem stepAlwaysAnswersNext : Obligations.StepAlwaysAnswersNext := by
  intro s
  obtain ⟨-, i, -, -, he⟩ | ⟨-, -, he⟩ | ⟨-, -, he⟩ | ⟨-, -, r, rest, i, -, -, -, he⟩ | ⟨-, -, r, rest, e, -, -, he⟩ :=
    step_cases s
  · exact he ▸ exec_next i s
  · exact ⟨_, he⟩
  · exact ⟨_, he⟩
  · exact he ▸ exec_next i _
  · exact ⟨_, he⟩

theorem step_faulted {s : State} (hs : s.seq = false) (hf : s.fault ≠ 0#4) : step s = .next s := by
  rw [step_idle hs, dispatcherStep, if_neg hf]

/-- Settles O11: by induction on the number of steps, each of which is a hold. -/
theorem faultHoldsPort : Obligations.FaultHoldsPort := by
  intro k s hs hf
  induction k with
  | zero => rfl
  | succ k ih => rw [run_step (step_faulted hs hf), ih]

/-! ## What a running sequence leaves alone -/

/-- The fields no micro-op writes, faulting or not (R33(a), R58). -/
structure KeepsPort (s t : State) : Prop where
  port : t.port = s.port
  req : t.req = s.req
  fb : t.fb = s.fb
  fbLen : t.fbLen = s.fbLen
  rotation : t.rotation = s.rotation

theorem initPoll_keepsPort (ms : Nat) (s : State) : KeepsPort s (initPoll ms s) := by
  unfold initPoll
  split
  · constructor <;> simp
  · split <;> constructor <;> simp

theorem refreshPoll_keepsPort (t : Option Nat) (want : Bool) (s : State) : KeepsPort s (refreshPoll t want s) := by
  unfold refreshPoll
  split
  · constructor <;> simp
  · split
    · constructor <;> simp
    · split <;> constructor <;> simp

theorem uop_keepsPort {i : Instr} {s t : State} (hu : i.isUop = true) (he : exec i s = .next t) : KeepsPort s t := by
  cases i <;> simp only [Instr.isUop, Bool.false_eq_true] at hu <;> cases he
  case uPollReadyTo ms => exact initPoll_keepsPort ms s
  case uPollReady => exact refreshPoll_keepsPort ..
  case uPollNotReady => exact refreshPoll_keepsPort ..
  case uData p => split <;> constructor <;> simp
  case uDataFb => split <;> constructor <;> simp
  all_goals constructor <;> simp

/-- Settles O12: a running step is a micro-op or the fault of an illegal word. -/
theorem sequenceHoldsPort : Obligations.SequenceHoldsPort := by
  intro s t hs ht
  obtain ⟨-, i, hu, -, he⟩ | ⟨-, -, he⟩ | ⟨hf, -⟩ | ⟨hf, -⟩ | ⟨hf, -⟩ := step_cases s
  · obtain ⟨hport, hreq, hfb, hlen, hrot⟩ := uop_keepsPort hu (he.symm.trans ht)
    exact ⟨hport, hreq, hfb, hlen, hrot⟩
  · obtain rfl := Host.Outcome.next.inj (he.symm.trans ht)
    exact ⟨rfl, rfl, rfl, rfl, rfl⟩
  all_goals exact absurd hs (by simp [hf])

end Sys2Proof.Machine
end

section
/-! SUPPORT. The invariant of a run (Safety.lean): the finite part of the state that the sequencer steers, what a micro-op makes
of it, and that every step keeps the invariant. -/

namespace Sys2Proof.Machine

/-! ## The control part of the state -/

/-- What the micro-programs steer and the invariant speaks of address by address: the panel state and the lines. -/
structure Control where
  panel : BitVec 2
  rst : Bool
  dc : Bool
  cs : Bool


def State.control (s : State) : Control := ⟨s.panelState, s.rst, s.dc, s.cs⟩

/-- The control parts a micro-op can leave when the sequence goes on: one, or two for a payload that may be empty. -/
def controlAfter : Instr → Control → List Control
  | .uPin .rst v, c => [{ c with rst := v }]
  | .uPin .dc v, c => [{ c with dc := v }]
  | .uPin .cs v, c => [{ c with cs := v }]
  | .uCmd _, c => [{ c with dc := false, cs := true }]
  | .uData _, c => [c, { c with dc := true, cs := true }]
  | .uDataFb, c => [{ c with dc := true, cs := true }]
  | .uDataBg, c => [{ c with dc := true, cs := true }]
  | .uSetState p, c => [{ c with panel := p.code }]
  | _, c => [c]

/-- The polls, which may stay at their address. -/
def isPoll : Instr → Bool
  | .uPollReadyTo _ => true
  | .uPollReady => true
  | .uPollNotReady => true
  | _ => false

/-- Everything a micro-op can do to `SEQ`, `UPC`, the control part and the result: it advances, it polls again, `U_END` ends the
sequence, or the init poll times out. -/
inductive UopEffect (i : Instr) (s t : State) : Prop
  | advances (seq : t.seq = s.seq) (upc : t.upc = s.upc + 1#8) (control : t.control ∈ controlAfter i s.control)
      (rcode : t.rcode = s.rcode) (result : t.result = s.result) (noEnd : ∀ rc res, i ≠ .uEnd rc res)
  | stays (poll : isPoll i = true) (seq : t.seq = s.seq) (upc : t.upc = s.upc) (control : t.control = s.control)
      (rcode : t.rcode = s.rcode) (result : t.result = s.result)
  | ends (rc : BitVec 4) (res : BitVec 8) (op : i = .uEnd rc res) (seq : t.seq = false) (control : t.control = s.control)
      (rcode : t.rcode = rc) (result : t.result = res.toNat)
  | timesOut (ms : Nat) (op : i = .uPollReadyTo ms) (seq : t.seq = false)
      (control : t.control = { s.control with panel := 0#2 }) (rcode : t.rcode = 1#4) (result : t.result = 0)

theorem UopEffect.of_advance {i : Instr} {s v : State} (seq : v.seq = s.seq) (upc : v.upc = s.upc)
    (control : v.control ∈ controlAfter i s.control) (rcode : v.rcode = s.rcode) (result : v.result = s.result)
    (noEnd : ∀ rc res, i ≠ .uEnd rc res) : UopEffect i s (advance v) :=
  .advances seq (by rw [advance_upc, upc]) control rcode result noEnd

/-- One sample of a refresh poll advances or stays (R131, R132). -/
theorem refreshPoll_effect {i : Instr} {want : Bool} {s : State} (hp : isPoll i = true)
    (hc : s.control ∈ controlAfter i s.control) (hne : ∀ rc res, i ≠ .uEnd rc res) :
    UopEffect i s (refreshPoll none want s) := by
  by_cases h : s.busy.sample = want
  · rw [refreshPoll_seen h]
    exact .of_advance (by simp) (by simp) (by simpa [State.control] using hc) (by simp) (by simp) hne
  · rw [refreshPoll_wait h]
    exact .stays hp (by simp) (by simp) (by simp [State.control]) (by simp) (by simp)

/-- One sample of the init poll advances, stays, or ends the sequence (R130). -/
theorem initPoll_effect (ms : Nat) (s : State) : UopEffect (.uPollReadyTo ms) s (initPoll ms s) := by
  cases h : s.busy.sample with
  | true =>
    rw [initPoll_ready h]
    exact .of_advance (by simp) (by simp) (by simp [State.control, controlAfter]) (by simp) (by simp) (by simp)
  | false =>
    cases ht : timedOut ms (readClock (sampleBusy s)) with
    | true =>
      rw [initPoll_timeout h ht]
      exact .timesOut ms rfl rfl (by simp [State.control, PanelState.code]) rfl rfl
    | false =>
      rw [initPoll_wait h ht]
      exact .stays rfl (by simp) (by simp) (by simp [State.control]) (by simp) (by simp)

/-- Every micro-op does one of the four things, given the framebuffer's length (R65). -/
theorem uop_effect {i : Instr} {s t : State} (hu : i.isUop = true) (hl : s.fbLen = 134400) (he : exec i s = .next t) :
    UopEffect i s t := by
  cases i <;> simp only [Instr.isUop, Bool.false_eq_true] at hu <;> cases he
  case uPin l v =>
    exact .of_advance (by simp) (by simp) (by cases l <;> simp [State.control, controlAfter]) (by cases l <;> rfl)
      (by cases l <;> rfl) (by simp)
  case uWait ms =>
    exact .of_advance (by simp) (by simp) (by simp [State.control, controlAfter]) (by simp) (by simp) (by simp)
  case uCmd k =>
    exact .of_advance (by simp) (by simp) (by simp [State.control, controlAfter]) (by simp) (by simp) (by simp)
  case uData p =>
    split
    · exact .of_advance (by simp) (by simp) (by simp [State.control, controlAfter]) (by simp) (by simp) (by simp)
    · exact .of_advance rfl rfl (by simp [controlAfter]) rfl rfl (by simp)
  case uDataFb =>
    rw [if_pos (hl.trans fbBytes_eq.symm)]
    exact .of_advance (by simp) (by simp) (by simp [State.control, controlAfter]) (by simp) (by simp) (by simp)
  case uDataBg =>
    exact .of_advance (by simp) (by simp) (by simp [State.control, controlAfter]) (by simp) (by simp) (by simp)
  case uPollReadyTo ms => exact initPoll_effect ms s
  case uPollReady => exact refreshPoll_effect rfl (by simp [controlAfter]) (by simp)
  case uPollNotReady => exact refreshPoll_effect rfl (by simp [controlAfter]) (by simp)
  case uSetState p => exact .of_advance rfl rfl (by simp [State.control, controlAfter]) rfl rfl (by simp)
  case uEnd rc res => exact .ends rc res rfl rfl rfl rfl rfl

/-! ## The control part at each address of the micro-ROM -/

/-- The control part may be met while the micro-op at address `a` is about to run. -/
def runningOk (a : Nat) (c : Control) : Bool :=
  decide (c.panel.toNat ≤ 2) && decide (sequencerOk a c.panel.toNat) && decide (runningLinesOk a c.rst c.dc c.cs)

/-- The control part may be met while no sequence runs. -/
def idleOk (c : Control) : Bool := decide (c.panel.toNat ≤ 2) && decide (idleLinesOk c.panel.toNat c.rst c.dc c.cs)

theorem runningOk_iff {a : Nat} {c : Control} : runningOk a c = true ↔
    c.panel.toNat ≤ 2 ∧ sequencerOk a c.panel.toNat ∧ runningLinesOk a c.rst c.dc c.cs := by
  rw [runningOk, Bool.and_eq_true, Bool.and_eq_true, decide_eq_true_eq, decide_eq_true_eq, decide_eq_true_eq, and_assoc]

theorem idleOk_iff {c : Control} : idleOk c = true ↔
    c.panel.toNat ≤ 2 ∧ idleLinesOk c.panel.toNat c.rst c.dc c.cs := by
  rw [idleOk, Bool.and_eq_true, decide_eq_true_eq, decide_eq_true_eq]

/-- What the micro-op `i` at address `a` has to do: lead to the next address, or end the sequence in an idle control part with a
legal result code. -/
def stepOk (a : Nat) (i : Instr) (c : Control) : Bool :=
  match i with
  | .uEnd rc _ => idleOk c && legalRcode rc
  | .uPollReadyTo _ => runningOk (a + 1) c && idleOk { c with panel := 0#2 }
  | _ => (controlAfter i c).all fun c' => runningOk (a + 1) c'

/-- A statement about every control part is a finite check. -/
theorem Control.forall_iff {p : Control → Prop} : (∀ c, p c) ↔ ∀ panel rst dc cs, p ⟨panel, rst, dc, cs⟩ :=
  ⟨fun h _ _ _ _ => h _, fun h c => h c.panel c.rst c.dc c.cs⟩

theorem stepOk_init : ∀ k < 30, ∀ c, runningOk k c = true → stepOk k (romInit.getD k .uDataFb) c = true := by
  simp only [Control.forall_iff]
  decide

theorem stepOk_display : ∀ k < 12, ∀ c, runningOk (0x20 + k) c = true →
    stepOk (0x20 + k) ((romRefresh .uDataFb).getD k .uDataFb) c = true := by
  simp only [Control.forall_iff]
  decide

theorem stepOk_clean : ∀ k < 12, ∀ c, runningOk (0x30 + k) c = true →
    stepOk (0x30 + k) ((romRefresh .uDataBg).getD k .uDataFb) c = true := by
  simp only [Control.forall_iff]
  decide

theorem stepOk_dslp : ∀ k < 8, ∀ c, runningOk (0x40 + k) c = true →
    stepOk (0x40 + k) (romDslp.getD k .uDataFb) c = true := by
  simp only [Control.forall_iff]
  decide

/-- What holds of the micro-op at each address of the four programs holds at every address a sequence can stand at. -/
theorem rom_forall {P : Nat → Instr → Prop} {a : BitVec 8} {panel : Nat} (h : sequencerOk a.toNat panel)
    (hinit : ∀ k < 30, P k (romInit.getD k .uDataFb))
    (hdisplay : ∀ k < 12, P (0x20 + k) ((romRefresh .uDataFb).getD k .uDataFb))
    (hclean : ∀ k < 12, P (0x30 + k) ((romRefresh .uDataBg).getD k .uDataFb))
    (hdslp : ∀ k < 8, P (0x40 + k) (romDslp.getD k .uDataFb)) :
    ∃ i, decodeUop (romRead microRom a) = .ok i ∧ P a.toNat i := by
  have hofNat : BitVec.ofNat 8 a.toNat = a := BitVec.eq_of_toNat_eq (by simp)
  have hprog : a.toNat < 30 ∨ (∃ k < 12, a.toNat = 0x20 + k) ∨ (∃ k < 12, a.toNat = 0x30 + k) ∨
      ∃ k < 8, a.toNat = 0x40 + k := by
    by_cases h1 : a.toNat < 30
    · exact .inl h1
    by_cases h2 : a.toNat < 0x30
    · exact .inr (.inl ⟨a.toNat - 0x20, by omega, by omega⟩)
    by_cases h3 : a.toNat < 0x40
    · exact .inr (.inr (.inl ⟨a.toNat - 0x30, by omega, by omega⟩))
    · exact .inr (.inr (.inr ⟨a.toNat - 0x40, by omega, by omega⟩))
  obtain hk | ⟨k, hk, he⟩ | ⟨k, hk, he⟩ | ⟨k, hk, he⟩ := hprog
  · exact ⟨_, by simpa only [hofNat] using rom_init hk, hinit _ hk⟩
  · rw [he] at hofNat ⊢
    exact ⟨_, hofNat ▸ rom_display hk, hdisplay k hk⟩
  · rw [he] at hofNat ⊢
    exact ⟨_, hofNat ▸ rom_clean hk, hclean k hk⟩
  · rw [he] at hofNat ⊢
    exact ⟨_, hofNat ▸ rom_dslp hk, hdslp k hk⟩

/-- The same of the micro-op that has been decoded there. -/
theorem rom_forall_decoded {P : Nat → Instr → Prop} {a : BitVec 8} {panel : Nat} {i : Instr} (h : sequencerOk a.toNat panel)
    (hd : decodeUop (romRead microRom a) = .ok i) (hinit : ∀ k < 30, P k (romInit.getD k .uDataFb))
    (hdisplay : ∀ k < 12, P (0x20 + k) ((romRefresh .uDataFb).getD k .uDataFb))
    (hclean : ∀ k < 12, P (0x30 + k) ((romRefresh .uDataBg).getD k .uDataFb))
    (hdslp : ∀ k < 8, P (0x40 + k) (romDslp.getD k .uDataFb)) : P a.toNat i := by
  obtain ⟨j, hj, hp⟩ := rom_forall h hinit hdisplay hclean hdslp
  exact Except.ok.inj (hj.symm.trans hd) ▸ hp

/-- At every address where the control part may be met, the micro-ROM holds a micro-op that does what it has to. -/
theorem rom_stepOk {a : BitVec 8} {c : Control} (h : runningOk a.toNat c = true) :
    ∃ i, decodeUop (romRead microRom a) = .ok i ∧ stepOk a.toNat i c = true := by
  obtain ⟨i, hd, hi⟩ := rom_forall (P := fun a i => runningOk a c = true → stepOk a i c = true) (runningOk_iff.mp h).2.1
    (fun k hk => stepOk_init k hk c) (fun k hk => stepOk_display k hk c) (fun k hk => stepOk_clean k hk c)
    (fun k hk => stepOk_dslp k hk c)
  exact ⟨i, hd, hi h⟩

/-- An advancing micro-op leads to a control part of the next address. -/
theorem runningOk_of_stepOk {a : Nat} {i : Instr} {c c' : Control} (h : stepOk a i c = true)
    (hne : ∀ rc res, i ≠ .uEnd rc res) (hc : c' ∈ controlAfter i c) : runningOk (a + 1) c' = true := by
  unfold stepOk at h
  split at h
  · exact absurd rfl (hne _ _)
  · obtain rfl : c' = c := List.mem_singleton.mp hc
    exact (Bool.and_eq_true_iff.mp h).1
  · exact List.all_eq_true.mp h c' hc

/-- No program reaches the last address, so `UPC` never wraps. -/
theorem upc_succ_toNat {a : BitVec 8} {c : Control} (h : runningOk a.toNat c = true) :
    (a + 1#8).toNat = a.toNat + 1 := by
  obtain ⟨-, hseq, -⟩ := runningOk_iff.mp h
  rw [BitVec.toNat_add, BitVec.toNat_ofNat]
  omega

/-- A micro-op that does what its address asks leaves a running control part and the result as it was, or an idle control part
and a legal result. -/
theorem UopEffect.control_ok {i : Instr} {s t : State} (h : UopEffect i s t) (hseq : s.seq = true)
    (hr : runningOk s.upc.toNat s.control = true) (hs : stepOk s.upc.toNat i s.control = true) :
    (t.seq = true ∧ runningOk t.upc.toNat t.control = true ∧ t.rcode = s.rcode ∧ t.result = s.result) ∨
    (t.seq = false ∧ idleOk t.control = true ∧ t.rcode.toNat ≤ 2 ∧ t.result ≤ 65535) := by
  cases h with
  | advances seq upc control rcode result noEnd =>
    refine .inl ⟨seq.trans hseq, ?_, rcode, result⟩
    rw [upc, upc_succ_toNat hr]
    exact runningOk_of_stepOk hs noEnd control
  | stays poll seq upc control rcode result =>
    exact .inl ⟨seq.trans hseq, by rwa [upc, control], rcode, result⟩
  | ends rc res op seq control rcode result =>
    subst op
    obtain ⟨hidle, hrc⟩ := Bool.and_eq_true_iff.mp hs
    have hres := res.isLt
    exact .inr ⟨seq, by rwa [control], by rw [rcode]; exact of_decide_eq_true hrc, by omega⟩
  | timesOut ms op seq control rcode result =>
    subst op
    exact .inr ⟨seq, by rw [control]; exact (Bool.and_eq_true_iff.mp hs).2, by rw [rcode]; decide, by omega⟩

/-! ## The invariant and the micro-ops -/

theorem State.Inv.control_running {s : State} (h : s.Inv) (hs : s.seq = true) : runningOk s.upc.toNat s.control = true :=
  runningOk_iff.mpr ⟨h.panel, h.sequencer hs, h.runningLines hs⟩

theorem State.Inv.timeOk {s : State} (h : s.Inv) : TimeOk s := ⟨h.ordered, h.past⟩

theorem State.Inv.unfaulted {s : State} (h : s.Inv) (hs : s.seq = true) : s.fault = 0#4 := by
  by_contra hf
  exact Bool.noConfusion ((h.idleAfterFault hf).symm.trans hs)

/-- Under the invariant `ROM[UPC]` holds a micro-op while a sequence runs. -/
theorem State.Inv.decodes {s : State} (h : s.Inv) (hs : s.seq = true) :
    ∃ i, decodeUop (romRead s.rom s.upc) = .ok i ∧ stepOk s.upc.toNat i s.control = true := by
  rw [h.rom]
  exact rom_stepOk (h.control_running hs)

/-- A micro-op keeps the invariant where it does what its address asks. -/
theorem State.Inv.uop {s t : State} {i : Instr} (h : s.Inv) (hs : s.seq = true) (hu : i.isUop = true)
    (hok : stepOk s.upc.toNat i s.control = true) (he : exec i s = .next t) : t.Inv := by
  have htime := uop_time hu he h.timeOk
  have hrest := uop_rest hu he h.fbLen
  have hfault : t.fault = 0#4 := hrest.fault.trans (h.unfaulted hs)
  have hlatched := hrest.lat (h.latched hs)
  have hcontrol := (uop_effect hu h.fbLen he).control_ok hs (h.control_running hs) hok
  have hpanel : t.panelState.toNat ≤ 2 := by
    obtain ⟨-, hr, -⟩ | ⟨-, hi, -⟩ := hcontrol
    · exact (runningOk_iff.mp hr).1
    · exact (idleOk_iff.mp hi).1
  have hrunning : t.seq = true → runningOk t.upc.toNat t.control = true := fun ht => by
    obtain ⟨-, hr, -⟩ | ⟨hf, -⟩ := hcontrol
    · exact hr
    · exact absurd ht (by simp [hf])
  have hidle : t.seq = false → idleOk t.control = true := fun ht => by
    obtain ⟨hf, -⟩ | ⟨-, hi, -⟩ := hcontrol
    · exact absurd ht (by simp [hf])
    · exact hi
  have hresult : t.rcode.toNat ≤ 2 ∧ t.result ≤ 65535 := by
    obtain ⟨-, -, hrc, hres⟩ | ⟨-, -, hrc, hres⟩ := hcontrol
    · exact ⟨hrc ▸ h.rcode, hres ▸ h.result⟩
    · exact ⟨hrc, hres⟩
  exact
    { fbWf := hrest.fb ▸ h.fbWf
      fbLen := hrest.fbLen.trans h.fbLen
      rom := hrest.rom.trans h.rom
      panel := hpanel
      rcode := hresult.1
      result := hresult.2
      fault := by rw [hfault]; decide
      idleAfterFault := fun hf => absurd hfault hf
      sequencer := fun ht => (runningOk_iff.mp (hrunning ht)).2.1
      runningLines := fun ht => (runningOk_iff.mp (hrunning ht)).2.2
      idleLines := fun ht => (idleOk_iff.mp (hidle ht)).2
      framing := uop_framed hu he h.framing
      ordered := htime.ordered
      past := htime.past
      latched := fun _ => hlatched
      lastResult := hrest.last h.lastResult }

/-! ## The invariant and the requests -/

/-- Taking a request off the port, latched or not, keeps the invariant: it speaks of neither. -/
theorem State.Inv.takeRequest {s : State} (h : s.Inv) (rest : List RawRequest) (q : Option ReqLatch) :
    State.Inv { s with port := rest, req := q } := { h with }

/-- The drawing requests and SET_ROTATION: another canonical framebuffer, another rotation. -/
theorem State.Inv.setFb {s : State} (h : s.Inv) {m : List Host.Cell} (hm : Memory.wf m = true) (r : BitVec 2) :
    State.Inv { s with fb := m, rotation := r } := { h with fbWf := hm }

/-- A completion with RCODE OK (R29, R30). -/
theorem State.Inv.completeOk {s : State} (h : s.Inv) {res : Nat} (hres : res ≤ 65535) : (complete rcodeOk res s).Inv :=
  { h with rcode := Nat.zero_le 2, result := hres, lastResult := by simp [lastResultOk] }

/-- A fault F1 to F3 taken while idle (R227). -/
theorem State.Inv.faulted {s : State} (h : s.Inv) (hs : s.seq = false) {f : BitVec 4} (hf : f.toNat ≤ 3) :
    State.Inv { s with fault := f, seq := false } :=
  { h with
    fault := hf, idleAfterFault := fun _ => rfl, sequencer := nofun, runningLines := nofun,
    idleLines := fun _ => h.idleLines hs, latched := nofun }

/-- START at an entry whose first micro-op may be met in the control part (R121). -/
theorem State.Inv.started {s : State} (h : s.Inv) (hf : s.fault = 0#4) {e : BitVec 8}
    (hr : runningOk e.toNat s.control = true) : (start e s).Inv :=
  have htime : TimeOk (start e s) := h.timeOk.of rfl (Clock.now_le_read _)
  { h with
    idleAfterFault := fun hne => absurd hf hne, sequencer := fun _ => (runningOk_iff.mp hr).2.1,
    runningLines := fun _ => (runningOk_iff.mp hr).2.2, idleLines := nofun, past := htime.past,
    latched := fun _ => le_refl _ }

/-- The entries of the programs that run in `Active` may be met there with the lines of an idle `Active` PDC. -/
theorem runningOk_active : ∀ c : Control, c.panel = 1#2 → idleOk c = true →
    runningOk Config.entryDisplay.toNat c = true ∧ runningOk Config.entryClean.toNat c = true ∧
      runningOk Config.entryDslp.toNat c = true := by
  simp only [Control.forall_iff]
  decide

/-- The entry of INIT may be met outside `Active`. -/
theorem runningOk_inactive : ∀ c : Control, c.panel ≠ 1#2 → idleOk c = true → runningOk Config.entryInit.toNat c = true := by
  simp only [Control.forall_iff]
  decide

theorem isActive_iff {s : State} : isActive s = true ↔ s.panelState = 1#2 := by
  rw [isActive, beq_iff_eq, PanelState.code]

theorem logicalWidth_le (r : BitVec 2) : logicalWidth r ≤ 65535 := by
  rcases rotation_cases r with rfl | rfl | rfl | rfl <;> simp

theorem logicalHeight_le (r : BitVec 2) : logicalHeight r ≤ 65535 := by
  rcases rotation_cases r with rfl | rfl | rfl | rfl <;> simp

/-- Everything a request can do: draw, complete with RCODE OK after writing the framebuffer or the rotation, or start a program
the panel state allows. -/
inductive RequestEffect (s t : State) : Prop
  | draws (drew : Drew s t)
  | completes (m : List Host.Cell) (r : BitVec 2) (res : Nat) (wf : Memory.wf s.fb = true → Memory.wf m = true)
      (bound : res ≤ 65535) (eq : t = complete rcodeOk res { s with fb := m, rotation := r })
  | startsActive (active : s.panelState = 1#2) (e : BitVec 8)
      (entry : e = Config.entryDisplay ∨ e = Config.entryClean ∨ e = Config.entryDslp) (eq : t = start e s)
  | startsInit (inactive : s.panelState ≠ 1#2) (eq : t = start Config.entryInit s)

theorem RequestEffect.answers {s : State} {res : Nat} (h : res ≤ 65535) : RequestEffect s (complete rcodeOk res s) :=
  .completes s.fb s.rotation res id h rfl

theorem request_effect {i : Instr} {s t : State} (hu : i.isUop = false) (he : exec i s = .next t) : RequestEffect s t := by
  cases i <;> simp only [Instr.isUop, Bool.true_eq_false] at hu
  case width => cases he; exact .answers (logicalWidth_le _)
  case height => cases he; exact .answers (logicalHeight_le _)
  case getRotation => cases he; exact .answers (by have := s.rotation.isLt; omega)
  case getPanelState => cases he; exact .answers (by have := s.panelState.isLt; omega)
  case setRotation r => cases he; exact .completes s.fb (rotationMod4 r) 0 id (by decide) rfl
  case clearDisplay => cases he; exact .completes _ s.rotation 0 (fun _ => wf_fbFill _) (by decide) rfl
  case display =>
    cases he
    split
    · next ha => exact .startsActive (isActive_iff.mp ha) _ (.inl rfl) rfl
    · exact .answers (by decide)
  case clean =>
    cases he
    split
    · next ha => exact .startsActive (isActive_iff.mp ha) _ (.inr (.inl rfl)) rfl
    · exact .answers (by decide)
  case setPanelState on =>
    cases he
    split
    · split
      · exact .answers (by decide)
      · next ha => exact .startsInit (mt isActive_iff.mpr ha) rfl
    · split
      · next ha => exact .startsActive (isActive_iff.mp ha) _ (.inr (.inr rfl)) rfl
      · exact .answers (by decide)
  all_goals exact .draws (exec_draws rfl he)

/-- A request executed by an idle, unfaulted PDC keeps the invariant. -/
theorem State.Inv.request {s t : State} {i : Instr} (h : s.Inv) (hs : s.seq = false) (hf : s.fault = 0#4)
    (hu : i.isUop = false) (he : exec i s = .next t) : t.Inv := by
  have hidle : idleOk s.control = true := idleOk_iff.mpr ⟨h.panel, h.idleLines hs⟩
  cases request_effect hu he with
  | draws drew =>
    obtain ⟨m, hm, rfl | ⟨f, hcode, rfl⟩⟩ := drew
    · exact (h.setFb (hm h.fbWf) s.rotation).completeOk (by decide)
    · exact (h.setFb (hm h.fbWf) s.rotation).faulted hs (by rcases hcode with rfl | rfl <;> decide)
  | completes m r res wf bound eq =>
    subst eq
    exact (h.setFb (wf h.fbWf) r).completeOk bound
  | startsActive active e entry eq =>
    obtain ⟨h1, h2, h3⟩ := runningOk_active s.control active hidle
    subst eq
    rcases entry with rfl | rfl | rfl
    · exact h.started hf h1
    · exact h.started hf h2
    · exact h.started hf h3
  | startsInit inactive eq =>
    subst eq
    exact h.started hf (runningOk_inactive s.control inactive hidle)

/-! ## The statements -/

/-- Settles O58: by what a step can be. A running step executes what the micro-ROM holds at an address where the control part may
be met; an idle one holds, refuses the word, or executes a request. -/
theorem stepKeepsInvariant : Obligations.StepKeepsInvariant := by
  intro s t h ht
  obtain ⟨hs, i, hu, hd, he⟩ | ⟨hs, ⟨e, hd⟩, -⟩ | ⟨-, -, he⟩ | ⟨hs, hf, r, rest, i, -, hu, -, he⟩ |
    ⟨hs, hf, r, rest, e, -, -, he⟩ := step_cases s
  · obtain ⟨j, hj, hok⟩ := h.decodes hs
    obtain rfl : i = j := Except.ok.inj (hd.symm.trans hj)
    exact h.uop hs hu hok (he.symm.trans ht)
  · obtain ⟨j, hj, -⟩ := h.decodes hs
    exact absurd (hd.symm.trans hj) (by simp)
  · obtain rfl : s = t := Host.Outcome.next.inj (he.symm.trans ht)
    exact h
  · exact (h.takeRequest rest _).request hs hf hu (he.symm.trans ht)
  · obtain rfl := Host.Outcome.next.inj (he.symm.trans ht)
    exact (h.takeRequest rest s.req).faulted hs (by decide)

/-- Settles O57: after construction the framebuffer is canonical, the lines are those of an idle `Uninitialized` PDC, and nothing
has been recorded. -/
theorem constructionMeetsInvariant : Obligations.ConstructionMeetsInvariant where
  fbWf := wf_fbConstructed
  fbLen := rfl
  rom := rfl
  panel := by decide
  rcode := by decide
  result := by decide
  fault := by decide
  idleAfterFault := fun _ => rfl
  sequencer := nofun
  runningLines := nofun
  idleLines := fun _ => by decide
  framing := rfl
  ordered := .nil
  past := nofun
  latched := nofun
  lastResult := ⟨rfl, rfl⟩

/-- Settles O55: the fields of the state after construction, each framebuffer byte its own draw. -/
theorem constructionValues : Obligations.ConstructionValues :=
  ⟨rfl, rfl, rfl, rfl, rfl, rfl, rfl, rfl, rfl, rfl, rfl, rfl, rfl, fun _ hi => fbRead_fbConstructed hi⟩

/-- Which micro-ops of the micro-ROM write the panel state: the last but one of INIT and of DSLP, and the init poll. -/
def panelWriteAt (a : Nat) (i : Instr) : Bool :=
  match i with
  | .uSetState p => (a == 0x1C && p == .active) || (a == 0x46 && p == .sleeping)
  | .uPollReadyTo _ => a == 4
  | _ => true

theorem rom_panelWriteAt {a : BitVec 8} {panel : Nat} {i : Instr} (h : sequencerOk a.toNat panel)
    (hd : decodeUop (romRead microRom a) = .ok i) : panelWriteAt a.toNat i = true :=
  rom_forall_decoded (P := fun a i => panelWriteAt a i = true) h hd (by decide) (by decide) (by decide) (by decide)

/-- A micro-op that advances and changes the panel state is U_SETSTATE. -/
theorem setState_of_panel_ne {i : Instr} {c c' : Control} (h : c' ∈ controlAfter i c) (hne : c'.panel ≠ c.panel) :
    ∃ p, i = .uSetState p ∧ c'.panel = p.code := by
  cases i
  case uSetState p => exact ⟨p, rfl, congrArg Control.panel (List.mem_singleton.mp h)⟩
  case uPin l v => cases l <;> exact absurd (congrArg Control.panel (List.mem_singleton.mp h)) hne
  case uData p =>
    rcases List.mem_pair.mp h with rfl | rfl <;> exact absurd rfl hne
  all_goals exact absurd (congrArg Control.panel (List.mem_singleton.mp h)) hne

/-- Only a micro-op changes the panel state. -/
theorem RequestEffect.panelState_eq {s t : State} (h : RequestEffect s t) : t.panelState = s.panelState := by
  cases h with
  | draws drew =>
    obtain ⟨m, -, rfl | ⟨f, -, rfl⟩⟩ := drew <;> rfl
  | completes m r res wf bound eq => subst eq; rfl
  | startsActive active e entry eq => subst eq; rfl
  | startsInit inactive eq => subst eq; rfl

/-- Settles O59: U_SETSTATE and the timeout of the init poll are the only writes, and the invariant says in which panel state each
address is met. -/
theorem panelStateTransitions : Obligations.PanelStateTransitions := by
  intro s t h ht hne
  obtain ⟨hs, i, hu, hd, he⟩ | ⟨hs, ⟨e, hd⟩, -⟩ | ⟨-, -, he⟩ | ⟨-, -, r, rest, i, -, hu, -, he⟩ |
    ⟨-, -, r, rest, e, -, -, he⟩ := step_cases s
  · have hseq := h.sequencer hs
    have hpanel := h.panel
    rw [h.rom] at hd
    have hat := rom_panelWriteAt hseq hd
    cases uop_effect hu h.fbLen (he.symm.trans ht) with
    | advances seq upc control rcode result noEnd =>
      obtain ⟨p, rfl, hp⟩ := setState_of_panel_ne control hne
      simp only [panelWriteAt, Bool.or_eq_true, Bool.and_eq_true, beq_iff_eq] at hat
      obtain ⟨ha, rfl⟩ | ⟨ha, rfl⟩ := hat
      · exact .inl ⟨by bv_omega, hp, hs, by bv_omega⟩
      · exact .inr (.inr ⟨by bv_omega, hp, hs, by bv_omega⟩)
    | stays poll seq upc control rcode result => exact absurd (congrArg Control.panel control) hne
    | ends rc res op seq control rcode result => exact absurd (congrArg Control.panel control) hne
    | timesOut ms op seq control rcode result =>
      subst op
      have hzero : t.panelState = 0#2 := congrArg Control.panel control
      simp only [panelWriteAt, beq_iff_eq] at hat
      rw [hzero] at hne
      exact .inr (.inl ⟨by bv_omega, hzero, hs, by bv_omega, rcode, seq⟩)
  · obtain ⟨j, hj, -⟩ := h.decodes hs
    exact absurd (hd.symm.trans hj) (by simp)
  · exact absurd (congrArg State.panelState (Host.Outcome.next.inj (ht.symm.trans he))) hne
  · exact absurd (request_effect hu (he.symm.trans ht)).panelState_eq hne
  · exact absurd (congrArg State.panelState (Host.Outcome.next.inj (ht.symm.trans he))) hne

end Sys2Proof.Machine
end

section
/-! SUPPORT. Orientation, the transform and the pixel write (spec/42_framebuffer_transform.md R172 to R181, spec/20_memory.md R51 to
R54): the stored rotation, each nibble's one pixel, and what a pixel write leaves. -/

namespace Sys2Proof.Machine

/-! ## Orientation -/

/-- The stored rotation is the Euclidean remainder (R172). -/
theorem rotationMod4_toNat (r : Int) : ((rotationMod4 r).toNat : Int) = r % 4 := by
  rw [rotationMod4, BitVec.toNat_ofNat]
  omega

/-- Settles O15: the stored value is the remainder by 4, which fits two bits. -/
theorem setRotationReducesModFour : Obligations.SetRotationReducesModFour :=
  fun r _ => ⟨rotationMod4 r, rotationMod4_toNat r, rfl⟩

theorem exec_setRotation (r : Int) (s : State) :
    exec (.setRotation r) s = .next (complete rcodeOk 0 { s with rotation := rotationMod4 r }) := rfl

/-- Settles O16: a multiple of four leaves the remainder as it is. -/
theorem setRotationPeriodic : Obligations.SetRotationPeriodic := by
  intro r k s
  rw [exec_setRotation, exec_setRotation, rotationMod4, rotationMod4, Int.add_mul_emod_self_left]

/-- Settles O18: GET_PANEL_STATE completes with the stored code. -/
theorem getPanelStateReturnsCode : Obligations.GetPanelStateReturnsCode :=
  ⟨by decide, fun _ => rfl⟩

/-! ## The transform -/

/-- Settles O19: the maps by their equations at each rotation, the bounds by the logical rectangle. -/
theorem transformTable : Obligations.TransformTable := by
  intro x y
  refine ⟨?_, ?_, ?_, ?_, ?_, ?_⟩
  · rw [phys_zero]; rfl
  · rw [phys_one]; rfl
  · rw [phys_two]
  · rw [phys_three]; rfl
  · rintro r (rfl | rfl) <;> simp [inBounds_iff]
  · rintro r (rfl | rfl) <;> simp [inBounds_iff]

/-- The inverse map leads from the panel into the logical rectangle (R174, R175). -/
theorem inBounds_unphys {r : BitVec 2} {px py : Int} (h1 : 0 ≤ px) (h2 : px < 600) (h3 : 0 ≤ py) (h4 : py < 448) :
    inBounds r (unphys r px py).1 (unphys r px py).2 = true := by
  rw [inBounds_iff]
  rcases rotation_cases r with rfl | rfl | rfl | rfl <;> simp <;> omega

/-- Settles O20: the inverse map gives the pixel, and undoing the map gives its uniqueness. -/
theorem transformBijective : Obligations.TransformBijective := by
  intro r
  refine ⟨fun x y h => phys_range h, fun px py h1 h2 h3 h4 =>
    ⟨_, _, ⟨inBounds_unphys h1 h2 h3 h4, phys_unphys r px py⟩, fun u v _ he => ?_⟩⟩
  have hinv := unphys_phys r u v
  rw [he] at hinv
  rw [hinv]
  exact ⟨rfl, rfl⟩

/-- Settles O21: every nibble is some pixel's, and distinct pixels have distinct nibbles. -/
theorem nibbleOwnedByOnePixel : Obligations.NibbleOwnedByOnePixel := by
  intro r i sd
  refine ⟨fun hi => ?_, fun x y h => pixelIndex_lt h⟩
  obtain ⟨x, y, hb, hidx, hside⟩ := exists_pixel r hi sd
  exact ⟨x, y, ⟨hb, hidx, hside⟩, fun u v hb' hi' hs' => pixel_inj hb' hb (hi'.trans hidx.symm) (hs'.trans hside.symm)⟩

/-! ## The pixel write -/

/-- The byte a nibble write leaves in its place (R54). -/
theorem fbRead_nibbleWrite_same {s : State} (i : Nat) (sd : Side) (c : Nibble) (hm : Memory.wf s.fb = true) :
    fbRead (nibbleWrite i sd c s).fb i = mergeNibble (fbRead s.fb i) sd c := by
  rw [nibbleWrite_fb, fbRead_fbWrite_same hm]

/-- Settles O22: read after write at the byte itself and at another byte, and the two nibbles of the merged byte. -/
theorem nibbleWriteKeepsOtherNibble : Obligations.NibbleWriteKeepsOtherNibble := by
  intro s i c hm _
  have hhigh := fbRead_nibbleWrite_same i .high c hm
  have hlow := fbRead_nibbleWrite_same i .low c hm
  refine ⟨hhigh, ?_, ?_, ?_, ?_, ?_, fun sd j hj => ?_, fun _ => rfl⟩
  · rw [hlow, mergeNibble, Side.shift, BitVec.shiftLeft_zero, Side.keep]
  · rw [hhigh, nibbleAt_merge_same]
  · rw [hhigh, nibbleAt_merge_other _ _ (by decide)]
  · rw [hlow, nibbleAt_merge_same]
  · rw [hlow, nibbleAt_merge_other _ _ (by decide)]
  · rw [nibbleWrite_fb, fbRead_fbWrite_other hj]

theorem colorReserved_eq_false {c : Nibble} (h : c.toNat ≤ 6) : colorReserved c = false :=
  decide_eq_false (by omega)

theorem colorReserved_eq_true {c : Nibble} (h : 7 ≤ c.toNat) : colorReserved c = true :=
  decide_eq_true (by omega)

/-- WRITE_PIXEL of a legal colour paints its pixel and completes (R177). -/
theorem exec_writePixel_legal {x y : Int} {c : Nibble} {s : State} (hc : colorReserved c = false) :
    exec (.writePixel x y c) s = .next (complete rcodeOk 0 { s with fb := paint s.rotation c s.fb (x, y) }) := by
  rw [exec, execWritePixel, putPixel_legal hc]
  rfl

theorem paint_inBounds {r : BitVec 2} {c : Nibble} {m : List Host.Cell} {x y : Int} (h : inBounds r x y = true) :
    paint r c m (x, y) =
      fbWrite m (pixelIndex r x y) (mergeNibble (fbRead m (pixelIndex r x y)) (pixelSide r x y) c) := if_pos h

theorem paint_outOfBounds {r : BitVec 2} {c : Nibble} {m : List Host.Cell} {x y : Int} (h : inBounds r x y = false) :
    paint r c m (x, y) = m := if_neg (by simp [h])

/-- Settles O23: one nibble of one byte is merged, in canonical form. -/
theorem writePixelRoundTrip : Obligations.WritePixelRoundTrip := by
  intro s x y c hm hb hc
  refine ⟨_, exec_writePixel_legal (colorReserved_eq_false hc), wf_paint hm, ?_, fun sd hsd => ?_, fun i hi => ?_⟩
  · exact pixelAt_paint_same hm hb
  · rw [paint_inBounds hb, fbRead_fbWrite_same hm, nibbleAt_merge_other _ _ hsd]
  · exact fbRead_paint_other fun _ => hi.symm

/-- Settles O24: painting a pixel out of bounds leaves the framebuffer. -/
theorem writePixelOutOfBoundsDropped : Obligations.WritePixelOutOfBoundsDropped := by
  intro s x y c hb hc
  rw [exec_writePixel_legal (colorReserved_eq_false hc), paint_outOfBounds hb]
  rfl

end Sys2Proof.Machine
end

section
/-! SUPPORT. The raster primitives (spec/43_raster_primitives.md R200 to R206, spec/60_exceptions.md R230): what a painted list leaves, the
loops that draw nothing or fault, the order of the loops, and the pixel requests a primitive stands for. -/

namespace Sys2Proof.Machine

/-! ## The primitives with a legal colour -/

theorem mem_hlinePixels_int {x y w u v : Int} : (u, v) ∈ hlinePixels x y w.toNat ↔ v = y ∧ x ≤ u ∧ u < x + w := by
  rw [mem_hlinePixels]
  omega

theorem mem_vlinePixels_int {x y h u v : Int} : (u, v) ∈ vlinePixels x y h.toNat ↔ u = x ∧ y ≤ v ∧ v < y + h := by
  rw [mem_vlinePixels]
  omega

theorem mem_rectPixels_int {x y w h u v : Int} :
    (u, v) ∈ rectPixels x y w.toNat h.toNat ↔ (x ≤ u ∧ u < x + w) ∧ (y ≤ v ∧ v < y + h) := by
  rw [mem_rectPixels]
  omega

theorem mem_bitmapPixels_int {x y w h u v : Int} {data : List Byte} :
    (u, v) ∈ bitmapPixels x y data w.toNat h.toNat ↔ ((x ≤ u ∧ u < x + w) ∧ (y ≤ v ∧ v < y + h)) ∧
      bitmapBit data (bitmapStride w.toNat) (v - y).toNat (u - x).toNat = true := by
  rw [mem_bitmapPixels]
  refine and_congr_left fun _ => ?_
  omega

theorem exec_writeFastHLine_legal {x y w : Int} {c : Nibble} {s : State} (hc : colorReserved c = false) :
    exec (.writeFastHLine x y w c) s =
      .next (complete rcodeOk 0 { s with fb := paintAll s.rotation c s.fb (hlinePixels x y w.toNat) }) := by
  rw [exec, execWriteFastHLine, drawHLine_legal hc]
  rfl

theorem exec_writeFastVLine_legal {x y h : Int} {c : Nibble} {s : State} (hc : colorReserved c = false) :
    exec (.writeFastVLine x y h c) s =
      .next (complete rcodeOk 0 { s with fb := paintAll s.rotation c s.fb (vlinePixels x y h.toNat) }) := by
  rw [exec, execWriteFastVLine, drawVLine_legal hc]
  rfl

theorem exec_writeFillRect_legal {x y w h : Int} {c : Nibble} {s : State} (hc : colorReserved c = false) :
    exec (.writeFillRect x y w h c) s =
      .next (complete rcodeOk 0 { s with fb := paintAll s.rotation c s.fb (rectPixels x y w.toNat h.toNat) }) := by
  rw [exec, execWriteFillRect, drawRect_legal hc]
  rfl

/-! ## The branches of DRAW_BITMAP -/

theorem exec_drawBitmap_empty {x y w h : Int} {data : List Byte} {c : Nibble} {s : State} (he : w ≤ 0 ∨ h ≤ 0) :
    exec (.drawBitmap x y data w h c) s = .next (complete rcodeOk 0 s) := by
  rw [exec, execDrawBitmap, drawBitmap, if_pos he]
  rfl

theorem exec_drawBitmap_bits {x y w h : Int} {data : List Byte} {c : Nibble} {s : State} (hw : 0 < w) (hh : 0 < h)
    (hd : bitmapStride w.toNat * h.toNat ≤ data.length) :
    exec (.drawBitmap x y data w h c) s = .next (drawBits x y data w h c s).finish := by
  rw [exec, execDrawBitmap, drawBitmap, if_neg (by omega), if_neg (by omega)]

theorem bitmapPixels_empty {x y w h : Int} {data : List Byte} (he : w ≤ 0 ∨ h ≤ 0) :
    bitmapPixels x y data w.toNat h.toNat = [] := by
  refine List.eq_nil_iff_forall_not_mem.mpr fun ⟨u, v⟩ hp => ?_
  rw [mem_bitmapPixels_int] at hp
  omega

theorem exec_drawBitmap_legal {x y w h : Int} {data : List Byte} {c : Nibble} {s : State} (hc : colorReserved c = false)
    (hd : 0 < w → 0 < h → bitmapStride w.toNat * h.toNat ≤ data.length) :
    exec (.drawBitmap x y data w h c) s =
      .next (complete rcodeOk 0 { s with fb := paintAll s.rotation c s.fb (bitmapPixels x y data w.toNat h.toNat) }) := by
  by_cases he : w ≤ 0 ∨ h ≤ 0
  · rw [exec_drawBitmap_empty he, bitmapPixels_empty he]
    rfl
  · rw [exec_drawBitmap_bits (by omega) (by omega) (hd (by omega) (by omega)), drawBits_legal hc]
    rfl

/-! ## Painted pixels and untouched bytes -/

/-- A painted list of the pixels `P`, pixel by pixel. -/
theorem pixelAt_paintAll_iff {r : BitVec 2} {c : Nibble} {m : List Host.Cell} {ps : List (Int × Int)} {u v : Int} {P : Prop}
    [Decidable P] (hm : Memory.wf m = true) (h : inBounds r u v = true) (hp : (u, v) ∈ ps ↔ P) :
    pixelAt (paintAll r c m ps) r u v = if P then c else pixelAt m r u v := by
  rw [pixelAt_paintAll hm h]
  exact if_congr hp rfl rfl

/-- A byte that holds no pixel of a region keeps its value when only pixels of the region are painted. -/
theorem fbRead_paintAll_region {r : BitVec 2} {c : Nibble} {m : List Host.Cell} {ps : List (Int × Int)} {i : Nat}
    {P : Int → Int → Prop} (hp : ∀ u v, (u, v) ∈ ps → P u v)
    (h : ∀ u v, inBounds r u v = true → P u v → pixelIndex r u v ≠ i) :
    fbRead (paintAll r c m ps) i = fbRead m i :=
  fbRead_paintAll_other fun p hmem hb => h p.1 p.2 hb (hp p.1 p.2 hmem)

/-- Settles O26: the run's pixels are painted, in canonical form, and nothing else is written. -/
theorem hLinePaintsRun : Obligations.HLinePaintsRun := fun _ _ _ _ _ hm hc =>
  ⟨_, exec_writeFastHLine_legal (colorReserved_eq_false hc), wf_paintAll hm,
    fun _ _ hb => pixelAt_paintAll_iff hm hb mem_hlinePixels_int,
    fun _ hi => fbRead_paintAll_region (fun _ _ hp => mem_hlinePixels_int.mp hp) hi⟩

/-- Settles O27: as O26, for the vertical run. -/
theorem vLinePaintsRun : Obligations.VLinePaintsRun := fun _ _ _ _ _ hm hc =>
  ⟨_, exec_writeFastVLine_legal (colorReserved_eq_false hc), wf_paintAll hm,
    fun _ _ hb => pixelAt_paintAll_iff hm hb mem_vlinePixels_int,
    fun _ hi => fbRead_paintAll_region (fun _ _ hp => mem_vlinePixels_int.mp hp) hi⟩

/-- Settles O28: as O26, for the rectangle. -/
theorem fillRectPaintsRectangle : Obligations.FillRectPaintsRectangle := fun _ _ _ _ _ _ hm hc =>
  ⟨_, exec_writeFillRect_legal (colorReserved_eq_false hc), wf_paintAll hm,
    fun _ _ hb => pixelAt_paintAll_iff hm hb mem_rectPixels_int,
    fun _ hi => fbRead_paintAll_region (fun _ _ hp => mem_rectPixels_int.mp hp) hi⟩

/-- Settles O29: the pixels painted are those of the rectangle whose source bit is set. -/
theorem bitmapPaintsSetBits : Obligations.BitmapPaintsSetBits := fun _ _ _ _ _ _ _ hm hc hd =>
  ⟨_, exec_drawBitmap_legal (colorReserved_eq_false hc) hd, wf_paintAll hm,
    fun _ _ hb => pixelAt_paintAll_iff hm hb mem_bitmapPixels_int,
    fun _ hi => fbRead_paintAll_region (fun _ _ hp => (mem_bitmapPixels_int.mp hp).1) hi⟩

/-! ## Loops that draw nothing, and loops that fault -/

/-- A loop none of whose rounds does anything does nothing. -/
theorem forUp_going {body : Nat → State → Flow} {n : Nat} {s : State} (h : ∀ i < n, body i s = .going s) :
    forUp n body s = .going s := by
  induction n with
  | zero => rfl
  | succ n ih =>
    rw [forUp_succ, ih fun i hi => h i (by omega)]
    exact h n (Nat.lt_succ_self n)

/-- A loop whose rounds do nothing or take the same fault takes it if some round does. -/
theorem forUp_faults {body : Nat → State → Flow} {n : Nat} {s t : State}
    (h : ∀ i < n, body i s = .going s ∨ body i s = .faulted t) (hex : ∃ i < n, body i s = .faulted t) :
    forUp n body s = .faulted t := by
  induction n with
  | zero =>
    obtain ⟨i, hi, -⟩ := hex
    omega
  | succ n ih =>
    have hprev : ∀ i < n, body i s = .going s ∨ body i s = .faulted t := fun i hi => h i (by omega)
    rw [forUp_succ]
    by_cases hn : ∃ i < n, body i s = .faulted t
    · rw [ih hprev hn]
      rfl
    · rw [forUp_going fun i hi => (hprev i hi).resolve_right fun hf => hn ⟨i, hi, hf⟩]
      obtain ⟨i, hi, hf⟩ := hex
      obtain rfl : i = n := by
        by_contra hne
        exact hn ⟨i, by omega, hf⟩
      exact hf

section Reserved
variable {x y w h : Int} {data : List Byte} {c : Nibble} {s : State} (hc : colorReserved c = true)
include hc

theorem drawHLine_reserved (hw : 1 ≤ w) : drawHLine x y w c s = .faulted (raiseFault .reservedColor s) :=
  forUp_faulted (by omega) (putPixel_reserved hc)

theorem drawVLine_reserved (hh : 1 ≤ h) : drawVLine x y h c s = .faulted (raiseFault .reservedColor s) :=
  forUp_faulted (by omega) (putPixel_reserved hc)

theorem drawRect_reserved (hw : 1 ≤ w) (hh : 1 ≤ h) : drawRect x y w h c s = .faulted (raiseFault .reservedColor s) :=
  forUp_faulted (by omega) (forUp_faulted (by omega) (putPixel_reserved hc))

/-- The columns-outer loops of R205 fault as the rows-outer ones do. -/
theorem columns_reserved (hw : 1 ≤ w) (hh : 1 ≤ h) :
    forUp w.toNat (fun i => forUp h.toNat (fun j => putPixel (x + (i : Int)) (y + (j : Int)) c)) s =
      .faulted (raiseFault .reservedColor s) :=
  forUp_faulted (by omega) (forUp_faulted (by omega) (putPixel_reserved hc))

/-- A bitmap of a reserved colour faults at its first set bit, wherever that is. -/
theorem drawBits_reserved {i j : Nat} (hi : (i : Int) < w) (hj : (j : Int) < h)
    (hbit : bitmapBit data (bitmapStride w.toNat) j i = true) :
    drawBits x y data w h c s = .faulted (raiseFault .reservedColor s) := by
  have hpixel (j i : Nat) : (if bitmapBit data (bitmapStride w.toNat) j i then putPixel (x + (i : Int)) (y + (j : Int)) c s
      else .going s) = .going s ∨
      (if bitmapBit data (bitmapStride w.toNat) j i then putPixel (x + (i : Int)) (y + (j : Int)) c s else .going s) =
        .faulted (raiseFault .reservedColor s) := by
    split
    · exact .inr (putPixel_reserved hc)
    · exact .inl rfl
  refine forUp_faults (fun j _ => ?_) ⟨j, by omega, forUp_faults (fun i _ => hpixel j i) ⟨i, by omega, ?_⟩⟩
  · by_cases hrow : ∃ i < w.toNat, bitmapBit data (bitmapStride w.toNat) j i = true
    · obtain ⟨i, hi, hb⟩ := hrow
      exact .inr (forUp_faults (fun i _ => hpixel j i) ⟨i, hi, (if_pos hb).trans (putPixel_reserved hc)⟩)
    · exact .inl (forUp_going fun i hi => if_neg fun hb => hrow ⟨i, hi, hb⟩)
  · exact (if_pos hbit).trans (putPixel_reserved hc)

end Reserved

/-- Settles O30: the first pixel drawn takes the fault, and nothing was written before it. -/
theorem reservedColorFaults : Obligations.ReservedColorFaults := by
  intro s x y w h data c hcolor
  have hc := colorReserved_eq_true hcolor
  refine ⟨?_, fun hw => ?_, fun hh => ?_, fun hw hh => ?_, fun i j hi hj hd hbit => ?_⟩
  · rw [exec, execWritePixel, putPixel_reserved hc]
    rfl
  · rw [exec, execWriteFastHLine, drawHLine_reserved hc hw]
    rfl
  · rw [exec, execWriteFastVLine, drawVLine_reserved hc hh]
    rfl
  · rw [exec, execWriteFillRect, drawRect_reserved hc hw hh]
    rfl
  · rw [exec_drawBitmap_bits (by omega) (by omega) hd, drawBits_reserved hc hi hj hbit]
    rfl

theorem drawRect_empty {x y w h : Int} {c : Nibble} {s : State} (he : w ≤ 0 ∨ h ≤ 0) : drawRect x y w h c s = .going s := by
  rcases he with hw | hh
  · rw [drawRect, Int.toNat_of_nonpos hw]
    exact forUp_going fun _ _ => rfl
  · rw [drawRect, Int.toNat_of_nonpos hh]
    rfl

/-- Settles O31: a loop without a round, or without a set bit, leaves the state, and the request completes. -/
theorem emptyPrimitivesComplete : Obligations.EmptyPrimitivesComplete := by
  rintro s t x y w h data c rfl
  refine ⟨fun hw => ?_, fun hh => ?_, fun he => ⟨?_, exec_drawBitmap_empty he⟩, fun hd hbits => ?_⟩
  · rw [exec, execWriteFastHLine, drawHLine, Int.toNat_of_nonpos hw]
    rfl
  · rw [exec, execWriteFastVLine, drawVLine, Int.toNat_of_nonpos hh]
    rfl
  · rw [exec, execWriteFillRect, drawRect_empty he]
    rfl
  · by_cases he : w ≤ 0 ∨ h ≤ 0
    · exact exec_drawBitmap_empty he
    · have hskip : drawBits x y data w h c s = .going s :=
        forUp_going fun j hj => forUp_going fun i hi => if_neg (by
          rw [bitmapBit, bitmapStride, hbits i j (by omega) (by omega)]
          exact Bool.false_ne_true)
      rw [exec_drawBitmap_bits (by omega) (by omega) hd, hskip]
      rfl

/-- Settles O32: the length check comes before the loops. -/
theorem bitmapShortFaults : Obligations.BitmapShortFaults := by
  intro s x y w h data c hw hh (hd : data.length < bitmapStride w.toNat * h.toNat)
  rw [exec, execDrawBitmap, drawBitmap, if_neg (by omega), if_pos hd]
  rfl

/-! ## The order of the loops -/

/-- With a legal colour the columns-outer loops paint the same set of pixels as the rows-outer ones (R205). -/
theorem columns_legal {x y w h : Int} {c : Nibble} {s : State} (hm : Memory.wf s.fb = true) (hc : colorReserved c = false) :
    forUp w.toNat (fun i => forUp h.toNat (fun j => putPixel (x + (i : Int)) (y + (j : Int)) c)) s =
      .going { s with fb := paintAll s.rotation c s.fb (rectPixels x y w.toNat h.toNat) } := by
  have hcolumns := forUp_paint (ps := fun i => vlinePixels (x + (i : Int)) y h.toNat)
    (fun i t => drawVLine_legal (x := x + (i : Int)) (y := y) (h := h) (s := t) hc) w.toNat s
  refine hcolumns.trans ?_
  rw [paintAll_congr hm fun ⟨u, v⟩ => ?_]
  simp only [List.mem_flatMap, List.mem_range, mem_vlinePixels, mem_rectPixels]
  constructor
  · rintro ⟨i, hi, rfl, h1, h2⟩
    omega
  · rintro ⟨⟨h1, h2⟩, h3, h4⟩
    exact ⟨(u - x).toNat, by omega, by omega, h3, h4⟩

/-- Settles O33: a legal colour paints the same set in both orders, a reserved one faults at once in both, and an empty rectangle has
no round in either. -/
theorem rectangleLoopOrderIrrelevant : Obligations.RectangleLoopOrderIrrelevant := by
  intro s x y w h c hm
  rw [exec, execWriteFillRect]
  cases hc : colorReserved c with
  | false => rw [drawRect_legal hc, columns_legal hm hc]
  | true =>
    by_cases he : w ≤ 0 ∨ h ≤ 0
    · have hcolumns : forUp w.toNat (fun i => forUp h.toNat (fun j => putPixel (x + (i : Int)) (y + (j : Int)) c)) s =
          .going s := by
        rcases he with hw | hh
        · rw [Int.toNat_of_nonpos hw]
          rfl
        · rw [Int.toNat_of_nonpos hh]
          exact forUp_going fun _ _ => rfl
      rw [drawRect_empty he, hcolumns]
    · rw [drawRect_reserved hc (by omega) (by omega), columns_reserved hc (by omega) (by omega)]

/-! ## Pixel requests -/

/-- The WRITE_PIXEL requests of a list of pixels (R206). -/
def pixelRequests (c : Nibble) (ps : List (Int × Int)) : List Instr := ps.map fun p => .writePixel p.1 p.2 c

/-- The pixel requests of a list complete one after the other and paint the list. -/
theorem execAll_pixelRequests {c : Nibble} (hc : colorReserved c = false) (ps : List (Int × Int)) (s : State) :
    ∃ rc res done, execAll (pixelRequests c ps) s =
      some { s with fb := paintAll s.rotation c s.fb ps, rcode := rc, result := res, completed := done } := by
  induction ps generalizing s with
  | nil => exact ⟨s.rcode, s.result, s.completed, rfl⟩
  | cons p ps ih =>
    obtain ⟨rc, res, done, h⟩ := ih (complete rcodeOk 0 { s with fb := paint s.rotation c s.fb p })
    refine ⟨rc, res, done, ?_⟩
    rw [pixelRequests, List.map_cons, execAll, exec_writePixel_legal hc]
    exact h

/-- A primitive that paints a list and completes leaves what the list's pixel requests leave, but for completing once. -/
theorem equalsPixelRequests {c : Nibble} (hc : colorReserved c = false) {ps : List (Int × Int)} {s : State} {i : Instr}
    {is : List Instr} (his : is = pixelRequests c ps)
    (he : exec i s = .next (complete rcodeOk 0 { s with fb := paintAll s.rotation c s.fb ps })) :
    ∃ u, execAll is s = some u ∧
      exec i s = .next { u with rcode := 0#4, result := 0, completed := s.completed ++ [⟨s.req, 0#4, 0⟩] } := by
  obtain ⟨rc, res, done, h⟩ := execAll_pixelRequests hc ps s
  subst his
  exact ⟨_, h, he⟩

/-- Settles O34: each primitive paints the pixels whose requests the statement lists, in the order of the loops. -/
theorem primitivesEqualPixelRequests : Obligations.PrimitivesEqualPixelRequests := by
  intro s x y w h data c hcolor
  have hc := colorReserved_eq_false hcolor
  refine ⟨?_, ?_, ?_, fun hd => ?_⟩
  · exact equalsPixelRequests hc (by simp [pixelRequests, hlinePixels]) (exec_writeFastHLine_legal hc)
  · exact equalsPixelRequests hc (by simp [pixelRequests, vlinePixels]) (exec_writeFastVLine_legal hc)
  · exact equalsPixelRequests hc (by simp [pixelRequests, rectPixels, hlinePixels, List.map_flatMap, Function.comp_def])
      (exec_writeFillRect_legal hc)
  · exact equalsPixelRequests hc (by simp [pixelRequests, bitmapPixels, bitmapRow, bitmapBit, bitmapStride, List.map_flatMap,
      Function.comp_def])
      (exec_drawBitmap_legal hc hd)

end Sys2Proof.Machine
end

section
/-! SUPPORT. The micro-ops and the protocol requests (spec/41_controller_protocol.md R124 to R150): the words they decode from, the
state each leaves, and the polls that wait. -/

namespace Sys2Proof.Machine

/-! ## Lines, waits and transactions -/

/-- Settles O35: driving a line, then advancing; a line code 3 is reserved. -/
theorem pinDrivesLine : Obligations.PinDrivesLine := by
  refine ⟨fun l v => decodeUop_ofNat (UopOp.build_uPin l v) ?_, fun l v s => ?_, fun s hs hop h =>
    step_reservedCode .uPin hs hop h⟩
  · cases l <;> cases v <;> rfl
  · cases l <;> rfl

/-- Settles O36: the clock left is read once more after the wait, and no reading is below the one before. -/
theorem waitLetsTimePass : Obligations.WaitLetsTimePass := by
  refine ⟨fun ms hms => decodeUop_ofNat (UopOp.build_uWait hms) ?_, fun ms s => ⟨(s.clock.read.pass ms).read, ?_, rfl⟩⟩
  · rw [ofNat24_toNat hms]
    rfl
  · exact Clock.now_le_read (s.clock.read.pass ms)

theorem exec_uCmd (k : CmdSlot) (s : State) : exec (.uCmd k) s = .next (advance (sendCommand [Config.cmdTable k] s)) := rfl

/-- Settles O37: one command transaction, then advancing; a slot above 13 is reserved. -/
theorem commandFramesOneByte : Obligations.CommandFramesOneByte := by
  refine ⟨fun k => decodeUop_ofNat (UopOp.build_uCmd k) ?_, fun k s => ?_, fun s hs hop h => step_reservedCode .uCmd hs hop h⟩
  · cases k <;> rfl
  · rw [exec_uCmd, sendCommand_eq]
    rfl

theorem exec_uData_empty {p : PayloadSlot} {s : State} (h : Config.payloadTable p = []) :
    exec (.uData p) s = .next (advance s) := by
  rw [exec, execUData, if_neg (by simp [h])]

theorem exec_uData_nonempty {p : PayloadSlot} {s : State} (h : Config.payloadTable p ≠ []) :
    exec (.uData p) s = .next (advance (sendData (Config.payloadTable p) s)) := by
  rw [exec, execUData, if_pos (List.length_pos_iff.mpr h)]

/-- Settles O38: one data transaction, or none for an empty payload; a slot above 11 is reserved. -/
theorem dataFramesPayload : Obligations.DataFramesPayload := by
  refine ⟨fun p => decodeUop_ofNat (UopOp.build_uData p) ?_, fun p s => ?_, fun s hs hop h => step_reservedCode .uData hs hop h⟩
  · cases p <;> rfl
  · split
    · next h => rw [exec_uData_empty h]; rfl
    · next h => rw [exec_uData_nonempty h, sendData_eq]; rfl

theorem exec_uDataFb {s : State} (h : s.fbLen = 134400) :
    exec .uDataFb s = .next (advance (sendData (fbStream s.fb) s)) := by
  rw [exec, execUDataFb, if_pos (h.trans fbBytes_eq.symm)]

/-- Settles O39: the stream is the framebuffer byte by byte, in one data transaction; another length faults. -/
theorem framebufferStreamsWhole : Obligations.FramebufferStreamsWhole := by
  refine ⟨by decide, fun s h => ⟨fbStream s.fb, fbStream_length _, fun i hi => fbStream_get hi, ?_⟩, fun s h => ?_⟩
  · rw [exec_uDataFb h, sendData_eq]
    rfl
  · rw [exec, execUDataFb, if_neg fun he => h (he.trans fbBytes_eq)]
    rfl

theorem exec_uDataBg (s : State) :
    exec .uDataBg s = .next (advance (sendData (List.replicate 134400 0x11#8) s)) := rfl

/-- Settles O40: one data transaction of background bytes. -/
theorem backgroundStreamsWhole : Obligations.BackgroundStreamsWhole := by
  refine ⟨by decide, fun s => ?_⟩
  rw [exec_uDataBg, sendData_eq]
  rfl

/-! ## Polls -/

/-- The state after a sample whose level is known (R105). -/
theorem sampleBusy_eq {b : Bool} {s : State} (h : s.busy.sample = b) : sampleBusy s =
    { s with busy := s.busy.next, clock := s.clock.read, trace := s.trace ++ [⟨s.clock.read.now, .busy b⟩] } := by
  rw [← h]
  rfl

/-- The timeout test of a poll, on the reading after its sample (R130). -/
theorem timedOut_sampled (ms : Nat) (s : State) :
    timedOut ms (readClock (sampleBusy s)) = decide (s.t0 + ms ≤ s.clock.read.read.now) := rfl

theorem exec_uPollReadyTo (ms : Nat) (s : State) : exec (.uPollReadyTo ms) s = .next (initPoll ms s) := rfl

theorem exec_uPollReady (s : State) : exec .uPollReady s = .next (refreshPoll none true s) := rfl

theorem exec_uPollNotReady (s : State) : exec .uPollNotReady s = .next (refreshPoll none false s) := rfl

/-- Settles O41: a ready sample, a sample after the timeout, a sample before it. -/
theorem initPollThreeOutcomes : Obligations.InitPollThreeOutcomes := by
  refine ⟨fun ms hms => decodeUop_ofNat (UopOp.build_uPollReadyTo hms) ?_, fun ms s =>
    ⟨fun hb => ?_, fun hb ht => ?_, fun hb ht => ?_⟩⟩
  · rw [ofNat24_toNat hms]
    rfl
  · rw [exec_uPollReadyTo, initPoll_ready hb, sampleBusy_eq hb]
    rfl
  · rw [exec_uPollReadyTo, initPoll_timeout hb (by rw [timedOut_sampled]; exact decide_eq_true ht), sampleBusy_eq hb]
    rfl
  · rw [exec_uPollReadyTo, initPoll_wait hb (by rw [timedOut_sampled]; exact decide_eq_false (Nat.not_le.mpr ht)),
      sampleBusy_eq hb]
    rfl

/-- Settles O42: the refresh poll that awaits a ready panel, with no timeout. -/
theorem refreshPollAwaitsReady : Obligations.RefreshPollAwaitsReady := by
  refine ⟨by decide, fun s => ⟨fun hb => ?_, fun hb => ?_⟩⟩
  · rw [exec_uPollReady, refreshPoll_seen hb, sampleBusy_eq hb]
    rfl
  · rw [exec_uPollReady, refreshPoll_wait (by simp [hb]), sampleBusy_eq hb]

/-- Settles O43: the refresh poll that awaits a panel at work, with no timeout. -/
theorem refreshPollAwaitsNotReady : Obligations.RefreshPollAwaitsNotReady := by
  refine ⟨by decide, fun s => ⟨fun hb => ?_, fun hb => ?_⟩⟩
  · rw [exec_uPollNotReady, refreshPoll_seen hb, sampleBusy_eq hb]
    rfl
  · rw [exec_uPollNotReady, refreshPoll_wait (by simp [hb]), sampleBusy_eq hb]

/-- A refresh poll with a timeout, on a sample that is not awaited (R150). -/
theorem refreshPoll_some {ms : Nat} {want : Bool} {s : State} (hb : s.busy.sample = !want) :
    refreshPoll (some ms) want s =
      if timedOut ms (readClock (sampleBusy s)) then endSequence rcodeRefreshTimeout 0 (readClock (sampleBusy s))
      else readClock (sampleBusy s) :=
  if_neg (by cases want <;> simp [hb])

/-- Settles O44: the sample is not awaited, so the time since `T0` decides. -/
theorem refreshTimeoutWhenSet : Obligations.RefreshTimeoutWhenSet := by
  refine fun ms want s hb => ⟨fun ht => ?_, fun ht => ?_⟩
  · rw [refreshPoll_some hb, timedOut_sampled, if_pos (decide_eq_true ht), sampleBusy_eq hb]
    rfl
  · rw [refreshPoll_some hb, timedOut_sampled, if_neg (by rw [decide_eq_true_eq]; omega), sampleBusy_eq hb]
    rfl

/-- A step at a refresh poll whose sample is not awaited takes the sample and stays. -/
theorem step_refreshPoll_wait {want : Bool} {s : State} (hs : s.seq = true)
    (hd : decodeUop (romRead s.rom s.upc) = .ok (if want then .uPollReady else .uPollNotReady))
    (hb : s.busy.sample = !want) : step s = .next (sampleBusy s) := by
  rw [step_running hs, sequencerStep_ok hd]
  cases want
  · exact (exec_uPollNotReady s).trans (congrArg _ (refreshPoll_wait (by simp [hb])))
  · exact (exec_uPollReady s).trans (congrArg _ (refreshPoll_wait (by simp [hb])))

/-- Settles O45: by induction on the number of samples; each step takes one and leaves the poll where it is. -/
theorem refreshPollWaitsUnbounded : Obligations.RefreshPollWaitsUnbounded := by
  intro n want s hs hd hb
  induction n generalizing s with
  | zero => exact ⟨s, rfl, hs, rfl, rfl, rfl, rfl, by simp, rfl, rfl, rfl, rfl⟩
  | succ n ih =>
    rw [BusyInput.samples, List.replicate_succ, List.cons.injEq] at hb
    obtain ⟨hsample, hrest⟩ := hb
    obtain ⟨t, hrun, hseq, hupc, ht0, hrom, hbusy, hkinds, hport, hpanel, hfb, hdone⟩ :=
      ih (sampleBusy s) (by simpa using hs) (by simpa using hd) (by simpa using hrest)
    refine ⟨t, by rw [run_step (step_refreshPoll_wait hs hd hsample), hrun], hseq, ?_⟩
    simp only [sampleBusy_upc, sampleBusy_t0, sampleBusy_rom, sampleBusy_busy, sampleBusy_trace, sampleBusy_port,
      sampleBusy_panelState, sampleBusy_fb, sampleBusy_completed, hsample] at hupc ht0 hrom hbusy hkinds hport hpanel hfb hdone
    refine ⟨hupc, ht0, hrom, hbusy, ?_, hport, hpanel, hfb, hdone⟩
    rw [hkinds, List.replicate_succ]
    simp

/-! ## The end of a sequence -/

/-- Settles O46: the code is written, then the sequence advances; code 3 is reserved. -/
theorem setStateWritesPanelState : Obligations.SetStateWritesPanelState := by
  refine ⟨fun p => decodeUop_ofNat (UopOp.build_uSetState p) ?_, fun p s => rfl, fun s hs hop h =>
    step_reservedCode .uSetState hs hop h⟩
  cases p <;> rfl

/-- Settles O47: the sequence ends and the request completes; a result code above 2 is reserved. -/
theorem endCompletesRequest : Obligations.EndCompletesRequest := by
  refine ⟨fun rc res hrc => decodeUop_ofNat (UopOp.build_uEnd res (decide_eq_true hrc)) ?_, fun rc res s => rfl,
    fun s hs hop h => step_reservedCode .uEnd hs hop h⟩
  rw [append_toNat, append_toNat, append_toNat]
  simp [UopOp.code]
  omega

/-! ## Protocol requests -/

section Gated
variable {s : State}

theorem exec_display_active (h : s.panelState = 1#2) : exec .display s = .next (start Config.entryDisplay s) := by
  rw [exec, execDisplay, if_pos (isActive_iff.mpr h)]

theorem exec_display_inactive (h : s.panelState ≠ 1#2) : exec .display s = .next (complete rcodeOk 0 s) := by
  rw [exec, execDisplay, if_neg (mt isActive_iff.mp h)]

theorem exec_clean_active (h : s.panelState = 1#2) : exec .clean s = .next (start Config.entryClean s) := by
  rw [exec, execClean, if_pos (isActive_iff.mpr h)]

theorem exec_clean_inactive (h : s.panelState ≠ 1#2) : exec .clean s = .next (complete rcodeOk 0 s) := by
  rw [exec, execClean, if_neg (mt isActive_iff.mp h)]

theorem exec_init_active (h : s.panelState = 1#2) : exec (.setPanelState true) s = .next (complete rcodeOk 1 s) := by
  rw [exec, execSetPanelState, if_pos rfl, if_pos (isActive_iff.mpr h)]

theorem exec_init_inactive (h : s.panelState ≠ 1#2) : exec (.setPanelState true) s = .next (start Config.entryInit s) := by
  rw [exec, execSetPanelState, if_pos rfl, if_neg (mt isActive_iff.mp h)]

theorem exec_sleep_active (h : s.panelState = 1#2) : exec (.setPanelState false) s = .next (start Config.entryDslp s) := by
  rw [exec, execSetPanelState, if_neg Bool.false_ne_true, if_pos (isActive_iff.mpr h)]

theorem exec_sleep_inactive (h : s.panelState ≠ 1#2) : exec (.setPanelState false) s = .next (complete rcodeOk 0 s) := by
  rw [exec, execSetPanelState, if_neg Bool.false_ne_true, if_neg (mt isActive_iff.mp h)]

end Gated

/-- Settles O48: the panel state decides between a start and a silent completion. -/
theorem refreshRequestsGatedByActive : Obligations.RefreshRequestsGatedByActive :=
  ⟨by decide, by decide, fun _ => ⟨fun h => ⟨exec_display_active h, exec_clean_active h⟩,
    fun h => ⟨exec_display_inactive h, exec_clean_inactive h⟩⟩⟩

/-- Settles O49: the operand and the panel state decide between a start and a completion. -/
theorem setPanelStateCases : Obligations.SetPanelStateCases := fun _ =>
  ⟨fun h => ⟨exec_init_active h, exec_sleep_active h⟩, fun h => ⟨exec_init_inactive h, exec_sleep_inactive h⟩⟩

end Sys2Proof.Machine
end

section
/-! SUPPORT. The clock over many readings (spec/60_exceptions.md R233) and whole micro-programs (spec/41_controller_protocol.md R135 to
R143): a request's sequence from its acceptance to its end, and an INIT that always ends. -/

namespace Sys2Proof.Machine

/-! ## The clock -/

/-- Some number of readings shows progress: the script runs out, then the stall does. -/
theorem Clock.exists_progress (c : Clock) : ∃ n, c.now + 1 ≤ (Clock.read^[n] c).now := by
  obtain ⟨now, script, stall, drawn⟩ := c
  induction script generalizing now with
  | nil =>
    induction stall with
    | zero => exact ⟨1, Nat.le_add_right _ _⟩
    | succ k ih =>
      obtain ⟨n, hn⟩ := ih
      exact ⟨n + 1, hn⟩
  | cons d ds ih =>
    obtain ⟨n, hn⟩ := ih (now + d)
    exact ⟨n + 1, Nat.le_trans (Nat.succ_le_succ (Nat.le_add_right now d)) hn⟩

/-- Readings pass every bound. -/
theorem Clock.exists_ge (c : Clock) (bound : Nat) : ∃ n, bound ≤ (Clock.read^[n] c).now := by
  induction bound with
  | zero => exact ⟨0, Nat.zero_le _⟩
  | succ bound ih =>
    obtain ⟨n, hn⟩ := ih
    obtain ⟨k, hk⟩ := (Clock.read^[n] c).exists_progress
    refine ⟨k + n, ?_⟩
    rw [Function.iterate_add_apply]
    omega

/-- Settles O60: a reading adds a number, a delay adds its milliseconds, and progress repeats for ever. -/
theorem clockMonotoneAndDivergent : Obligations.ClockMonotoneAndDivergent :=
  ⟨Clock.now_le_read, fun c ms => Clock.now_le_read (c.pass ms), Clock.exists_ge⟩

/-! ## A sequence from its request to its end -/

/-- `n` steps take the request `r` off the port of `s`, run its micro-program to the end and leave `t`: the request completed with
`rc` and `res`, the events `ev` recorded, at least `ms` milliseconds passed, `x` shown, nothing else changed. -/
structure Completed (s : State) (r : RawRequest) (rest : List RawRequest) (n : Nat) (rc : BitVec 4) (res : Nat)
    (ev : List EventKind) (ms : Nat) (x : Shown) (t : State) : Prop where
  run : Host.Core.run Sys2Proof.core n s = .next t
  seq : t.seq = false
  fault : t.fault = s.fault
  rcode : t.rcode = rc
  result : t.result = res
  panel : t.panelState = x.panel
  rst : t.rst = x.rst
  dc : t.dc = x.dc
  cs : t.cs = x.cs
  busy : t.busy = x.busy
  events : kinds t.trace = kinds s.trace ++ ev
  fb : t.fb = s.fb
  fbLen : t.fbLen = s.fbLen
  rotation : t.rotation = s.rotation
  rom : t.rom = microRom
  port : t.port = rest
  completed : t.completed = s.completed ++ [⟨some (ReqLatch.ofRaw r), rc, res⟩]
  time : s.clock.now + ms ≤ t.clock.now

variable {s t : State} {r : RawRequest} {rest : List RawRequest} {n ms : Nat} {u : BitVec 8} {ev : List EventKind} {x : Shown}

/-- A program started by a request has reached its entry. -/
theorem Reached.entry (hr : s.rom = microRom) (e : BitVec 8) :
    Reached (Machine.start e (accept r rest s)) 0 e [] 0 ⟨s.panelState, s.rst, s.dc, s.cs, s.busy⟩
      (Machine.start e (accept r rest s)) :=
  .start rfl hr (le_refl _)

/-- A started program that reaches its U_END completes its request. -/
theorem Reached.completes {e : BitVec 8} (h : Reached (Machine.start e (accept r rest s)) n u ev ms x t)
    (hs : Machine.step s = .next (Machine.start e (accept r rest s))) {rc : BitVec 4} {res : BitVec 8}
    (hi : decodeUop (romRead microRom u) = .ok (.uEnd rc res)) :
    Completed s r rest (n + 2) rc res.toNat ev ms x (endSequence rc res.toNat t) where
  run := (run_step hs).trans (h.ended hi)
  seq := rfl
  fault := h.fault
  rcode := rfl
  result := rfl
  panel := h.panel
  rst := h.rst
  dc := h.dc
  cs := h.cs
  busy := h.busy
  events := h.events
  fb := h.fb
  fbLen := h.fbLen
  rotation := h.rotation
  rom := h.rom
  port := h.port
  completed := by
    rw [endSequence_completed, h.completed, h.req]
    rfl
  time := Nat.le_trans (Nat.add_le_add_right s.clock.now_le_read ms) h.time

/-! ## The reset pulse and INIT -/

/-- The last delay of the reset pulse; the advance behind it latches `T0`. -/
theorem Reached.pulseFrom3 (h : Reached s n 3#8 ev ms x t) :
    ∃ t', Reached s (n + 1) 4#8 (ev ++ [.delay 1]) (ms + 1) x t' ∧ t'.t0 = t'.clock.now := by
  have hr := t.clock.now_le_read
  exact ⟨_, h.advance (v := delay 1 t) (rom_init (k := 3) (by decide)) rfl (by simp) (by simpa using hr)
    (by simp [h.panel, h.rst, h.dc, h.cs, h.busy]) (by simp), rfl⟩

theorem Reached.pulseFrom2 (h : Reached s n 2#8 ev ms x t) :
    ∃ t', Reached s (n + 2) 4#8 (ev ++ [.line .rst true, .delay 1]) (ms + 1) { x with rst := true } t' ∧
      t'.t0 = t'.clock.now := by
  obtain ⟨_, h⟩ := h.pin (l := .rst) (v := true) (rom_init (k := 2) (by decide))
  obtain ⟨t', h, ht⟩ := h.pulseFrom3
  exact ⟨t', by simpa using h, ht⟩

theorem Reached.pulseFrom1 (h : Reached s n 1#8 ev ms x t) :
    ∃ t', Reached s (n + 3) 4#8 (ev ++ [.delay 1, .line .rst true, .delay 1]) (ms + 2) { x with rst := true } t' ∧
      t'.t0 = t'.clock.now := by
  obtain ⟨_, h⟩ := h.wait (d := 1) (rom_init (k := 1) (by decide))
  obtain ⟨t', h, ht⟩ := h.pulseFrom2
  exact ⟨t', by simpa [Nat.add_assoc] using h, ht⟩

/-- The reset pulse whole (R135). -/
theorem Reached.pulse (h : Reached s n 0#8 ev ms x t) :
    ∃ t', Reached s (n + 4) 4#8 (ev ++ resetPulse) (ms + 2) { x with rst := true } t' ∧ t'.t0 = t'.clock.now := by
  obtain ⟨_, h⟩ := h.pin (l := .rst) (v := false) (rom_init (k := 0) (by decide))
  obtain ⟨t', h, ht⟩ := h.pulseFrom1
  exact ⟨t', by simpa [resetPulse, Nat.add_assoc] using h, ht⟩

/-- Settles O50: the reset pulse, a ready sample, all the writes, and U_END with result 1. -/
theorem initSequenceSucceeds : Obligations.InitSequenceSucceeds := by
  intro s r rest hs hf hrom hpanel hport hd hb
  have hstep : step s = .next (start Config.entryInit (accept r rest s)) :=
    (step_accepts hs hf hport hd).trans (exec_init_inactive hpanel)
  obtain ⟨_, h, -⟩ := (Reached.entry (r := r) (rest := rest) hrom Config.entryInit).pulse
  obtain ⟨_, h⟩ := h.polledInit (rom_init (k := 4) (by decide)) hb
  obtain ⟨_, dc, h⟩ := Reached.initRest h
  have hend := h.completes hstep (rom_init (k := 29) (by decide))
  exact ⟨_, hend.run, hend.panel, hend.rcode, hend.result, hend.seq, hend.fault.trans hf, hend.rst, hend.cs,
    by rw [hend.events]; simp [initEvents], hend.fb, hend.fbLen, hend.rotation, hend.rom.trans hrom.symm, hend.port, hend.busy,
    hend.completed, hend.time⟩

/-! ## Deep sleep -/

/-- DSLP up to its last micro-op (R143). -/
theorem Reached.sleep (h : Reached s n 0x40#8 ev ms x t) :
    ∃ t', Reached s (n + 7) 0x47#8 (ev ++ sleepEvents) (ms + 100) ⟨2#2, false, false, false, x.busy⟩ t' := by
  obtain ⟨_, _, h⟩ := h.write (k := .dslp) (p := .dslpData) (rom_dslp (k := 0) (by decide)) (rom_dslp (k := 1) (by decide))
  obtain ⟨_, h⟩ := h.wait (d := 100) (rom_dslp (k := 2) (by decide))
  obtain ⟨_, h⟩ := h.pin (l := .rst) (v := false) (rom_dslp (k := 3) (by decide))
  obtain ⟨_, h⟩ := h.pin (l := .dc) (v := false) (rom_dslp (k := 4) (by decide))
  obtain ⟨_, h⟩ := h.pin (l := .cs) (v := false) (rom_dslp (k := 5) (by decide))
  obtain ⟨t', h⟩ := h.setState (p := .sleeping) (rom_dslp (k := 6) (by decide))
  exact ⟨t', by simpa [sleepEvents, PanelState.code] using h⟩

/-- Settles O54: DSLP runs from its entry to U_END without a poll. -/
theorem deepSleepSequence : Obligations.DeepSleepSequence := by
  intro s r rest hs hf hrom hpanel hport hd
  have hstep : step s = .next (start Config.entryDslp (accept r rest s)) :=
    (step_accepts hs hf hport hd).trans (exec_sleep_active hpanel)
  obtain ⟨_, h⟩ := (Reached.entry (r := r) (rest := rest) hrom Config.entryDslp).sleep
  have hend := h.completes hstep (rom_dslp (k := 7) (by decide))
  exact ⟨_, hend.run, hend.panel, hend.rcode, hend.result, hend.seq, hend.fault.trans hf, hend.rst, hend.dc, hend.cs,
    hend.events, hend.fb, hend.fbLen, hend.rotation, hend.rom.trans hrom.symm, hend.port, hend.busy, hend.completed,
    by simpa using hend.time⟩

/-! ## The refresh programs -/

/-- Samples known in two parts. -/
theorem BusyInput.samples_split {m k : Nat} {b : BusyInput} {l l' : List Bool} (h : b.samples (m + k) = l ++ l')
    (hl : l.length = m) : b.samples m = l ∧ (b.after m).samples k = l' := by
  rw [BusyInput.samples_add] at h
  exact List.append_inj h (by rw [BusyInput.samples_length, hl])

/-- The samples of a refresh, poll by poll (R142). -/
theorem BusyInput.samples_refresh {busy : BusyInput} {a b c : Nat}
    (h : busy.samples (3 + a + b + c) = List.replicate a false ++ true :: (List.replicate b false ++
      true :: (List.replicate c true ++ [false]))) :
    busy.samples (a + 1) = List.replicate a false ++ [true] ∧
    (busy.after (a + 1)).samples (b + 1) = List.replicate b false ++ [true] ∧
    ((busy.after (a + 1)).after (b + 1)).samples (c + 1) = List.replicate c true ++ [false] := by
  rw [show 3 + a + b + c = (a + 1) + ((b + 1) + (c + 1)) by omega, List.append_cons] at h
  obtain ⟨h1, h⟩ := BusyInput.samples_split h (by simp)
  rw [List.append_cons] at h
  obtain ⟨h2, h3⟩ := BusyInput.samples_split h (by simp)
  exact ⟨h1, h2, h3⟩

/-- The next address of a program. -/
theorem ofNat8_add_one (base k : Nat) : BitVec.ofNat 8 (base + k) + 1#8 = BitVec.ofNat 8 (base + (k + 1)) := by
  rw [← Nat.add_assoc, BitVec.ofNat_add (base + k) 1]

section Refresh
variable {base : Nat} {image : Instr} {bytes : List Byte} {a b c : Nat}
  (hrom : ∀ {k : Nat}, k < 12 → decodeUop (romRead microRom (BitVec.ofNat 8 (base + k))) = .ok ((romRefresh image).getD k .uDataFb))
  (himage : ∀ v : State, v.fb = s.fb → v.fbLen = s.fbLen → exec image v = .next (Machine.advance (sendData bytes v)))
include hrom himage

/-- A refresh program up to its last micro-op: the resolution, the image, and the three polled phases (R140 to R142). -/
theorem Reached.refresh (h : Reached s n (BitVec.ofNat 8 base) ev ms x t)
    (hb : x.busy.samples (3 + a + b + c) = List.replicate a false ++ true :: (List.replicate b false ++
      true :: (List.replicate c true ++ [false]))) :
    ∃ t', Reached s (n + (11 + a + b + c)) (BitVec.ofNat 8 (base + 11)) (ev ++ refreshEvents bytes a b c) (ms + 200)
      ⟨x.panel, x.rst, false, true, x.busy.after (3 + a + b + c)⟩ t' := by
  obtain ⟨ha, hb, hc⟩ := BusyInput.samples_refresh hb
  rw [show base = base + 0 from rfl] at h
  obtain ⟨_, _, h⟩ := h.write (k := .tres) (p := .tresData) (hrom (k := 0) (by decide))
    (by rw [ofNat8_add_one]; exact hrom (k := 1) (by decide))
  rw [ofNat8_add_one, ofNat8_add_one] at h
  obtain ⟨_, h⟩ := h.cmd (k := .dtm) (hrom (k := 2) (by decide))
  rw [ofNat8_add_one] at h
  obtain ⟨_, h⟩ := h.sent (hrom (k := 3) (by decide)) (himage _ h.fb h.fbLen)
  rw [ofNat8_add_one] at h
  obtain ⟨_, h⟩ := h.cmd (k := .pof) (hrom (k := 4) (by decide))
  rw [ofNat8_add_one] at h
  obtain ⟨_, h⟩ := h.poll (want := true) a (hrom (k := 5) (by decide)) ha
  rw [ofNat8_add_one] at h
  obtain ⟨_, h⟩ := h.cmd (k := .drf) (hrom (k := 6) (by decide))
  rw [ofNat8_add_one] at h
  obtain ⟨_, h⟩ := h.poll (want := true) b (hrom (k := 7) (by decide)) hb
  rw [ofNat8_add_one] at h
  obtain ⟨_, h⟩ := h.cmd (k := .pof) (hrom (k := 8) (by decide))
  rw [ofNat8_add_one] at h
  obtain ⟨_, h⟩ := h.poll (want := false) c (hrom (k := 9) (by decide)) hc
  rw [ofNat8_add_one] at h
  obtain ⟨t', h⟩ := h.wait (d := 200) (hrom (k := 10) (by decide))
  rw [ofNat8_add_one] at h
  refine ⟨t', ?_⟩
  rw [show 3 + a + b + c = (a + 1) + ((b + 1) + (c + 1)) by omega, BusyInput.after_add, BusyInput.after_add]
  rw [show n + (11 + a + b + c) = n + 2 + 1 + 1 + 1 + a + 1 + 1 + b + 1 + 1 + c + 1 + 1 by omega]
  simpa [refreshEvents, List.append_assoc] using h

end Refresh

/-- U_DATA_FB sends the framebuffer of any state that holds the same one. -/
theorem exec_uDataFb_of_fb_eq {v : State} (hfb : v.fb = s.fb) (hl : v.fbLen = 134400) :
    exec .uDataFb v = .next (advance (sendData (fbStream s.fb) v)) := by
  rw [← hfb]
  exact exec_uDataFb hl

/-- Settles O52: DISPLAY's program, whose image is the framebuffer. -/
theorem displaySequenceCompletes : Obligations.DisplaySequenceCompletes := by
  intro s r rest a b c hs hf hrom hlen hpanel hport hd hb
  have hstep : step s = .next (start Config.entryDisplay (accept r rest s)) :=
    (step_accepts hs hf hport hd).trans (exec_display_active hpanel)
  have hlen' : (start Config.entryDisplay (accept r rest s)).fbLen = 134400 := hlen
  obtain ⟨_, h⟩ := (Reached.entry (r := r) (rest := rest) hrom Config.entryDisplay).refresh (base := 0x20) rom_display
    (fun _ hfb hl => exec_uDataFb_of_fb_eq hfb (hl.trans hlen')) hb
  have hend := h.completes hstep (rom_display (k := 11) (by decide))
  exact ⟨_, by rw [← hend.run]; congr 1; omega, hend.panel.trans hpanel, hend.rcode, hend.result, hend.seq, hend.fault.trans hf,
    hend.rst, hend.dc, hend.cs, hend.events, hend.fb, hend.rotation, hend.port, hend.busy, hend.completed,
    by simpa using hend.time⟩

/-- Settles O53: CLEAN's program, whose image is background bytes. -/
theorem cleanSequenceCompletes : Obligations.CleanSequenceCompletes := by
  intro s r rest a b c hs hf hrom hpanel hport hd hb
  have hstep : step s = .next (start Config.entryClean (accept r rest s)) :=
    (step_accepts hs hf hport hd).trans (exec_clean_active hpanel)
  obtain ⟨_, h⟩ := (Reached.entry (r := r) (rest := rest) hrom Config.entryClean).refresh (base := 0x30) rom_clean
    (fun v _ _ => exec_uDataBg v) hb
  have hend := h.completes hstep (rom_clean (k := 11) (by decide))
  exact ⟨_, by rw [← hend.run]; congr 1; omega, hend.panel.trans hpanel, hend.rcode, hend.result, hend.seq, hend.fault.trans hf,
    hend.rst, hend.dc, hend.cs, hend.events, hend.fb, hend.rotation, hend.port, hend.busy, hend.completed,
    by simpa using hend.time⟩

end Sys2Proof.Machine
end

section
/-! SUPPORT. A running INIT always ends (spec/41_controller_protocol.md R130, R136 to R139): the reset pulse leads to the poll, time
passes every bound, so the poll comes to a last sample, and behind the poll every micro-op advances. -/

namespace Sys2Proof.Machine

variable {s t : State} {n ms : Nat} {u : BitVec 8} {ev : List EventKind} {x : Shown}

/-! ## The poll -/

/-- A sample that is not ready, before the timeout: the poll stays (R130). -/
theorem Reached.waitingInit (h : Reached s n u ev ms x t) {d : Nat} (hi : decodeUop (romRead microRom u) = .ok (.uPollReadyTo d))
    (hb : t.busy.sample = false) (ht : Machine.timedOut d (readClock (sampleBusy t)) = false) :
    Reached s (n + 1) u (ev ++ [.busy false]) ms { x with busy := x.busy.next } (readClock (sampleBusy t)) where
  run := run_snoc h.run ((h.step hi).trans (congrArg _ (initPoll_wait hb ht)))
  seq := by simpa using h.seq
  rom := by simpa using h.rom
  upc := by simpa using h.upc
  events := by simp [h.events, hb]
  time := by simpa using h.time.trans ((clk2 _).1.trans (clk2 _).2)
  latched := by simpa using h.latched.trans ((clk2 _).1.trans (clk2 _).2)
  panel := by simpa using h.panel
  rst := by simpa using h.rst
  dc := by simpa using h.dc
  cs := by simpa using h.cs
  busy := by simp [h.busy]
  fb := by simpa using h.fb
  fbLen := by simpa using h.fbLen
  rotation := by simpa using h.rotation
  port := by simpa using h.port
  req := by simpa using h.req
  fault := by simpa using h.fault
  completed := by simpa using h.completed

/-- A sample that is not ready, after the timeout: the sequence ends as InitTimeout (R130, R138). -/
theorem Reached.timedOut (h : Reached s n u ev ms x t) {d : Nat} (hi : decodeUop (romRead microRom u) = .ok (.uPollReadyTo d))
    (hb : t.busy.sample = false) (ht : Machine.timedOut d (readClock (sampleBusy t)) = true) :
    Host.Core.run Sys2Proof.core (n + 1) s = .next (endSequence rcodeInitTimeout 0
      { readClock (sampleBusy t) with panelState := PanelState.uninitialized.code }) :=
  run_snoc h.run ((h.step hi).trans (congrArg Host.Outcome.next (initPoll_timeout hb ht)))

/-- One more reading is not below. -/
theorem Clock.iterate_le_succ (c : Clock) (m : Nat) : (Clock.read^[m] c).now ≤ (Clock.read^[m + 1] c).now := by
  rw [Function.iterate_succ_apply']
  exact Clock.now_le_read _

/-- The poll comes to its last sample, ready or after the timeout: after `m` more readings the time is up in any case. -/
theorem Reached.lastSample {d : Nat} (hi : decodeUop (romRead microRom u) = .ok (.uPollReadyTo d)) (m : Nat)
    (h : Reached s n u ev ms x t) (hm : t.t0 + d ≤ (Clock.read^[m] t.clock).now) :
    ∃ k a b t', Reached s k u (ev ++ List.replicate a (.busy false)) ms { x with busy := b } t' ∧ t'.t0 = t.t0 ∧
      (t'.busy.sample = true ∨ t'.busy.sample = false ∧ Machine.timedOut d (readClock (sampleBusy t')) = true) := by
  induction m generalizing n ev x t with
  | zero =>
    have htime : Machine.timedOut d (readClock (sampleBusy t)) = true :=
      decide_eq_true (hm.trans ((clk2 t.clock).1.trans (clk2 t.clock).2))
    refine ⟨n, 0, x.busy, t, by simpa using h, rfl, ?_⟩
    cases hb : t.busy.sample with
    | true => exact .inl rfl
    | false => exact .inr ⟨rfl, htime⟩
  | succ m ih =>
    by_cases hlast : t.busy.sample = true ∨ t.busy.sample = false ∧ Machine.timedOut d (readClock (sampleBusy t)) = true
    · exact ⟨n, 0, x.busy, t, by simpa using h, rfl, hlast⟩
    · have hb : t.busy.sample = false := by simpa using fun hb => hlast (.inl hb)
      have ht : Machine.timedOut d (readClock (sampleBusy t)) = false := by simpa using fun ht => hlast (.inr ⟨hb, ht⟩)
      have hclock : Clock.read^[m] (readClock (sampleBusy t)).clock = Clock.read^[m + 1 + 1] t.clock := by simp
      obtain ⟨k, a, b, t', h', ht0, hend⟩ := ih (h.waitingInit hi hb ht)
        (by rw [hclock]; exact hm.trans (Clock.iterate_le_succ _ _))
      refine ⟨k, a + 1, b, t', ?_, by simpa using ht0, hend⟩
      simpa [List.replicate_succ] using h'

/-! ## From the entry to the poll -/

/-- A running INIT at or before its poll reaches the poll, the rest of the reset pulse recorded and RST high. If it had not begun,
at least 2 ms have passed when `T0` is latched. -/
theorem reaches_poll (h : s.Inv) (hs : s.seq = true) (hu : s.upc.toNat ≤ 4) :
    ∃ k ms t, Reached s k 4#8 (resetPulse.drop s.upc.toNat) ms ⟨s.panelState, true, s.dc, s.cs, s.busy⟩ t ∧
      (s.upc = 0#8 → s.clock.now + 2 ≤ t.t0) := by
  have hstart := Reached.start hs h.rom (h.latched hs)
  obtain ⟨-, hrst, -⟩ := h.runningLines hs
  obtain hu | hu | hu | hu | hu : s.upc = 0#8 ∨ s.upc = 1#8 ∨ s.upc = 2#8 ∨ s.upc = 3#8 ∨ s.upc = 4#8 := by bv_omega
  all_goals
    rw [hu] at hstart hrst ⊢
  · obtain ⟨t, ht, hlatch⟩ := hstart.pulse
    exact ⟨_, _, t, ht, fun _ => hlatch ▸ ht.time⟩
  · obtain ⟨t, ht, -⟩ := hstart.pulseFrom1
    exact ⟨_, _, t, ht, fun h0 => absurd h0 (by decide)⟩
  · obtain ⟨t, ht, -⟩ := hstart.pulseFrom2
    exact ⟨_, _, t, ht, fun h0 => absurd h0 (by decide)⟩
  · obtain ⟨t, ht, -⟩ := hstart.pulseFrom3
    rw [hrst (by decide)] at ht
    exact ⟨_, _, t, ht, fun h0 => absurd h0 (by decide)⟩
  · rw [hrst (by decide)] at hstart
    exact ⟨_, _, s, hstart, fun h0 => absurd h0 (by decide)⟩

/-! ## Behind the poll -/

/-- Behind its poll and before its U_END, INIT holds no poll and no U_END. -/
def advancesAt (a : Nat) (i : Instr) : Bool :=
  match i with
  | .uEnd _ _ => a == 0x1D || 0x20 ≤ a
  | _ => !isPoll i || a ≤ 4 || 0x20 ≤ a

theorem rom_advancesAt {a : BitVec 8} {panel : Nat} {i : Instr} (h : sequencerOk a.toNat panel)
    (hd : decodeUop (romRead microRom a) = .ok i) : advancesAt a.toNat i = true :=
  rom_forall_decoded (P := fun a i => advancesAt a i = true) h hd (by decide) (by decide) (by decide) (by decide)

/-- Behind the poll a step of INIT leads to the next address. -/
theorem init_step_advances (h : s.Inv) (hs : s.seq = true) (h5 : 5 ≤ s.upc.toNat) (h28 : s.upc.toNat ≤ 0x1C) :
    ∃ t, step s = .next t ∧ t.Inv ∧ t.seq = true ∧ t.upc.toNat = s.upc.toNat + 1 ∧ t.fault = s.fault ∧ KeepsPort s t := by
  obtain ⟨i, hd, hok⟩ := h.decodes hs
  obtain ⟨t, he⟩ := exec_next i s
  have hu := decodeUop_isUop hd
  have hstep := (step_running hs).trans ((sequencerStep_ok hd).trans he)
  have hat := rom_advancesAt (h.sequencer hs) (h.rom ▸ hd)
  refine ⟨t, hstep, h.uop hs hu hok he, ?_⟩
  have hfault := (uop_rest hu he h.fbLen).fault
  cases uop_effect hu h.fbLen he with
  | advances seq upc control rcode result noEnd =>
    exact ⟨seq.trans hs, by rw [upc, upc_succ_toNat (h.control_running hs)], hfault, uop_keepsPort hu he⟩
  | stays poll seq upc control rcode result =>
    exfalso
    cases i <;> simp only [isPoll, Bool.false_eq_true] at poll <;> simp [advancesAt, isPoll] at hat <;> omega
  | ends rc res op seq control rcode result =>
    subst op
    simp [advancesAt] at hat
    omega
  | timesOut ms op seq control rcode result =>
    subst op
    simp [advancesAt, isPoll] at hat
    omega

/-- Behind the poll INIT runs on to its U_END; the invariant says what holds there. -/
theorem init_reaches_end {d : Nat} (h : s.Inv) (hs : s.seq = true) (h5 : 5 ≤ s.upc.toNat) (hd : s.upc.toNat + d = 0x1D) :
    ∃ k t, Host.Core.run Sys2Proof.core k s = .next t ∧ t.Inv ∧ t.seq = true ∧ t.upc = 0x1D#8 ∧ t.fault = s.fault ∧
      KeepsPort s t := by
  induction d generalizing s with
  | zero => exact ⟨0, s, rfl, h, hs, by bv_omega, rfl, ⟨rfl, rfl, rfl, rfl, rfl⟩⟩
  | succ d ih =>
    obtain ⟨v, hstep, hinv, hseq, hupc, hfault, hkeep⟩ := init_step_advances h hs h5 (by omega)
    obtain ⟨k, t, hrun, hinv', hseq', hupc', hfault', hkeep'⟩ := ih hinv hseq (by omega) (by omega)
    exact ⟨k + 1, t, (run_step hstep).trans hrun, hinv', hseq', hupc', hfault'.trans hfault,
      hkeep'.port.trans hkeep.port, hkeep'.req.trans hkeep.req, hkeep'.fb.trans hkeep.fb, hkeep'.fbLen.trans hkeep.fbLen,
      hkeep'.rotation.trans hkeep.rotation⟩

/-- Behind the poll INIT ends with result 1, in `Active` with RST and CS high: so the invariant says at the U_END. -/
theorem init_ends_behind_poll (h : s.Inv) (hs : s.seq = true) (h5 : 5 ≤ s.upc.toNat) (hu : s.upc.toNat ≤ 0x1D) :
    ∃ k t, Host.Core.run Sys2Proof.core k s = .next (endSequence 0#4 1 t) ∧ t.panelState = 1#2 ∧ t.rst = true ∧ t.cs = true ∧
      t.fault = s.fault ∧ KeepsPort s t := by
  obtain ⟨k, t, hrun, hinv, hseq, hupc, hfault, hkeep⟩ :=
    init_reaches_end (d := 0x1D - s.upc.toNat) h hs h5 (by omega)
  have hsequencer := hinv.sequencer hseq
  obtain ⟨-, hrst, hcs, -⟩ := hinv.runningLines hseq
  have hd : decodeUop (romRead t.rom t.upc) = .ok (.uEnd 0#4 1#8) := by
    rw [hinv.rom, hupc]
    exact rom_init (k := 29) (by decide)
  rw [hupc] at hsequencer hrst hcs
  have hstep : step t = .next (endSequence 0#4 1 t) := (step_running hseq).trans (sequencerStep_ok hd)
  exact ⟨k + 1, t, run_snoc hrun hstep, by bv_omega, hrst (by decide), hcs (by decide), hfault, hkeep⟩

/-- The events of an INIT from one of its first five addresses on. -/
theorem initEvents_drop {a k : Nat} (h : k ≤ 4) : (initEvents a).drop k =
    resetPulse.drop k ++ List.replicate a (.busy false) ++ [.busy true] ++ initWrites := by
  rw [initEvents, List.append_assoc, List.append_assoc, List.drop_append_of_le_length h]
  simp

/-- Settles O51: behind the poll by the invariant at U_END; otherwise the poll is reached and comes to a last sample, and either that
sample is ready and everything is sent, or the time is up. -/
theorem initAlwaysEnds : Obligations.InitAlwaysEnds := by
  intro s h hs hu
  by_cases h4 : s.upc.toNat ≤ 4
  · obtain ⟨k, ms, t, hpoll, htime⟩ := reaches_poll h hs h4
    obtain ⟨m, hm⟩ := t.clock.exists_ge (t.t0 + 10000)
    obtain ⟨k, a, b, t', hlast, ht0, hsample | ⟨hsample, htimeout⟩⟩ :=
      Reached.lastSample (rom_init (k := 4) (by decide)) m hpoll hm
    · obtain ⟨_, hnext⟩ := hlast.polledInit (rom_init (k := 4) (by decide)) (by rwa [hlast.busy] at hsample)
      obtain ⟨v, dc, hrest⟩ := Reached.initRest hnext
      refine ⟨_, _, hrest.ended (rom_init (k := 29) (by decide)), rfl, hrest.fault, hrest.fb, hrest.rotation, hrest.port,
        hrest.rst, .inl ⟨hrest.panel, rfl, rfl, hrest.cs, fun _ => ⟨a, ?_⟩⟩⟩
      rw [initEvents_drop h4]
      exact hrest.events
    · refine ⟨_, _, hlast.timedOut (rom_init (k := 4) (by decide)) hsample htimeout, rfl, by simpa using hlast.fault,
        by simpa using hlast.fb, by simpa using hlast.rotation, by simpa using hlast.port, by simpa using hlast.rst,
        .inr ⟨rfl, rfl, rfl, h4, by simpa using hlast.cs, by simpa using hlast.dc, ⟨a, ?_⟩, fun h0 => ?_⟩⟩
      · simp [hlast.events, hsample, List.replicate_succ']
      · have helapsed : t'.t0 + 10000 ≤ t'.clock.read.read.now := of_decide_eq_true htimeout
        have hlatched := htime h0
        simp only [endSequence_clock, readClock_clock, sampleBusy_clock]
        omega
  · obtain ⟨k, t, hrun, hpanel, hrst, hcs, hfault, hkeep⟩ := init_ends_behind_poll h hs (by omega) hu
    exact ⟨k, _, hrun, rfl, hfault, hkeep.fb, hkeep.rotation, hkeep.port, hrst,
      .inl ⟨hpanel, rfl, rfl, hcs, fun h4' => absurd h4' h4⟩⟩

end Sys2Proof.Machine
end

section
/-! SUPPORT. The write map (spec/10_state.md R34): what each instruction may write, instruction by instruction. -/

namespace Sys2Proof.Machine

/-- How a drawing request ends: it completes, or faults with ReservedColor, or, DRAW_BITMAP only, with BitmapShort. -/
inductive DrawEffect (i : Instr) (s t : State) : Prop
  | completes (m : List Host.Cell) (eq : t = complete rcodeOk 0 { s with fb := m })
  | reservedColor (m : List Host.Cell) (eq : t = { s with fb := m, fault := 2#4, seq := false })
  | bitmapShort (m : List Host.Cell) (op : ∃ x y data w h c, i = .drawBitmap x y data w h c)
      (eq : t = { s with fb := m, fault := 3#4, seq := false })

/-- A request that is a drawing loop never faults with BitmapShort. -/
theorem Painting.effect {b : State → Flow} (h : Painting b) (i : Instr) (s : State) : DrawEffect i s (b s).finish := by
  obtain ⟨m, -, he | he⟩ := h s
  · exact .completes m (by rw [he]; rfl)
  · exact .reservedColor m (by rw [he]; rfl)

theorem draw_effect {i : Instr} {s t : State} (hd : i.isDraw = true) (he : exec i s = .next t) : DrawEffect i s t := by
  cases i <;> simp only [Instr.isDraw, Bool.false_eq_true] at hd
  case writePixel => cases he; exact (Painting.putPixel _ _ _).effect _ s
  case writeFastHLine => cases he; exact (drawHLine_painting _ _ _ _).effect _ s
  case writeFastVLine => cases he; exact (drawVLine_painting _ _ _ _).effect _ s
  case writeFillRect => cases he; exact (drawRect_painting _ _ _ _ _).effect _ s
  case drawBitmap x y data w h c =>
    obtain ⟨m, -, hc | ⟨f, rfl | rfl, hf⟩⟩ := exec_draws rfl he
    · exact .completes m hc
    · exact .reservedColor m hf
    · exact .bitmapShort m ⟨x, y, data, w, h, c, rfl⟩ hf

theorem isUop_of_isDraw {i : Instr} (h : i.isDraw = true) : i.isUop = false := by
  cases i <;> simp [Instr.isDraw] at h <;> rfl

/-- Settles O56: by instruction. Each leaves a known state, in which the fields it does not write read as before. -/
theorem writeMap : Obligations.WriteMap := by
  intro i s t he
  cases hd : i.isDraw with
  | true =>
    have hu := isUop_of_isDraw hd
    cases draw_effect hd he with
    | completes m eq => subst eq; simp [hu]
    | reservedColor m eq => subst eq; simp
    | bitmapShort m op eq => subst eq; simp [op]
  | false =>
    cases i <;> simp only [Instr.isDraw, Bool.true_eq_false] at hd <;>
      obtain rfl := Host.Outcome.next.inj he
    case width | height | getRotation | getPanelState | setRotation | clearDisplay => simp [Instr.isUop]
    case display | clean => split <;> simp [Instr.isUop]
    case setPanelState => split <;> split <;> simp [Instr.isUop]
    case uPin l v => cases l <;> simp [Instr.isUop]
    case uWait | uCmd | uDataBg | uSetState | uEnd => simp [Instr.isUop]
    case uData => split <;> simp [Instr.isUop]
    case uDataFb => split <;> simp [Instr.isUop, FaultCode.code]
    case uPollReadyTo =>
      unfold initPoll
      split
      · simp [Instr.isUop]
      · split <;> simp [Instr.isUop]
    case uPollReady | uPollNotReady =>
      rw [show Config.refreshTimeoutMs = none from rfl]
      unfold refreshPoll
      split <;> simp [Instr.isUop]

end Sys2Proof.Machine
end
